-- ==== Sys2Proof/Word.lean ====
section
/-! DEFINITION. The data types of the engine: a byte, a word (or column) of 4 bytes, a block of 16 bytes, a schedule of
176 bytes. spec/00_scope.md R9, R11 (the index conventions are in Machine/Layout.lean). -/

namespace Sys2Proof

/-- A byte, spec/00_scope.md R9: the unit of every datum (spec/20_memory.md R53). -/
abbrev Byte := BitVec 8

/-- Four entries with index 0 first: `b0` is "the first byte" of a schedule word, and row 0 of a State column. -/
structure Quad (α : Type) where
  b0 : α
  b1 : α
  b2 : α
  b3 : α
  deriving DecidableEq, Repr, Inhabited

/-- Four columns of four entries: the 4×4 matrix of spec/10_state.md R25, which is also a string of 16 entries. -/
structure Grid (α : Type) where
  c0 : Quad α
  c1 : Quad α
  c2 : Quad α
  c3 : Quad α
  deriving DecidableEq, Repr, Inhabited

/-- A schedule word `w(j)` (spec/00_scope.md R11), or a column of the State (spec/42_round_transform.md R134). -/
abbrev Word := Quad Byte

/-- 16 bytes: a key, a plaintext, a ciphertext, a State, a round key. -/
abbrev Block := Grid Byte

/-- The RoundKeySchedule of spec/10_state.md R26: 11 round keys of 16 bytes, 176 bytes. -/
structure Schedule where
  k0 : Block
  k1 : Block
  k2 : Block
  k3 : Block
  k4 : Block
  k5 : Block
  k6 : Block
  k7 : Block
  k8 : Block
  k9 : Block
  k10 : Block
  deriving DecidableEq, Repr, Inhabited

/-- All four entries equal to `a`. -/
def Quad.fill {α : Type} (a : α) : Quad α := ⟨a, a, a, a⟩

/-- All sixteen entries equal to `a`. -/
def Grid.fill {α : Type} (a : α) : Grid α := ⟨.fill a, .fill a, .fill a, .fill a⟩

/-- All eleven round keys equal to `b`. -/
def Schedule.fill (b : Block) : Schedule := ⟨b, b, b, b, b, b, b, b, b, b, b⟩

end Sys2Proof
end

