-- ==== Sys2Proof/Syntax.lean ====
section
/-! DEFINITION. The eight micro-operations, spec/30_encoding.md R81: one constructor for each row of
spec/opcode_table.json. -/

namespace Sys2Proof

/-- A micro-operation. Only ADDROUNDKEY has an operand: the 4-bit field `r`, the round-key index
(spec/30_encoding.md R82). -/
inductive Instr where
  | validate
  | keyexpand
  | loadpt
  | addroundkey (r : BitVec 4)
  | subbytes
  | shiftrows
  | mixcolumns
  | storect
  deriving DecidableEq, Repr

end Sys2Proof
end

