-- ==== Sys2Proof/WellFormed.lean ====
section
/-! DEFINITION. Which micro-operations have a legal word, spec/30_encoding.md R82, R83: the one check is that the
round-key index of ADDROUNDKEY is 0 to 10. -/

namespace Sys2Proof

/-- The check of spec/30_encoding.md R81, R82: `r <= 10` for ADDROUNDKEY; the others have no operand. -/
def Instr.wellFormed : Instr → Bool
  | .validate => true
  | .keyexpand => true
  | .loadpt => true
  | .addroundkey r => decide (r.toNat ≤ 10)
  | .subbytes => true
  | .shiftrows => true
  | .mixcolumns => true
  | .storect => true

/-- The micro-operation has a legal word. -/
abbrev WellFormed (i : Instr) : Prop := i.wellFormed = true

end Sys2Proof
end

