-- ==== Sys2Proof/Decode.lean ====
section
/-! DEFINITION. The decoder, total on all 256 words and on every byte string, rejecting by name, and the encoder, both
from spec/30_encoding.md R80 to R85. -/

namespace Sys2Proof

/-- Why a word is `illegal`, spec/30_encoding.md R84, one name for each of the rule's three kinds, and one for a byte
string with no word in it. -/
inductive DecodeError where
  /-- `op` is 0x0 or 0x9 to 0xf. -/
  | unassignedOp (op : BitVec 4)
  /-- `op` is 0x4 and `r` is 11 to 15. -/
  | roundKeyIndex (r : BitVec 4)
  /-- `op` takes no operand and `r` is not 0. -/
  | nonzeroField (op r : BitVec 4)
  /-- There is no byte to decode. -/
  | noWord
  deriving DecidableEq, Repr

/-- Bits 7:4 of the word, spec/30_encoding.md R80. -/
def opField (w : Byte) : BitVec 4 := w.extractLsb' 4 4

/-- Bits 3:0 of the word, spec/30_encoding.md R80. -/
def rField (w : Byte) : BitVec 4 := w.extractLsb' 0 4

/-- The micro-operation of an operation code whose `r` must be 0 (spec/30_encoding.md R81). -/
def plainOp (op : BitVec 4) : Option Instr :=
  match op.toNat with
  | 1 => some .validate
  | 2 => some .keyexpand
  | 3 => some .loadpt
  | 5 => some .subbytes
  | 6 => some .shiftrows
  | 7 => some .mixcolumns
  | 8 => some .storect
  | _ => none

/-- `decode(w)` of spec/30_encoding.md R85. -/
def decode (w : Byte) : Except DecodeError Instr :=
  if opField w = 4 then
    if (rField w).toNat ≤ 10 then .ok (.addroundkey (rField w)) else .error (.roundKeyIndex (rField w))
  else
    match plainOp (opField w) with
    | none => .error (.unassignedOp (opField w))
    | some i => if rField w = 0 then .ok i else .error (.nonzeroField (opField w) (rField w))

/-- Decoding a byte string: one micro-operation and the rest. A word is always one byte (spec/30_encoding.md R80). -/
def decodeBytes : List Byte → Except DecodeError (Instr × List Byte)
  | [] => .error .noWord
  | w :: rest =>
    match decode w with
    | .ok i => .ok (i, rest)
    | .error e => .error e

/-- The word of `r` and an operation code, spec/30_encoding.md R80. -/
def packWord (op r : BitVec 4) : Byte := op ++ r

/-- `encode` of spec/30_encoding.md R85, from the table of R81. -/
def encode : Instr → Byte
  | .validate => packWord 1 0
  | .keyexpand => packWord 2 0
  | .loadpt => packWord 3 0
  | .addroundkey r => packWord 4 r
  | .subbytes => packWord 5 0
  | .shiftrows => packWord 6 0
  | .mixcolumns => packWord 7 0
  | .storect => packWord 8 0

/-- The byte that an instruction of `nbits` bits with value `w` is stored as: every bit above `nbits` is 0. -/
def tableByte (nbits w : Nat) : Byte := BitVec.ofNat 8 (w % 2 ^ nbits)

/-- What the decoder reads from a row's word, numbered as spec/opcode_table.json numbers it. -/
def decodeTableWord (nbits w : Nat) : Option Instr :=
  match decodeBytes [tableByte nbits w] with
  | .ok (i, _) => some i
  | .error _ => none

end Sys2Proof
end

