-- ==== Sys2Proof/Config.lean ====
section
/-! DEFINITION. What one instance of the engine fixes (spec/00_scope.md R6, R7, R8) and the free values: opaque constants
without a body, so nothing can be proved of the value of one. -/

namespace Sys2Proof.Config

/-- The lane count `N` of the reference system (spec/00_scope.md R6). Only `State.reset` uses it: every definition and
every statement takes `N` as the length of the state's lane list (log 1). -/
def referenceLanes : Nat := 24

/-- The bounds of `N` (spec/00_scope.md R6). -/
def minLanes : Nat := 1
/-- The upper bound of `N` (spec/00_scope.md R6). -/
def maxLanes : Nat := 65534

/-- `KEYBYTES` of spec/00_scope.md R7. -/
def keyBytes : Nat := 16
/-- `BLOCKBYTES` of spec/00_scope.md R7. -/
def blockBytes : Nat := 16
/-- `NROUNDS` of spec/00_scope.md R7. -/
def rounds : Nat := 10
/-- `NRK` of spec/00_scope.md R7. -/
def roundKeys : Nat := 11
/-- `SCHEDBYTES` of spec/00_scope.md R7. -/
def schedBytes : Nat := 176
/-- `SCHEDWORDS` of spec/00_scope.md R7. -/
def schedWords : Nat := 44
/-- `SBOXSIZE` of spec/00_scope.md R7. -/
def sboxSize : Nat := 256
/-- `RCONSIZE` of spec/00_scope.md R7. -/
def rconSize : Nat := 11
/-- `ROMLEN` of spec/00_scope.md R7. -/
def romLen : Nat := 44

/-- `RCON0`, the open content of entry 0 of the round-constant table (spec/41_key_scheduler.md R111). No rule reads it
(log 14). -/
opaque rcon0 : Byte

/-- FREE VALUE: what a byte of `S` or `RK` that holds no value reads as (spec/10_state.md R44, R45; log 7). It depends on
which power-up of which lane (`Lane.powerUp`) and on the byte's place: 0 to 15 for `S`, 16 to 191 for `RK`. -/
opaque unwrittenByte (powerUp place : Nat) : Byte

/-- FREE VALUE: which lane steps next where nothing in the state says so (spec/44_batch_driver.md R185,
spec/93_implementation_defined.md U4; log 3). Applied to `State.choices`, which every choice advances. -/
opaque laneChoice (choices : Nat) : Nat

end Sys2Proof.Config
end

