-- ==== Sys2Proof/Machine/ControlStore.lean ====
section
/-! DEFINITION. The control store, a list of words of one byte. The hardware's is `CTRL_ROM` (spec/30_encoding.md R88), which
nothing writes (spec/20_memory.md R69); any other is the model parameter `prog` of spec/30_encoding.md R93, and is where
`State.withFetchWord` puts its word (log 8, log 9). -/

namespace Sys2Proof.Machine

/-- Cells that differ from what an unlisted address reads as, in canonical form (`Memory.wf`). -/
abbrev Memory := List Host.Cell

/-- What an unlisted address reads as: the word of `CTRL_ROM`, and 0 past its 44 words, which only a longer `prog` has
(log 9). -/
def Memory.default (a : Nat) : Byte := (ctrlRom a).getD 0

/-- The listed byte at an address. -/
def Memory.listed : Memory → Nat → Option Byte
  | [], _ => none
  | (x, y) :: m, a => if x = a then some y else Memory.listed m a

/-- One byte: the listed one, else what an unlisted address reads as. -/
def Memory.read (m : Memory) (a : Nat) : Byte := (m.listed a).getD (Memory.default a)

/-- The cells with none at an address. -/
def Memory.erase : Memory → Nat → Memory
  | [], _ => []
  | (x, y) :: m, a => if x = a then Memory.erase m a else (x, y) :: Memory.erase m a

/-- A cell put in its place among rising addresses. -/
def Memory.insert : Memory → Nat → Byte → Memory
  | [], a, b => [(a, b)]
  | (x, y) :: m, a, b =>
    if a < x then (a, b) :: (x, y) :: m
    else if a = x then (a, b) :: m
    else (x, y) :: Memory.insert m a b

/-- Writing one byte. Writing what an unlisted address reads as removes the cell. -/
def Memory.write (m : Memory) (a : Nat) (b : Byte) : Memory := if b = Memory.default a then m.erase a else m.insert a b

/-- The cells of a list of bytes laid out from an address on. -/
def Memory.ofList : Nat → List Byte → Memory
  | _, [] => []
  | a, b :: bs => if b = Memory.default a then Memory.ofList (a + 1) bs else (a, b) :: Memory.ofList (a + 1) bs

/-- The addresses strictly rise. -/
def Memory.rising : Memory → Bool
  | [] => true
  | (_, _) :: [] => true
  | (a, _) :: (b, y) :: m => decide (a < b) && Memory.rising ((b, y) :: m)

/-- A cell differs from what its address reads as unlisted. -/
def Memory.cellOk (c : Host.Cell) : Bool := decide (c.2 ≠ Memory.default c.1)

/-- The canonical form. -/
def Memory.wf (m : Memory) : Bool := m.rising && m.all Memory.cellOk

/-- A control store: a `prog` of any length (spec/30_encoding.md R93). -/
structure ControlStore where
  /-- Its bytes. -/
  cells : Memory
  /-- `len(prog)`. -/
  length : Nat
  deriving DecidableEq, Repr

/-- The hardware's control store: `CTRL_ROM` (spec/30_encoding.md R88). -/
def ControlStore.rom : ControlStore := ⟨[], 44⟩

/-- The control store of an arbitrary list of words (spec/30_encoding.md R93). -/
def ControlStore.ofList (prog : List Byte) : ControlStore := ⟨Memory.ofList 0 prog, prog.length⟩

/-- The word at a place; nothing at or past `len(prog)` (spec/20_memory.md R57, spec/30_encoding.md R93). -/
def ControlStore.read (c : ControlStore) (u : Nat) : Option Byte := if u < c.length then some (c.cells.read u) else none

/-- A word put at place 0, which a store of no word gains (log 8). -/
def ControlStore.place (c : ControlStore) (w : Byte) : ControlStore := ⟨c.cells.write 0 w, max 1 c.length⟩

/-- The canonical form of a store: its cells', and none past its length. -/
def ControlStore.wf (c : ControlStore) : Bool := c.cells.wf && c.cells.all fun x => decide (x.1 < c.length)

end Sys2Proof.Machine
end

