-- ==== Sys2Proof/Machine/State.lean ====
section
/-! DEFINITION. The whole state of the engine (spec/10_state.md R20 to R37), the host's actions (spec/44_batch_driver.md
R195), the reasons a step can stop, and the state after reset (spec/10_state.md R43). -/

namespace Sys2Proof.Machine

/-- The registers of one lane: its input slot, its working registers and its output slot (spec/10_state.md R21 to R30). -/
structure Lane where
  /-- `IN_KLEN[i]`, R21. -/
  inKlen : BitVec 8
  /-- `IN_KEY[i]`, R22. -/
  inKey : Block
  /-- Which bytes of `IN_KEY[i]` the host has written since reset, R44. -/
  inKeyWritten : Grid Bool
  /-- `IN_PLEN[i]`, R23. -/
  inPlen : BitVec 8
  /-- `IN_PT[i]`, R24. -/
  inPt : Block
  /-- Which bytes of `IN_PT[i]` the host has written since reset, R44. -/
  inPtWritten : Grid Bool
  /-- `S[i]`, R25. -/
  s : Block
  /-- Whether `S[i]` has been written since reset, R44: every writer writes all 16 bytes. -/
  sWritten : Bool
  /-- `RK[i]`, R26. -/
  rk : Schedule
  /-- Whether `RK[i]` has been written since reset, R44: its one writer writes all 176 bytes. -/
  rkWritten : Bool
  /-- `UPC[i]`, R27. -/
  upc : BitVec 6
  /-- The model's own field (log 9): `some n` says that the lane is at place `44 + n` of a `prog` of spec/30_encoding.md R93,
  a place that the codes of `UPC` cannot name. On the hardware it is always `none`. -/
  overrun : Option Nat
  /-- `OUT_CT[i]`, R28. -/
  outCt : Block
  /-- Which bytes of `OUT_CT[i]` have been written since reset, R44. -/
  outCtWritten : Grid Bool
  /-- `OUT_VALID[i]`, R29. -/
  outValid : Bool
  /-- `ERR[i]`, R30: bit 0 InvalidKeyLength, bit 1 InvalidBlockLength. -/
  err : BitVec 2
  /-- The model's own field (log 7): which free bytes `S[i]` and `RK[i]` read as while they hold no value. -/
  powerUp : Nat
  deriving DecidableEq, Repr

/-- What the host may do, spec/44_batch_driver.md R195, and the four single-register writes of R183 and the read of
`COUNT` of spec/10_state.md R41. A byte index is 0 to 15. -/
inductive HostAction where
  /-- `LoadPair(i, key, pt)`, R183. -/
  | loadPair (i : Nat) (key pt : List Byte)
  /-- A single write of `IN_KLEN[i]`: the supplied length. -/
  | writeKeyLength (i length : Nat)
  /-- A single write of one byte of `IN_KEY[i]`. -/
  | writeKeyByte (i : Nat) (k : Fin 16) (v : Byte)
  /-- A single write of `IN_PLEN[i]`: the supplied length. -/
  | writeBlockLength (i length : Nat)
  /-- A single write of one byte of `IN_PT[i]`. -/
  | writeBlockByte (i : Nat) (k : Fin 16) (v : Byte)
  /-- `SetCount(M)`, R184. -/
  | setCount (m : BitVec 16)
  /-- `START`, R184. -/
  | start
  /-- `ReadStatus`, R187. -/
  | readStatus
  /-- `ReadLane(i)`, R187. -/
  | readLane (i : Nat)
  /-- `ReadN`, R187. -/
  | readN
  /-- A read of `COUNT`, spec/10_state.md R41. -/
  | readCount
  /-- Reset, spec/70_reset_and_hazards.md R230. -/
  | reset
  deriving DecidableEq, Repr

/-- What the next step is, when the agenda says it: a host action, the step of a named lane, the completion step, or a
step that the engine chooses (log 3). -/
inductive Event where
  /-- The host acts. -/
  | host (a : HostAction)
  /-- Lane `i` takes its step, spec/43_cipher_pipeline.md R155. -/
  | lane (i : Nat)
  /-- The completion step, spec/44_batch_driver.md R186. -/
  | complete
  /-- The engine moves on its own, spec/44_batch_driver.md R185. -/
  | engine
  deriving DecidableEq, Repr

/-- What a host read answered, spec/44_batch_driver.md R187. -/
inductive Reply where
  /-- `STATUS`. -/
  | status (v : BitVec 8)
  /-- `LSTAT[i]`, and `OUT_CT[i]` when `OUT_VALID[i] = 1`. -/
  | lane (i : Nat) (lstat : BitVec 8) (ciphertext : Option Block)
  /-- A read of lane `i` while `DONE = 0`: the model gives it no value (spec/70_reset_and_hazards.md R236; log 12). -/
  | laneUnsettled (i : Nat)
  /-- `CFG_N`. -/
  | laneCount (n : BitVec 16)
  /-- `COUNT`. -/
  | count (m : BitVec 16)
  deriving DecidableEq, Repr

/-- The state of the engine and of what drives it. -/
structure State where
  /-- The lanes, lane 0 first. Their number is `N` (spec/00_scope.md R6, spec/10_state.md R31), which nothing changes. -/
  lanes : List Lane
  /-- `COUNT`, R32. -/
  count : BitVec 16
  /-- `BUSY`, R33. -/
  busy : Bool
  /-- `DONE`, R34. -/
  done : Bool
  /-- `BERR`, R35. -/
  berr : Bool
  /-- The control store (spec/10_state.md R40; log 9). The hardware's is `ControlStore.rom`. -/
  ctrl : ControlStore
  /-- The model's own field: the host's pending actions and the schedule, the next first (log 3). -/
  agenda : List Event
  /-- The model's own field: the lane that executes. -/
  cur : Nat
  /-- The model's own field: how many free choices of a lane have been made (log 3). -/
  choices : Nat
  /-- The model's own field: what the host's reads have answered, the first read first (log 13). -/
  replies : List Reply
  deriving DecidableEq, Repr

/-- The reasons the machine stops with a fault. Both are a "fault of the launch" (spec/10_state.md R44,
spec/70_reset_and_hazards.md R234, spec/93_implementation_defined.md U9): the host declared a length of 16 and did not write
16 bytes, and a byte without a value may not be read (spec/92_eei_decisions.md D16). -/
inductive Fault where
  /-- Raised by KEYEXPAND when a byte of `IN_KEY` has not been written since reset (spec/41_key_scheduler.md R118). Safe:
  the model says nothing of what follows (log 6). -/
  | unwrittenKey
  /-- Raised by LOADPT when a byte of `IN_PT` has not been written since reset (spec/43_cipher_pipeline.md R152). Safe: the
  model says nothing of what follows (log 6). -/
  | unwrittenPlaintext
  deriving DecidableEq, Repr

/-- The reasons the model gives a step no meaning. All are safe: a claim says nothing of a run that contains one. -/
inductive Refusal where
  /-- An instruction whose meaning has not been written, by its mnemonic; `exec` alone raises it. Safe. -/
  | notModelled (mnemonic : String)
  /-- A host write to `COUNT` or an input slot while `BUSY = 1`, raised by the host's action
  (spec/93_implementation_defined.md U3; log 11). Safe. -/
  | hostWriteWhileBusy
  /-- A START while `BUSY = 1`, raised by the host's action (U3; log 11). Safe. -/
  | startWhileBusy
  /-- A lane fetched a word that decodes to `illegal`, raised by the lane's step (spec/30_encoding.md R84; log 17). Safe:
  unreachable with `CTRL_ROM`. -/
  | illegalWord (w : Byte)
  /-- ADDROUNDKEY with an index above 10, which has no legal word, raised by ADDROUNDKEY's meaning (spec/42_round_transform.md
  R138; log 17). Safe: the decoder never answers one. -/
  | roundKeyIndex (r : BitVec 4)
  /-- A lane index outside `0 .. N-1`, raised by a host action, a schedule entry or a meaning (log 10). Safe. -/
  | noSuchLane (i : Nat)
  deriving DecidableEq, Repr

/-- Lane registers after reset, spec/10_state.md R43. The bytes that the rule leaves without a value are zero here and
marked as not written (log 5). -/
def Lane.reset (powerUp : Nat) : Lane where
  inKlen := 0
  inKey := .fill 0
  inKeyWritten := .fill false
  inPlen := 0
  inPt := .fill 0
  inPtWritten := .fill false
  s := .fill 0
  sWritten := false
  rk := .fill (.fill 0)
  rkWritten := false
  upc := 63
  overrun := none
  outCt := .fill 0
  outCtWritten := .fill false
  outValid := false
  err := 0
  powerUp := powerUp

/-- An engine of `n` lanes right after reset, spec/10_state.md R43, with nothing on the agenda. -/
def State.resetWith (n : Nat) : State where
  lanes := (List.range n).map Lane.reset
  count := 0
  busy := false
  done := false
  berr := false
  ctrl := .rom
  agenda := []
  cur := 0
  choices := 0
  replies := []

/-- The reference engine, 24 lanes, right after reset (log 1). -/
def State.reset : State := State.resetWith Config.referenceLanes

end Sys2Proof.Machine
end

