-- ==== Sys2Proof/Machine/Flags.lean ====
section
/-! DEFINITION. The flags: the length errors that VALIDATE computes (spec/43_cipher_pipeline.md R150), the views `STATUS`
and `LSTAT` (spec/10_state.md R36, R37), the conditions of `UPC` (R27) and the document's phases
(spec/43_cipher_pipeline.md R158). -/

namespace Sys2Proof.Machine

/-- The code of `InvalidKeyLength`, spec/60_exceptions.md R200. -/
def invalidKeyLength : BitVec 2 := 1
/-- The code of `InvalidBlockLength`, spec/60_exceptions.md R200. -/
def invalidBlockLength : BitVec 2 := 2

/-- The value `e` of spec/43_cipher_pipeline.md R150: one bit for each length that is not 16. -/
def lengthErrors (klen plen : BitVec 8) : BitVec 2 :=
  (if klen = 16 then 0 else invalidKeyLength) ||| (if plen = 16 then 0 else invalidBlockLength)

/-- A flag as bit 0 of a byte. -/
def flagByte (b : Bool) : BitVec 8 := if b then 1 else 0

/-- `STATUS`: bit 0 `BUSY`, bit 1 `DONE`, bit 2 `BERR`, the rest 0 (spec/10_state.md R36). -/
def State.status (s : State) : BitVec 8 := flagByte s.busy ||| (flagByte s.done <<< 1) ||| (flagByte s.berr <<< 2)

/-- `LSTAT[i]`: bit 0 `OUT_VALID`, bit 1 `InvalidKeyLength`, bit 2 `InvalidBlockLength`, the rest 0 (spec/10_state.md R37). -/
def Lane.lstat (l : Lane) : BitVec 8 := flagByte l.outValid ||| (l.err.setWidth 8 <<< 1)

/-- `Run(0)`, where START sends a selected lane. -/
def upcStart : BitVec 6 := 0
/-- `Done` of spec/10_state.md R27. -/
def upcDone : BitVec 6 := 44
/-- `Faulted` of spec/10_state.md R27. -/
def upcFaulted : BitVec 6 := 62
/-- `Idle` of spec/10_state.md R27. -/
def upcIdle : BitVec 6 := 63

/-- The place of the control store that a lane in `Run(u)` is at (spec/10_state.md R27; past `CTRL_ROM`, log 9). -/
def Lane.place (l : Lane) : Option Nat :=
  match l.overrun with
  | some n => some (44 + n)
  | none => if l.upc.toNat < 44 then some l.upc.toNat else none

/-- The fetch of a lane: `CTRL_ROM[UPC[i]]` (spec/43_cipher_pipeline.md R155), and `prog[u]` in `Run(u)` for another store
(spec/30_encoding.md R93). -/
def ControlStore.fetch (c : ControlStore) (l : Lane) : Option Byte :=
  match l.place with
  | none => none
  | some u => c.read u

/-- A lane has a step exactly when there is a word at its place: with `CTRL_ROM`, when `UPC` is 0 to 43
(spec/43_cipher_pipeline.md R155); with another store, when it is in `Run(u)` with `u < len(prog)` (spec/30_encoding.md
R93). -/
def Lane.running (c : ControlStore) (l : Lane) : Bool := (c.fetch l).isSome

/-- A lane that the completion step does not wait for: `Done`, `Faulted` or `Idle` (spec/44_batch_driver.md R186). -/
def Lane.settled (l : Lane) : Bool :=
  decide (l.overrun = none ∧ (l.upc = upcDone ∨ l.upc = upcFaulted ∨ l.upc = upcIdle))

/-- The document's state names, spec/43_cipher_pipeline.md R158. -/
inductive Phase where
  | initialized
  | roundKeyAdded0
  | round (r : Nat)
  | done
  deriving DecidableEq, Repr

/-- The document's state of a lane, a function of `UPC`, where it has one (the table of spec/43_cipher_pipeline.md R158). -/
def phase (upc : BitVec 6) : Option Phase :=
  if upc = 3 then some .initialized
  else if upc = 4 then some .roundKeyAdded0
  else if upc = 43 then some (.round 10)
  else if upc = upcDone then some .done
  else if 8 ≤ upc.toNat ∧ upc.toNat ≤ 40 ∧ upc.toNat % 4 = 0 then some (.round (upc.toNat / 4 - 1))
  else none

/-- The document's state of a lane. Past what `UPC` can name there is none (log 9). -/
def Lane.phase (l : Lane) : Option Phase :=
  match l.overrun with
  | some _ => none
  | none => Machine.phase l.upc

end Sys2Proof.Machine
end

