-- ==== Sys2Proof/Machine/Layout.lean ====
section
/-! DEFINITION. Where a byte sits: the index conventions of spec/00_scope.md R11 and spec/20_memory.md R53, the 128-bit
packing of R55 (which is the hex string of R54 read as a numeral), and byte-by-byte operations on blocks. -/

namespace Sys2Proof

/-- Entry `k` of four. -/
def Quad.get {α : Type} (q : Quad α) (k : Fin 4) : α :=
  match k with
  | 0 => q.b0
  | 1 => q.b1
  | 2 => q.b2
  | 3 => q.b3

/-- The four entries `f 0` to `f 3`. -/
def Quad.ofFn {α : Type} (f : Fin 4 → α) : Quad α := ⟨f 0, f 1, f 2, f 3⟩

/-- Column `c`: in a State the entries `S[4c .. 4c+3]` (spec/42_round_transform.md R134), in a round key word `c`. -/
def Grid.col {α : Type} (g : Grid α) (c : Fin 4) : Quad α :=
  match c with
  | 0 => g.c0
  | 1 => g.c1
  | 2 => g.c2
  | 3 => g.c3

/-- Entry `k` of sixteen: row `k mod 4`, column `k div 4` (column-major, spec/00_scope.md R11). -/
def Grid.get {α : Type} (g : Grid α) (k : Fin 16) : α :=
  (g.col ⟨k.val / 4, by omega⟩).get ⟨k.val % 4, by omega⟩

/-- The entry in row `r`, column `c`: `S[r + 4c]` (spec/00_scope.md R11). -/
def Grid.at {α : Type} (g : Grid α) (r c : Fin 4) : α := (g.col c).get r

/-- The sixteen entries `f 0` to `f 15`. -/
def Grid.ofFn {α : Type} (f : Fin 16 → α) : Grid α :=
  ⟨⟨f 0, f 1, f 2, f 3⟩, ⟨f 4, f 5, f 6, f 7⟩, ⟨f 8, f 9, f 10, f 11⟩, ⟨f 12, f 13, f 14, f 15⟩⟩

/-- Entry `k` replaced by `v`, every other kept. -/
def Grid.put {α : Type} (g : Grid α) (k : Fin 16) (v : α) : Grid α :=
  .ofFn fun j => if j = k then v else g.get j

/-- Every entry through `f`. -/
def Grid.map {α β : Type} (f : α → β) (g : Grid α) : Grid β := .ofFn fun k => f (g.get k)

/-- The entries in index order. -/
def Grid.toList {α : Type} (g : Grid α) : List α :=
  [g.c0.b0, g.c0.b1, g.c0.b2, g.c0.b3, g.c1.b0, g.c1.b1, g.c1.b2, g.c1.b3,
   g.c2.b0, g.c2.b1, g.c2.b2, g.c2.b3, g.c3.b0, g.c3.b1, g.c3.b2, g.c3.b3]

/-- Every mark is set. -/
def Grid.allSet (g : Grid Bool) : Bool := g.toList.all id

/-- The first 16 entries of a list over those of `g`: entries past the end of the list keep what they held
(spec/44_batch_driver.md R183). -/
def Grid.overlay {α : Type} (g : Grid α) (l : List α) : Grid α :=
  .ofFn fun k => (l[k.val]?).getD (g.get k)

/-- The block of a byte string's first 16 bytes, byte 0 first (spec/20_memory.md R53); zero past its end. -/
def Block.ofBytes (l : List Byte) : Block := (Grid.fill 0).overlay l

/-- XOR of two words, byte by byte (spec/00_scope.md R10). -/
def Word.xor (a b : Word) : Word := ⟨a.b0 ^^^ b.b0, a.b1 ^^^ b.b1, a.b2 ^^^ b.b2, a.b3 ^^^ b.b3⟩

/-- XOR of two blocks, byte by byte (spec/00_scope.md R10). -/
def Block.xor (a b : Block) : Block := .ofFn fun k => a.get k ^^^ b.get k

/-- Round key `r`: bytes `RK[16r .. 16r+15]` (spec/00_scope.md R11). -/
def Schedule.key (w : Schedule) (r : Fin 11) : Block :=
  match r with
  | 0 => w.k0
  | 1 => w.k1
  | 2 => w.k2
  | 3 => w.k3
  | 4 => w.k4
  | 5 => w.k5
  | 6 => w.k6
  | 7 => w.k7
  | 8 => w.k8
  | 9 => w.k9
  | 10 => w.k10

/-- The eleven round keys `f 0` to `f 10`. -/
def Schedule.ofFn (f : Fin 11 → Block) : Schedule := ⟨f 0, f 1, f 2, f 3, f 4, f 5, f 6, f 7, f 8, f 9, f 10⟩

/-- Byte `k` of 176: byte `k mod 16` of round key `k div 16` (spec/00_scope.md R11). -/
def Schedule.byte (w : Schedule) (k : Fin 176) : Byte :=
  (w.key ⟨k.val / 16, by omega⟩).get ⟨k.val % 16, by omega⟩

/-- Word `w(j)` of 44: word `j mod 4` of round key `j div 4` (spec/00_scope.md R11, spec/20_memory.md R53). -/
def Schedule.word (w : Schedule) (j : Fin 44) : Word :=
  (w.key ⟨j.val / 4, by omega⟩).col ⟨j.val % 4, by omega⟩

/-- Byte `k` replaced by `v`, every other kept. -/
def Schedule.put (w : Schedule) (k : Fin 176) (v : Byte) : Schedule :=
  .ofFn fun r => if r.val = k.val / 16 then (w.key r).put ⟨k.val % 16, by omega⟩ v else w.key r

/-- The block of a 128-bit numeral: byte `k` is bits `127-8k` down to `120-8k` (spec/20_memory.md R55), so the numeral's
32 hex digits are the block's hex string (R54). -/
def Block.unpack (v : BitVec 128) : Block := .ofFn fun k => v.extractLsb' (120 - 8 * k.val) 8

/-- The 128-bit vector of a block, spec/20_memory.md R55. -/
def Block.pack (b : Block) : BitVec 128 :=
  b.toList.foldl (fun v x => (v <<< 8) ||| x.setWidth 128) 0

end Sys2Proof
end

