-- ==== Sys2Proof/Machine/Operands.lean ====
section
/-! DEFINITION. Where an operand comes from and where a result goes: the working registers and the input slot of the lane
that executes, each in the one accessor that knows whether its bytes hold a value (spec/10_state.md R44, R45), and the one
operand field `r` (spec/30_encoding.md R82). -/

namespace Sys2Proof.Machine

/-- ADDROUNDKEY's operand: the round-key index, unsigned, 0 to 10 (spec/30_encoding.md R82). -/
def roundKeyIndex (r : BitVec 4) : Option (Fin 11) :=
  if h : r.toNat < 11 then some ⟨r.toNat, h⟩ else none

/-- The State as a micro-operation reads it: `S[i]`, or free bytes while `S[i]` holds no value (log 7). -/
def Lane.readS (l : Lane) : Block :=
  if l.sWritten then l.s else .ofFn fun k => Config.unwrittenByte l.powerUp k.val

/-- The schedule as a micro-operation reads it: `RK[i]`, or free bytes while `RK[i]` holds no value (log 7). -/
def Lane.readRk (l : Lane) : Schedule :=
  if l.rkWritten then l.rk else .ofFn fun r => .ofFn fun k => Config.unwrittenByte l.powerUp (16 + 16 * r.val + k.val)

/-- The key, when each of its bytes holds a value (spec/10_state.md R44). -/
def Lane.readKey (l : Lane) : Option Block := if l.inKeyWritten.allSet then some l.inKey else none

/-- The plaintext, when each of its bytes holds a value (spec/10_state.md R44). -/
def Lane.readPt (l : Lane) : Option Block := if l.inPtWritten.allSet then some l.inPt else none

/-- `S[i][0..15] <- v`. -/
def Lane.writeS (l : Lane) (v : Block) : Lane := { l with s := v, sWritten := true }

/-- `RK[i][0..175] <- v`. -/
def Lane.writeRk (l : Lane) (v : Schedule) : Lane := { l with rk := v, rkWritten := true }

/-- `OUT_CT[i][0..15] <- v ; OUT_VALID[i] <- 1`, the one write of an output slot (spec/43_cipher_pipeline.md R154). -/
def Lane.writeOut (l : Lane) (v : Block) : Lane := { l with outCt := v, outCtWritten := .fill true, outValid := true }

/-- `UPC[i] <- v`, a code of spec/10_state.md R27. -/
def Lane.setUpc (l : Lane) (v : BitVec 6) : Lane := { l with upc := v, overrun := none }

/-- Whether the place after this one is past what `UPC` can name: 44 is the code of `Done`, which only STORECT reaches
(spec/30_encoding.md R93; log 9). -/
def Lane.nextOverrun (l : Lane) : Option Nat :=
  match l.overrun with
  | some n => some (n + 1)
  | none => if l.upc = 43 then some 0 else none

/-- `UPC[i] <- u + 1`, the one successor of a micro-operation without error (spec/43_cipher_pipeline.md R156). -/
def Lane.advance (l : Lane) : Lane := { l with upc := l.upc + 1, overrun := l.nextOverrun }

/-- `IN_KLEN[i]` for a supplied length: 255 when above 255 (spec/10_state.md R21). -/
def storedLength (n : Nat) : BitVec 8 := BitVec.ofNat 8 (min n 255)

/-- The key half of `LoadPair` (spec/44_batch_driver.md R183): the length, and up to 16 bytes. -/
def Lane.loadKey (l : Lane) (key : List Byte) : Lane :=
  { l with
    inKlen := storedLength key.length
    inKey := l.inKey.overlay key
    inKeyWritten := l.inKeyWritten.overlay (key.map fun _ => true) }

/-- The plaintext half of `LoadPair` (spec/44_batch_driver.md R183). -/
def Lane.loadPt (l : Lane) (pt : List Byte) : Lane :=
  { l with
    inPlen := storedLength pt.length
    inPt := l.inPt.overlay pt
    inPtWritten := l.inPtWritten.overlay (pt.map fun _ => true) }

/-- A single write of a byte of `IN_KEY[i]` (spec/44_batch_driver.md R183). -/
def Lane.putKeyByte (l : Lane) (k : Fin 16) (v : Byte) : Lane :=
  { l with inKey := l.inKey.put k v, inKeyWritten := l.inKeyWritten.put k true }

/-- A write of a byte of `OUT_CT[i]`. -/
def Lane.putOutByte (l : Lane) (k : Fin 16) (v : Byte) : Lane :=
  { l with outCt := l.outCt.put k v, outCtWritten := l.outCtWritten.put k true }

/-- A single write of a byte of `IN_PT[i]` (spec/44_batch_driver.md R183). -/
def Lane.putPtByte (l : Lane) (k : Fin 16) (v : Byte) : Lane :=
  { l with inPt := l.inPt.put k v, inPtWritten := l.inPtWritten.put k true }

end Sys2Proof.Machine
end

