-- ==== Sys2Proof/Machine/Ops.lean ====
section
/-! DEFINITION. The operations every meaning is built from: the executing lane, raising an error
(spec/60_exceptions.md R204, R206), restarting a lane (spec/44_batch_driver.md R184), fetching a word, and `MemRead` and
`MemWrite` over the address spaces of spec/20_memory.md R50, R51. -/

namespace Sys2Proof.Machine

/-- What a micro-operation does to the registers of its own lane: it names no other lane (spec/10_state.md R20). -/
abbrev LaneOutcome := Host.Outcome Lane Fault Refusal

/-- What a step answers. -/
abbrev StateOutcome := Host.Outcome State Fault Refusal

/-- Lane `i` replaced by `l`, every other register kept. -/
def State.putLane (s : State) (i : Nat) (l : Lane) : State := { s with lanes := s.lanes.set i l }

/-- A micro-operation executed by the lane `s.cur`: atomic (spec/20_memory.md R58), and confined to that lane's registers
(spec/20_memory.md R63). -/
def onLane (f : Lane → LaneOutcome) (s : State) : StateOutcome :=
  match s.lanes[s.cur]? with
  | none => .refused (.noSuchLane s.cur)
  | some l =>
    match f l with
    | .next l' => .next (s.putLane s.cur l')
    | .fault r => .fault r
    | .refused r => .refused r

/-- `raise` of the lane errors `e`: `ERR[i] <- e ; UPC[i] <- 62`, and nothing else (spec/60_exceptions.md R204). There is
no handler, nothing is saved, and there is no return (R210): only START leaves `Faulted`. -/
def Lane.raise (l : Lane) (e : BitVec 2) : Lane := { l with err := e, upc := upcFaulted, overrun := none }

/-- What START does to a lane: `OUT_VALID[i] <- 0 ; ERR[i] <- 0` and `UPC[i] <- v` (spec/44_batch_driver.md R184). It is
also the one way out of `Faulted` (spec/60_exceptions.md R210). -/
def Lane.restart (l : Lane) (v : BitVec 6) : Lane := { l with outValid := false, err := 0, upc := v, overrun := none }

/-- Raising `LaneCountMismatch`: `BERR <- 1 ; DONE <- 1 ; BUSY <- 0`, all lanes `Idle` (spec/60_exceptions.md R206). -/
def State.raiseLaneCountMismatch (s : State) : State :=
  { s with lanes := s.lanes.map fun l => l.restart upcIdle, berr := true, done := true, busy := false }

/-- The fetch of a lane's step from the engine's control store (spec/43_cipher_pipeline.md R155). -/
abbrev State.fetch (s : State) (l : Lane) : Option Byte := s.ctrl.fetch l

/-- The address spaces of spec/20_memory.md R50 whose entries are bytes; `SP_IN` and `SP_OUT` by register name. The 16-bit
registers of `SP_CSR` are read by name (`State.cfgN`, `State.count`, `State.status`). -/
inductive Space where
  /-- `SP_SBOX`, 256 bytes, ROM. -/
  | sbox
  /-- `SP_RCON`, 11 bytes, ROM. -/
  | rcon
  /-- `SP_CTRL`, 44 words of a byte, ROM. -/
  | ctrl
  /-- `SP_RK`, 176 bytes. -/
  | rk
  /-- `SP_STATE`, 16 bytes. -/
  | state
  /-- `SP_IN`, `IN_KLEN`. -/
  | keyLength
  /-- `SP_IN`, `IN_KEY`. -/
  | key
  /-- `SP_IN`, `IN_PLEN`. -/
  | blockLength
  /-- `SP_IN`, `IN_PT`. -/
  | block
  /-- `SP_OUT`, `OUT_CT`. -/
  | ciphertext
  /-- `SP_OUT`, `LSTAT`. -/
  | lstat
  deriving DecidableEq, Repr

/-- An entry of a 16-byte register, by a numeric index. -/
def gridByte (g : Block) (k : Nat) : Option Byte := if h : k < 16 then some (g.get ⟨k, h⟩) else none

/-- An entry of a 16-byte register that holds a value only where it is marked as written (spec/10_state.md R44). -/
def writtenByte (g : Block) (w : Grid Bool) (k : Nat) : Option Byte :=
  if h : k < 16 then if w.get ⟨k, h⟩ then some (g.get ⟨k, h⟩) else none else none

/-- `MemRead` of a per-lane space: one byte; nothing where the index is outside the space (spec/20_memory.md R57) or the
byte of a host-visible register holds no value (spec/10_state.md R44). -/
def Lane.memRead (l : Lane) (sp : Space) (k : Nat) : Option Byte :=
  match sp with
  | .sbox => if k < 256 then some (substitute (BitVec.ofNat 8 k)) else none
  | .rcon => rconTable[k]?
  | .ctrl => none
  | .rk => if h : k < 176 then some (l.readRk.byte ⟨k, h⟩) else none
  | .state => gridByte l.readS k
  | .keyLength => if k = 0 then some l.inKlen else none
  | .key => writtenByte l.inKey l.inKeyWritten k
  | .blockLength => if k = 0 then some l.inPlen else none
  | .block => writtenByte l.inPt l.inPtWritten k
  | .ciphertext => writtenByte l.outCt l.outCtWritten k
  | .lstat => if k = 0 then some l.lstat else none

/-- `MemRead(space, i, k)`, spec/20_memory.md R51. The two spaces that are engine-wide in the table of R50 have no lane and
ignore `i`; in the other, per-lane, spaces an index `i` outside `0 .. N-1` names no space, and the answer is nothing: the rule
gives no result there, and this is the model's choice (DESIGN CHOICE, log 10). -/
def memRead (s : State) (sp : Space) (i k : Nat) : Option Byte :=
  match sp with
  | .ctrl => s.ctrl.read k
  | .rcon => rconTable[k]?
  | sp =>
    match s.lanes[i]? with
    | none => none
    | some l => l.memRead sp k

/-- `MemWrite` of a per-lane space: nothing for a ROM (spec/20_memory.md R69), for the view `LSTAT`, or outside the space. -/
def Lane.memWrite (l : Lane) (sp : Space) (k : Nat) (v : Byte) : Option Lane :=
  match sp with
  | .sbox => none
  | .rcon => none
  | .ctrl => none
  | .rk => if h : k < 176 then some (l.writeRk (l.readRk.put ⟨k, h⟩ v)) else none
  | .state => if h : k < 16 then some (l.writeS (l.readS.put ⟨k, h⟩ v)) else none
  | .keyLength => if k = 0 then some { l with inKlen := v } else none
  | .key => if h : k < 16 then some (l.putKeyByte ⟨k, h⟩ v) else none
  | .blockLength => if k = 0 then some { l with inPlen := v } else none
  | .block => if h : k < 16 then some (l.putPtByte ⟨k, h⟩ v) else none
  | .ciphertext => if h : k < 16 then some (l.putOutByte ⟨k, h⟩ v) else none
  | .lstat => none

/-- `MemWrite(space, i, k, v)`, spec/20_memory.md R51. With a lane index outside `0 .. N-1` there is no write: the rule gives
no result there, and this is the model's choice (DESIGN CHOICE, log 10). -/
def memWrite (s : State) (sp : Space) (i k : Nat) (v : Byte) : Option State :=
  match s.lanes[i]? with
  | none => none
  | some l =>
    match l.memWrite sp k v with
    | none => none
    | some l' => some (s.putLane i l')

/-- A host read of `CFG_N`, spec/10_state.md R31. -/
def State.cfgN (s : State) : BitVec 16 := BitVec.ofNat 16 s.lanes.length

end Sys2Proof.Machine
end

