-- ==== Sys2Proof/Machine/BatchDriver.lean ====
section
/-! DEFINITION. The BatchDriver and the host: START, the completion step, and the host's actions
(spec/44_batch_driver.md R183, R184, R186, R187, R195; reset: spec/70_reset_and_hazards.md R230). -/

namespace Sys2Proof.Machine

/-- The lanes after a START that selects the first `m` of them: those start at `CTRL_ROM[0]`, the rest are `Idle`
(spec/44_batch_driver.md R184). -/
def startLanes : Nat → List Lane → List Lane
  | _, [] => []
  | 0, l :: ls => l.restart upcIdle :: startLanes 0 ls
  | m + 1, l :: ls => l.restart upcStart :: startLanes m ls

/-- START, when `BUSY = 0` (spec/44_batch_driver.md R184). -/
def State.startBatch (s : State) : State :=
  if s.lanes.length < s.count.toNat then s.raiseLaneCountMismatch
  else
    { s with
      lanes := startLanes s.count.toNat s.lanes
      berr := false
      done := decide (s.count.toNat = 0)
      busy := decide (s.count.toNat ≠ 0) }

/-- The completion step is enabled: `BUSY = 1` and every lane is `Done`, `Faulted` or `Idle` (spec/44_batch_driver.md
R186). -/
def State.canComplete (s : State) : Bool := s.busy && s.lanes.all Lane.settled

/-- The completion step, spec/44_batch_driver.md R186: `BUSY <- 0 ; DONE <- 1`. -/
def State.completeBatch (s : State) : State := { s with busy := false, done := true }

/-- Reset, spec/70_reset_and_hazards.md R230: every lane register and engine register at its value of spec/10_state.md
R43. The constants stay; so do the model's own fields (log 20), and the free bytes of every lane become new ones (log 7). -/
def State.resetEngine (s : State) : State :=
  { s with
    lanes := s.lanes.map fun l => Lane.reset (l.powerUp + s.lanes.length)
    count := 0
    busy := false
    done := false
    berr := false }

/-- A host write to input slot `i`: refused while `BUSY = 1` (log 11), and where there is no lane `i` (log 10). -/
def hostWriteLane (s : State) (i : Nat) (f : Lane → Lane) : StateOutcome :=
  if s.busy then .refused .hostWriteWhileBusy
  else
    match s.lanes[i]? with
    | none => .refused (.noSuchLane i)
    | some l => .next (s.putLane i (f l))

/-- An answer to the host (log 13). -/
def State.answer (s : State) (r : Reply) : State := { s with replies := s.replies ++ [r] }

/-- What `ReadLane(i)` answers: nothing while `DONE = 0`, and a ciphertext only when `OUT_VALID[i] = 1`
(spec/44_batch_driver.md R187, spec/70_reset_and_hazards.md R236; log 12). -/
def laneReply (s : State) (i : Nat) (l : Lane) : Reply :=
  if s.done then .lane i l.lstat (if l.outValid then some l.outCt else none) else .laneUnsettled i

/-- `LoadPair(i, key, pt)`, spec/44_batch_driver.md R183. -/
def hostLoadPair (i : Nat) (key pt : List Byte) (s : State) : StateOutcome :=
  hostWriteLane s i fun l => (l.loadKey key).loadPt pt

/-- `SetCount(M)`, spec/44_batch_driver.md R184. -/
def hostSetCount (m : BitVec 16) (s : State) : StateOutcome :=
  if s.busy then .refused .hostWriteWhileBusy else .next { s with count := m }

/-- `START`, spec/44_batch_driver.md R184. -/
def hostStart (s : State) : StateOutcome :=
  if s.busy then .refused .startWhileBusy else .next s.startBatch

/-- `ReadLane(i)`, spec/44_batch_driver.md R187. -/
def hostReadLane (i : Nat) (s : State) : StateOutcome :=
  match s.lanes[i]? with
  | none => .refused (.noSuchLane i)
  | some l => .next (s.answer (laneReply s i l))

/-- What each host action does, spec/44_batch_driver.md R195. -/
def hostAct (a : HostAction) (s : State) : StateOutcome :=
  match a with
  | .loadPair i key pt => hostLoadPair i key pt s
  | .writeKeyLength i n => hostWriteLane s i fun l => { l with inKlen := storedLength n }
  | .writeKeyByte i k v => hostWriteLane s i fun l => l.putKeyByte k v
  | .writeBlockLength i n => hostWriteLane s i fun l => { l with inPlen := storedLength n }
  | .writeBlockByte i k v => hostWriteLane s i fun l => l.putPtByte k v
  | .setCount m => hostSetCount m s
  | .start => hostStart s
  | .readStatus => .next (s.answer (.status s.status))
  | .readLane i => hostReadLane i s
  | .readN => .next (s.answer (.laneCount s.cfgN))
  | .readCount => .next (s.answer (.count s.count))
  | .reset => .next s.resetEngine

end Sys2Proof.Machine
end

