-- ==== Sys2Proof/Machine/KeySchedule.lean ====
section
/-! DEFINITION. The KeyScheduler and KEYEXPAND, spec/41_key_scheduler.md. -/

namespace Sys2Proof.Machine

/-- `RotWord`: the first byte moves to the end (spec/41_key_scheduler.md R112). -/
def rotWord (t : Word) : Word := ⟨t.b1, t.b2, t.b3, t.b0⟩

/-- `SubWord` (spec/41_key_scheduler.md R113). -/
def subWord (t : Word) : Word := ⟨substitute t.b0, substitute t.b1, substitute t.b2, substitute t.b3⟩

/-- `G(t, c)`: rotate, substitute, XOR the first byte with the constant (spec/41_key_scheduler.md R114). -/
def gWord (t : Word) (c : Byte) : Word :=
  let u := subWord (rotWord t)
  ⟨u.b0 ^^^ c, u.b1, u.b2, u.b3⟩

/-- Four passes of the loop of spec/41_key_scheduler.md R115, for `j = 4r .. 4r+3`: from round key `r - 1` and `RCON[r]`,
round key `r`. Only `j = 4r` is transformed, and each word is the previous one XOR the one four back. -/
def nextRoundKey (p : Block) (c : Byte) : Block :=
  let w0 := Word.xor (gWord p.c3 c) p.c0
  let w1 := Word.xor w0 p.c1
  let w2 := Word.xor w1 p.c2
  let w3 := Word.xor w2 p.c3
  ⟨w0, w1, w2, w3⟩

/-- `ExpandKey(K)`, spec/41_key_scheduler.md R115: round key 0 is the key. -/
def expandKey (key : Block) : Schedule :=
  let k1 := nextRoundKey key (rcon 1)
  let k2 := nextRoundKey k1 (rcon 2)
  let k3 := nextRoundKey k2 (rcon 3)
  let k4 := nextRoundKey k3 (rcon 4)
  let k5 := nextRoundKey k4 (rcon 5)
  let k6 := nextRoundKey k5 (rcon 6)
  let k7 := nextRoundKey k6 (rcon 7)
  let k8 := nextRoundKey k7 (rcon 8)
  let k9 := nextRoundKey k8 (rcon 9)
  let k10 := nextRoundKey k9 (rcon 10)
  ⟨key, k1, k2, k3, k4, k5, k6, k7, k8, k9, k10⟩

/-- KEYEXPAND on its lane: `RK[i] <- ExpandKey(IN_KEY[i]) ; UPC[i] <- u + 1`, or the launch fault where a byte of
`IN_KEY[i]` holds no value (spec/41_key_scheduler.md R118; log 6). -/
def laneKeyexpand (l : Lane) : LaneOutcome :=
  match l.readKey with
  | none => .fault .unwrittenKey
  | some key => .next (l.writeRk (expandKey key)).advance

/-- KEYEXPAND, spec/41_key_scheduler.md R118. -/
def execKeyexpand (s : State) : StateOutcome := onLane laneKeyexpand s

end Sys2Proof.Machine
end

