-- ==== Sys2Proof/Machine/Pipeline.lean ====
section
/-! DEFINITION. The micro-operations that frame the rounds: VALIDATE, LOADPT, STORECT (spec/43_cipher_pipeline.md). -/

namespace Sys2Proof.Machine

/-- VALIDATE on its lane, spec/43_cipher_pipeline.md R150: on success only `UPC[i]` changes; a failure raises the errors. -/
def laneValidate (l : Lane) : LaneOutcome :=
  if lengthErrors l.inKlen l.inPlen = 0 then .next l.advance else .next (l.raise (lengthErrors l.inKlen l.inPlen))

/-- VALIDATE, spec/43_cipher_pipeline.md R150. -/
def execValidate (s : State) : StateOutcome := onLane laneValidate s

/-- LOADPT on its lane: `S[i] <- IN_PT[i] ; UPC[i] <- u + 1`, or the launch fault where a byte of `IN_PT[i]` holds no value
(spec/43_cipher_pipeline.md R152; log 6). -/
def laneLoadpt (l : Lane) : LaneOutcome :=
  match l.readPt with
  | none => .fault .unwrittenPlaintext
  | some pt => .next (l.writeS pt).advance

/-- LOADPT, spec/43_cipher_pipeline.md R152. -/
def execLoadpt (s : State) : StateOutcome := onLane laneLoadpt s

/-- STORECT on its lane: `OUT_CT[i] <- S[i] ; OUT_VALID[i] <- 1 ; UPC[i] <- 44`, the constant and not `u + 1`
(spec/43_cipher_pipeline.md R154, spec/90_conflicts.md C11). -/
def laneStorect (l : Lane) : LaneOutcome := .next ((l.writeOut l.readS).setUpc upcDone)

/-- STORECT, spec/43_cipher_pipeline.md R154. -/
def execStorect (s : State) : StateOutcome := onLane laneStorect s

end Sys2Proof.Machine
end

