-- ==== Sys2Proof/Machine/Galois.lean ====
section
/-! DEFINITION. Arithmetic on bytes: `xtime`, `mul2`, `mul3` (spec/42_round_transform.md R130, R131), and, for
cross-checking the S-box only, multiplication in GF(2^8) and the affine map of spec/40_substitution_table.md R104. -/

namespace Sys2Proof.Machine

/-- `POLY` of spec/00_scope.md R7. -/
def poly : Byte := 0x1b

/-- `xtime(x) = ((x << 1) & 0xff) ^ (0x1b if x[7] = 1 else 0x00)`, spec/42_round_transform.md R130. -/
def xtime (x : Byte) : Byte := (x <<< 1) ^^^ (if x.getLsbD 7 then poly else 0)

/-- `mul2`, spec/42_round_transform.md R131. -/
def mul2 (x : Byte) : Byte := xtime x

/-- `mul3`, spec/42_round_transform.md R131. -/
def mul3 (x : Byte) : Byte := xtime x ^^^ x

/-- `gmul` by the low `n` bits of `b`: repeated `xtime` and XOR (spec/40_substitution_table.md R104). -/
def gmulBits : Nat → Byte → Byte → Byte
  | 0, _, _ => 0
  | n + 1, a, b => (if b.getLsbD 0 then a else 0) ^^^ gmulBits n (xtime a) (b >>> 1)

/-- Multiplication in GF(2^8) modulo `x^8 + x^4 + x^3 + x + 1` (spec/40_substitution_table.md R104). -/
def gmul (a b : Byte) : Byte := gmulBits 8 a b

/-- `rotl8`, the 8-bit left rotation (spec/40_substitution_table.md R104). -/
def rotl8 (b : Byte) (n : Nat) : Byte := (b <<< n) ||| (b >>> (8 - n))

/-- The affine map `A` of spec/40_substitution_table.md R104. -/
def affine (b : Byte) : Byte := b ^^^ rotl8 b 1 ^^^ rotl8 b 2 ^^^ rotl8 b 3 ^^^ rotl8 b 4 ^^^ 0x63

end Sys2Proof.Machine
end

