-- ==== Sys2Proof/Machine/RoundTransform.lean ====
section
/-! DEFINITION. The RoundTransform micro-operations, spec/42_round_transform.md, each a pure function of
spec/43_cipher_pipeline.md R159 and a meaning that applies it once to the State of the executing lane. -/

namespace Sys2Proof.Machine

/-- `SubBytesF(X)[k] = SBOX_TABLE[X[k]]`, spec/43_cipher_pipeline.md R159. -/
def subBytesF (x : Block) : Block := x.map substitute

/-- `ShiftRowsF(X)[k] = X[(5k) mod 16]`, spec/43_cipher_pipeline.md R159, spec/42_round_transform.md R133. -/
def shiftRowsF (x : Block) : Block := .ofFn fun k => x.get ⟨5 * k.val % 16, by omega⟩

/-- `MixColumn(a0, a1, a2, a3)`, spec/42_round_transform.md R136: the matrix of R135. -/
def mixColumn (a : Word) : Word where
  b0 := mul2 a.b0 ^^^ mul3 a.b1 ^^^ a.b2 ^^^ a.b3
  b1 := a.b0 ^^^ mul2 a.b1 ^^^ mul3 a.b2 ^^^ a.b3
  b2 := a.b0 ^^^ a.b1 ^^^ mul2 a.b2 ^^^ mul3 a.b3
  b3 := mul3 a.b0 ^^^ a.b1 ^^^ a.b2 ^^^ mul2 a.b3

/-- `MixColumnsF`: each column alone (spec/43_cipher_pipeline.md R159). -/
def mixColumnsF (x : Block) : Block := ⟨mixColumn x.c0, mixColumn x.c1, mixColumn x.c2, mixColumn x.c3⟩

/-- `AddRoundKeyF(X, W, r)[k] = X[k] ^ W[16r + k]`, spec/43_cipher_pipeline.md R159. -/
def addRoundKeyF (x : Block) (w : Schedule) (r : Fin 11) : Block := Block.xor x (w.key r)

/-- `S[i] <- f(S[i]) ; UPC[i] <- u + 1`. -/
def Lane.transform (l : Lane) (f : Block → Block) : Lane := (l.writeS (f l.readS)).advance

/-- SUBBYTES, spec/42_round_transform.md R132. -/
def execSubbytes (s : State) : StateOutcome := onLane (fun l => .next (l.transform subBytesF)) s

/-- SHIFTROWS, spec/42_round_transform.md R133. -/
def execShiftrows (s : State) : StateOutcome := onLane (fun l => .next (l.transform shiftRowsF)) s

/-- MIXCOLUMNS, spec/42_round_transform.md R136. -/
def execMixcolumns (s : State) : StateOutcome := onLane (fun l => .next (l.transform mixColumnsF)) s

/-- ADDROUNDKEY on its lane; an index above 10 has no legal word and no meaning (spec/42_round_transform.md R138; log 17). -/
def laneAddroundkey (r : BitVec 4) (l : Lane) : LaneOutcome :=
  match roundKeyIndex r with
  | none => .refused (.roundKeyIndex r)
  | some j => .next (l.transform fun x => addRoundKeyF x l.readRk j)

/-- ADDROUNDKEY `r`, spec/42_round_transform.md R138. -/
def execAddroundkey (r : BitVec 4) (s : State) : StateOutcome := onLane (laneAddroundkey r) s

end Sys2Proof.Machine
end

