-- ==== Sys2Proof/Machine/Dispatch.lean ====
section
/-! DEFINITION. One arm per micro-operation, spec/43_cipher_pipeline.md R155: what the lane `s.cur` executes. -/

namespace Sys2Proof.Machine

def exec (i : Instr) (s : State) : Host.Outcome State Fault Refusal :=
  match i with
  | .validate => Sys2Proof.Machine.execValidate s
  | .keyexpand => Sys2Proof.Machine.execKeyexpand s
  | .loadpt => Sys2Proof.Machine.execLoadpt s
  | .addroundkey r => Sys2Proof.Machine.execAddroundkey r s
  | .subbytes => Sys2Proof.Machine.execSubbytes s
  | .shiftrows => Sys2Proof.Machine.execShiftrows s
  | .mixcolumns => Sys2Proof.Machine.execMixcolumns s
  | .storect => Sys2Proof.Machine.execStorect s

end Sys2Proof.Machine
end

