-- ==== Sys2Proof/Machine/Engine.lean ====
section
/-! DEFINITION. What a step is made of: the step of a lane (spec/43_cipher_pipeline.md R155), the engine's own move
(spec/44_batch_driver.md R185, R186) and the event at the head of the agenda (log 2, log 3, log 4). -/

namespace Sys2Proof.Machine

/-- A fetched word, decoded and executed; an illegal word is refused (spec/43_cipher_pipeline.md R155,
spec/30_encoding.md R84). -/
def runWord (w : Byte) (s : State) : StateOutcome :=
  match decode w with
  | .ok i => exec i s
  | .error _ => .refused (.illegalWord w)

/-- `LaneStep(i)`: enabled iff the lane has a word to fetch, with `CTRL_ROM` iff `UPC[i]` is 0 to 43; a lane without a step
changes nothing (spec/43_cipher_pipeline.md R155, spec/30_encoding.md R93; log 4). -/
def laneStep (i : Nat) (s : State) : StateOutcome :=
  match s.lanes[i]? with
  | none => .refused (.noSuchLane i)
  | some l =>
    match s.fetch l with
    | none => .next s
    | some w => runWord w { s with cur := i }

/-- `Complete`, where it is enabled; otherwise nothing (spec/44_batch_driver.md R186; log 4). -/
def completeStep (s : State) : StateOutcome := .next (if s.canComplete then s.completeBatch else s)

/-- The lanes that have a step, counted from `i`. -/
def runningFrom (c : ControlStore) : Nat → List Lane → List Nat
  | _, [] => []
  | i, l :: ls => if l.running c then i :: runningFrom c (i + 1) ls else runningFrom c (i + 1) ls

/-- The engine's own move. One lane with a step takes it; among several, a free value says which
(spec/93_implementation_defined.md U4; log 3). With none, the completion step, where it is enabled, and otherwise
"nothing changes until the host acts" (spec/44_batch_driver.md R196). -/
def engineMove (s : State) : StateOutcome :=
  match runningFrom s.ctrl 0 s.lanes with
  | [] => completeStep s
  | [i] => laneStep i s
  | i :: j :: rest =>
    laneStep ((i :: j :: rest).getD (Config.laneChoice s.choices % (rest.length + 2)) i)
      { s with choices := s.choices + 1 }

/-- One event. -/
def perform (e : Event) (s : State) : StateOutcome :=
  match e with
  | .host a => hostAct a s
  | .lane i => laneStep i s
  | .complete => completeStep s
  | .engine => engineMove s

/-- The event at the head of the agenda, taken off it, or the engine's own move where there is none. -/
def nextStep (s : State) : StateOutcome :=
  match s.agenda with
  | [] => engineMove s
  | e :: rest => perform e { s with agenda := rest }

/-- Lane 0 launched on its input slot: started at word 0, with the slot's 16 bytes taken as written (spec/70_reset_and_hazards.md
R232, R234), their values kept (log 8). -/
def Lane.launched (l : Lane) : Lane :=
  { l with inKeyWritten := .fill true, inPtWritten := .fill true, upc := upcStart, overrun := none }

/-- A word placed where the next step fetches it: word 0 of the control store, lane 0 launched and next on the agenda, and
the engine busy (log 8). -/
def State.placeWord (s : State) (w : Byte) : State :=
  { s with
    lanes := s.lanes.modifyHead Lane.launched
    busy := true
    done := false
    ctrl := s.ctrl.place w
    agenda := .lane 0 :: s.agenda }

end Sys2Proof.Machine
end

