-- ==== Sys2Proof/Machine/Step.lean ====
section
/-! DEFINITION. One step of the engine, a function of the whole state (Machine/Engine.lean says what it is made of). -/

namespace Sys2Proof.Machine

/-- One step: the next event of the agenda, or the engine's own move. -/
def step (s : State) : Host.Outcome State Fault Refusal := nextStep s

/-- The state with a word stored where the next step fetches it, and that step the launched lane's (log 8). -/
def State.withFetchWord (s : State) (nbits w : Nat) : State := s.placeWord (tableByte nbits w)

end Sys2Proof.Machine
end

