-- ==== Sys2Proof/Machine/Assembler.lean ====
section
/-! DEFINITION. The assembler syntax and the pseudo-operations of spec/30_encoding.md R90, R91. Text is a list of
characters; a line is one of a list of lines (log 18). The machine does not use it. -/

namespace Sys2Proof

/-- What may stand on a line: a micro-operation or a pseudo-operation. -/
inductive AsmOp where
  | op (i : Instr)
  | round (r : Nat)
  | finalround
  | encrypt
  deriving DecidableEq, Repr

/-- The four micro-operations of a full round (spec/30_encoding.md R91). -/
def roundOps (r : Nat) : List Instr := [.subbytes, .shiftrows, .mixcolumns, .addroundkey (BitVec.ofNat 4 r)]

/-- The three micro-operations of round 10 (spec/30_encoding.md R91). -/
def finalRoundOps : List Instr := [.subbytes, .shiftrows, .addroundkey 10]

/-- The micro-operations a line stands for (spec/30_encoding.md R91); nothing for ROUND outside 1 to 9, and nothing for
a micro-operation without a legal word. -/
def AsmOp.expand : AsmOp → Option (List Instr)
  | .op i => if i.wellFormed then some [i] else none
  | .round r => if 1 ≤ r ∧ r ≤ 9 then some (roundOps r) else none
  | .finalround => some finalRoundOps
  | .encrypt =>
    some ([.validate, .keyexpand, .loadpt, .addroundkey 0] ++ ([1, 2, 3, 4, 5, 6, 7, 8, 9].map roundOps).flatten ++
      finalRoundOps ++ [.storect])

/-- A mnemonic, in capitals (spec/30_encoding.md R90). -/
def Instr.mnemonic : Instr → List Char
  | .validate => ['V', 'A', 'L', 'I', 'D', 'A', 'T', 'E']
  | .keyexpand => ['K', 'E', 'Y', 'E', 'X', 'P', 'A', 'N', 'D']
  | .loadpt => ['L', 'O', 'A', 'D', 'P', 'T']
  | .addroundkey _ => ['A', 'D', 'D', 'R', 'O', 'U', 'N', 'D', 'K', 'E', 'Y']
  | .subbytes => ['S', 'U', 'B', 'B', 'Y', 'T', 'E', 'S']
  | .shiftrows => ['S', 'H', 'I', 'F', 'T', 'R', 'O', 'W', 'S']
  | .mixcolumns => ['M', 'I', 'X', 'C', 'O', 'L', 'U', 'M', 'N', 'S']
  | .storect => ['S', 'T', 'O', 'R', 'E', 'C', 'T']

/-- A decimal numeral. -/
def decimal (n : Nat) : List Char := Nat.toDigits 10 n

/-- The text of a line's operation: ADDROUNDKEY and ROUND are followed by one space and a decimal numeral
(spec/30_encoding.md R90, R91). -/
def AsmOp.text : AsmOp → List Char
  | .op (.addroundkey r) => Instr.mnemonic (.addroundkey r) ++ ' ' :: decimal r.toNat
  | .op i => i.mnemonic
  | .round r => ['R', 'O', 'U', 'N', 'D', ' '] ++ decimal r
  | .finalround => ['F', 'I', 'N', 'A', 'L', 'R', 'O', 'U', 'N', 'D']
  | .encrypt => ['E', 'N', 'C', 'R', 'Y', 'P', 'T']

/-- Every operation a line may hold. -/
def asmOps : List AsmOp :=
  [.op .validate, .op .keyexpand, .op .loadpt, .op .subbytes, .op .shiftrows, .op .mixcolumns, .op .storect] ++
  ((List.range 11).map fun r => .op (.addroundkey (BitVec.ofNat 4 r))) ++
  ([1, 2, 3, 4, 5, 6, 7, 8, 9].map .round) ++ [.finalround, .encrypt]

/-- The operation whose text this is. -/
def parseOp (l : List Char) : Option AsmOp := asmOps.find? fun o => decide (o.text = l)

/-- Anything from `;` on is a comment. -/
def dropComment (l : List Char) : List Char := l.takeWhile fun c => c != ';'

/-- The text without leading spaces. -/
def trimLeft (l : List Char) : List Char := l.dropWhile fun c => c == ' '

/-- The text without spaces at either end. -/
def trim (l : List Char) : List Char := trimLeft (trimLeft l.reverse).reverse

/-- The number of a decimal numeral. -/
def number (l : List Char) : Nat := l.foldl (fun n c => 10 * n + (c.toNat - '0'.toNat)) 0

/-- A leading control ROM index and colon, and what follows. -/
def splitIndex (l : List Char) : Option Nat × List Char :=
  match l.takeWhile Char.isDigit, l.dropWhile Char.isDigit with
  | d :: ds, ':' :: rest => (some (number (d :: ds)), trimLeft rest)
  | _, _ => (none, l)

/-- A parsed line: its index, if it has one, and its operation, if it has one. -/
structure AsmLine where
  index : Option Nat
  op : Option AsmOp
  deriving DecidableEq, Repr

/-- One line (spec/30_encoding.md R90): blank, a comment, or an operation that an index may stand before. -/
def parseLine (l : List Char) : Option AsmLine :=
  match splitIndex (trim (dropComment l)) with
  | (none, []) => some ⟨none, none⟩
  | (some _, []) => none
  | (ix, body) =>
    match parseOp body with
    | none => none
    | some o => some ⟨ix, some o⟩

/-- The words of the lines, placed from index `u` on. An index that a line gives must be the place of its word. -/
def assembleFrom (u : Nat) : List (List Char) → Option (List Byte)
  | [] => some []
  | l :: ls =>
    match parseLine l with
    | none => none
    | some ⟨_, none⟩ => assembleFrom u ls
    | some ⟨ix, some o⟩ =>
      match o.expand with
      | none => none
      | some ops =>
        if ix.getD u = u then
          match assembleFrom (u + ops.length) ls with
          | none => none
          | some ws => some (ops.map encode ++ ws)
        else none

/-- The words of a program text. -/
def assemble (lines : List (List Char)) : Option (List Byte) := assembleFrom 0 lines

end Sys2Proof
end

