-- ==== Sys2Proof/Machine/Cipher.lean ====
section
/-! DEFINITION. What a lane computes end to end, as one function: `Encrypt(K, P)` of spec/43_cipher_pipeline.md R160. The
machine does not call it; statements compare the machine with it. -/

namespace Sys2Proof.Machine

/-- One of the nine full rounds of spec/43_cipher_pipeline.md R160. -/
def fullRound (w : Schedule) (x : Block) (r : Fin 11) : Block :=
  addRoundKeyF (mixColumnsF (shiftRowsF (subBytesF x))) w r

/-- Round 10: "terminal, no MixColumns" (spec/43_cipher_pipeline.md R160). -/
def lastRound (w : Schedule) (x : Block) : Block := addRoundKeyF (shiftRowsF (subBytesF x)) w 10

/-- `Encrypt(K, P)`, spec/43_cipher_pipeline.md R160. -/
def encrypt (key pt : Block) : Block :=
  let w := expandKey key
  lastRound w (([1, 2, 3, 4, 5, 6, 7, 8, 9] : List (Fin 11)).foldl (fullRound w) (addRoundKeyF pt w 0))

/-- The State after `r` full rounds (spec/43_cipher_pipeline.md R160). -/
def afterRounds (w : Schedule) (pt : Block) : Nat → Block
  | 0 => addRoundKeyF pt w 0
  | r + 1 => if h : r + 1 < 11 then fullRound w (afterRounds w pt r) ⟨r + 1, h⟩ else afterRounds w pt r

/-- The State of a lane at place `u` of `CTRL_ROM`, 3 to 43 (spec/43_cipher_pipeline.md R158, R161): the plaintext at 3, and
inside round `r`, at `4r` to `4r + 3`, the State after the round's operations so far. -/
def stateAt (w : Schedule) (pt : Block) (u : Nat) : Block :=
  if u = 3 then pt
  else if u = 43 then lastRound w (afterRounds w pt 9)
  else
    let x := afterRounds w pt (u / 4 - 1)
    if u % 4 = 0 then x
    else if u % 4 = 1 then subBytesF x
    else if u % 4 = 2 then shiftRowsF (subBytesF x)
    else mixColumnsF (shiftRowsF (subBytesF x))

end Sys2Proof.Machine
end

