-- ==== Sys2Proof/Safety.lean ====
section
/-! DEFINITION. What a state that a run can reach looks like (`State.Inv`), what a host that keeps its obligations may do
while a batch runs (`Event.quiet`, spec/70_reset_and_hazards.md R233 to R235), and the words in which frames and batch
results are stated. -/

namespace Sys2Proof.Machine

/-- What holds of every lane between steps. -/
structure Lane.Ok (l : Lane) : Prop where
  /-- The lane is at no place past `CTRL_ROM` (spec/30_encoding.md R93; log 9). -/
  noOverrun : l.overrun = none
  /-- `UPC` is 0 to 44, 62 or 63 (spec/10_state.md R27). -/
  legalUpc : l.upc.toNat ≤ 44 ∨ l.upc = upcFaulted ∨ l.upc = upcIdle
  /-- `OUT_VALID` says that the lane is `Done` (spec/10_state.md R29). -/
  validIffDone : l.outValid = true ↔ l.upc = upcDone
  /-- An error flag says that the lane is `Faulted` (spec/60_exceptions.md R204, R210). -/
  errIffFaulted : l.err ≠ 0 ↔ l.upc = upcFaulted
  /-- A lane past VALIDATE has two lengths of 16 (spec/43_cipher_pipeline.md R150). -/
  lengths : 1 ≤ l.upc.toNat → l.upc.toNat ≤ 43 → l.inKlen = 16 ∧ l.inPlen = 16
  /-- A lane past KEYEXPAND has a schedule (spec/10_state.md R45). -/
  rkWritten : 2 ≤ l.upc.toNat → l.upc.toNat ≤ 44 → l.rkWritten = true
  /-- A lane past LOADPT has a State (spec/10_state.md R45). -/
  sWritten : 3 ≤ l.upc.toNat → l.upc.toNat ≤ 44 → l.sWritten = true
  /-- A valid output slot holds 16 bytes (spec/10_state.md R45). -/
  outWritten : l.outValid = true → l.outCtWritten = .fill true

/-- What holds of the hardware's state between steps: the control store is `CTRL_ROM`, `N` is within its bounds, every
lane is as `Lane.Ok` says, and the engine flags fit the lanes. -/
structure State.Inv (s : State) : Prop where
  /-- The hardware's control store (spec/30_encoding.md R88). -/
  store : s.ctrl = .rom
  /-- The bounds of `N` (spec/00_scope.md R6). -/
  laneCount : Config.minLanes ≤ s.lanes.length ∧ s.lanes.length ≤ Config.maxLanes
  /-- Every lane. -/
  lanes : ∀ l ∈ s.lanes, l.Ok
  /-- A lane has a step only while `BUSY = 1` (spec/44_batch_driver.md R185, R196). -/
  busyOfRunning : ∀ l ∈ s.lanes, l.running s.ctrl = true → s.busy = true
  /-- A busy engine is not done and shows no batch error (spec/44_batch_driver.md R184). -/
  busyNotDone : s.busy = true → s.done = false ∧ s.berr = false
  /-- A batch error comes with `DONE` and idle lanes (spec/60_exceptions.md R206). -/
  berrIdle : s.berr = true → s.done = true ∧ ∀ l ∈ s.lanes, l.upc = upcIdle

/-- The run of `n` steps. -/
abbrev runFor (n : Nat) (s : State) : StateOutcome := Host.Core.run Sys2Proof.core n s

/-- An event that keeps the host's obligations while a batch runs: no write, no START, no reset, and lane indices of the
instance (spec/70_reset_and_hazards.md R233, R235; spec/44_batch_driver.md R195). -/
def Event.quiet (n : Nat) : Event → Bool
  | .lane i => decide (i < n)
  | .complete => true
  | .engine => true
  | .host .readStatus => true
  | .host (.readLane i) => decide (i < n)
  | .host .readN => true
  | .host .readCount => true
  | .host (.loadPair _ _ _) => false
  | .host (.writeKeyLength _ _) => false
  | .host (.writeKeyByte _ _ _) => false
  | .host (.writeBlockLength _ _) => false
  | .host (.writeBlockByte _ _ _) => false
  | .host (.setCount _) => false
  | .host .start => false
  | .host .reset => false

/-- The registers and model fields outside the lanes are as before. -/
def State.SameEngine (s t : State) : Prop :=
  t.lanes.length = s.lanes.length ∧ t.count = s.count ∧ t.busy = s.busy ∧ t.done = s.done ∧ t.berr = s.berr ∧
    t.ctrl = s.ctrl ∧ t.agenda = s.agenda ∧ t.cur = s.cur ∧ t.choices = s.choices ∧ t.replies = s.replies

/-- Two states with the same engine registers and the same lanes; the model's bookkeeping may differ. -/
def State.SameHardware (s t : State) : Prop :=
  t.lanes = s.lanes ∧ t.count = s.count ∧ t.busy = s.busy ∧ t.done = s.done ∧ t.berr = s.berr ∧ t.ctrl = s.ctrl

/-- An input slot as `LoadPair(i, key, pt)` leaves it (spec/44_batch_driver.md R183): the lengths, and, where a length is
16, those 16 bytes. -/
def Lane.HoldsPair (l : Lane) (key pt : List Byte) : Prop :=
  l.inKlen = storedLength key.length ∧ l.inPlen = storedLength pt.length ∧
    (key.length = 16 → l.readKey = some (Block.ofBytes key)) ∧
    (pt.length = 16 → l.readPt = some (Block.ofBytes pt))

/-- The four registers of input slot `i` written one at a time (spec/44_batch_driver.md R183): the lengths, and the bytes
of each string that have an index below 16. -/
def slotWrites (i : Nat) (key pt : List Byte) : List HostAction :=
  .writeKeyLength i key.length ::
    ((List.finRange 16).filterMap fun k => (key[k.val]?).map fun v => HostAction.writeKeyByte i k v) ++
  .writeBlockLength i pt.length ::
    ((List.finRange 16).filterMap fun k => (pt[k.val]?).map fun v => HostAction.writeBlockByte i k v)

/-- The host has loaded pair `i` into slot `i`, for every pair, and set `COUNT` to their number, which is at most `N`
(spec/70_reset_and_hazards.md R232). -/
def State.Loaded (s : State) (pairs : List (List Byte × List Byte)) : Prop :=
  s.count.toNat = pairs.length ∧ pairs.length ≤ s.lanes.length ∧
    ∀ (i : Nat) (key pt : List Byte), pairs[i]? = some (key, pt) → ∃ l : Lane, s.lanes[i]? = some l ∧ l.HoldsPair key pt

/-- The output slot of a pair at `DONE = 1`, spec/44_batch_driver.md R188. -/
def Lane.HasResult (l : Lane) (key pt : List Byte) : Prop :=
  if key.length = 16 ∧ pt.length = 16 then
    l.outValid = true ∧ l.err = 0 ∧ l.outCt = encrypt (Block.ofBytes key) (Block.ofBytes pt)
  else
    l.outValid = false ∧ (l.err.getLsbD 0 = true ↔ key.length ≠ 16) ∧ (l.err.getLsbD 1 = true ↔ pt.length ≠ 16)

/-- A selected lane during the batch, between its steps (spec/43_cipher_pipeline.md R161; spec/44_batch_driver.md R188): its
slot holds its pair, and with two good lengths it is at a place of the sequence with what the micro-operations before that
place compute, otherwise it has not yet stepped or has stopped in `Faulted` with its errors. -/
def Lane.Runs (l : Lane) (key pt : List Byte) : Prop :=
  l.HoldsPair key pt ∧ l.overrun = none ∧
    if key.length = 16 ∧ pt.length = 16 then
      let w := expandKey (Block.ofBytes key)
      l.upc.toNat ≤ 44 ∧ l.err = 0 ∧ (l.outValid = true ↔ l.upc = upcDone) ∧
        (2 ≤ l.upc.toNat → l.rkWritten = true ∧ l.rk = w) ∧
        (3 ≤ l.upc.toNat → l.upc.toNat ≤ 43 → l.sWritten = true ∧ l.s = stateAt w (Block.ofBytes pt) l.upc.toNat) ∧
        (l.upc = upcDone → l.outCt = encrypt (Block.ofBytes key) (Block.ofBytes pt))
    else
      l.outValid = false ∧
        (l.upc = upcStart ∧ l.err = 0 ∨
         l.upc = upcFaulted ∧ (l.err.getLsbD 0 = true ↔ key.length ≠ 16) ∧ (l.err.getLsbD 1 = true ↔ pt.length ≠ 16))

/-- A lane that START did not select (spec/44_batch_driver.md R184). -/
def Lane.Unselected (l : Lane) : Prop := l.overrun = none ∧ l.upc = upcIdle ∧ l.outValid = false ∧ l.err = 0

/-- The batch invariant: what holds between the steps of a batch of these pairs, from its START until the host's next write
(spec/44_batch_driver.md R181, R188). -/
structure State.Batch (s : State) (pairs : List (List Byte × List Byte)) : Prop where
  /-- The hardware's control store. -/
  store : s.ctrl = .rom
  /-- Every pair has a lane (spec/44_batch_driver.md R182). -/
  fits : pairs.length ≤ s.lanes.length
  /-- There is no batch error. -/
  noError : s.berr = false
  /-- The batch runs, or is over with every lane settled (spec/44_batch_driver.md R186, R196). -/
  flags : (s.busy = true ∧ s.done = false) ∨ (s.busy = false ∧ s.done = true ∧ ∀ l ∈ s.lanes, l.settled = true)
  /-- Lane `i` works on pair `i` (spec/44_batch_driver.md R191). -/
  runs : ∀ (i : Nat) (key pt : List Byte), pairs[i]? = some (key, pt) → ∃ l : Lane, s.lanes[i]? = some l ∧ l.Runs key pt
  /-- The lanes above the pairs are as START left them. -/
  unselected : ∀ (i : Nat) (l : Lane), pairs.length ≤ i → s.lanes[i]? = some l → l.Unselected

/-- The result of a batch, spec/44_batch_driver.md R188. -/
def State.HasResults (s : State) (pairs : List (List Byte × List Byte)) : Prop :=
  s.berr = false ∧ s.busy = false ∧
    (∀ (i : Nat) (key pt : List Byte), pairs[i]? = some (key, pt) → ∃ l : Lane, s.lanes[i]? = some l ∧ l.HasResult key pt) ∧
    ∀ (i : Nat) (l : Lane), pairs.length ≤ i → s.lanes[i]? = some l → l.outValid = false ∧ l.err = 0

end Sys2Proof.Machine
end

