-- ==== Sys2Proof/Certificates/Slice0/Obligations.lean ====
section
/-! DEFINITION. The statements for the provers, from the numbered rules of spec/. `s.lanes[s.cur]? = some l` says that `l`
holds the registers of the lane that executes; `s.putLane s.cur l'` is `s` with that lane's registers replaced and nothing
else. A statement about a byte of `S` or `RK` that holds no value is about a free value, and holds whatever it is (log 7).
`overrun` is the model's own field for a control store longer than `CTRL_ROM` (log 9): on the hardware it is always `none`. -/

open Sys2Proof Sys2Proof.Machine

/-! ### Encoding -/

/-- Decoding and encoding agree in both directions (spec/30_encoding.md R85, derived there): a word decodes to `i` exactly
when `i` has a legal word and this is it. -/
def Obligations.DecodeInvertsEncode : Prop :=
  ∀ (w : Byte) (i : Instr), decode w = .ok i ↔ WellFormed i ∧ encode i = w

/-- Exactly 18 words are legal, and every other is rejected by the name of its kind (spec/30_encoding.md R83, R84, derived
there; the names of the three kinds are the model's). -/
def Obligations.LegalWordsAndKindsOfIllegal : Prop :=
  (∀ w : Byte, (∃ i, decode w = .ok i) ↔
    w ∈ ([0x10, 0x20, 0x30, 0x40, 0x41, 0x42, 0x43, 0x44, 0x45, 0x46, 0x47, 0x48, 0x49, 0x4a, 0x50, 0x60, 0x70, 0x80] :
      List Byte)) ∧
  (∀ w : Byte, opField w = 0 ∨ 9 ≤ (opField w).toNat → decode w = .error (.unassignedOp (opField w))) ∧
  (∀ w : Byte, opField w = 4 → 11 ≤ (rField w).toNat → decode w = .error (.roundKeyIndex (rField w))) ∧
  (∀ w : Byte, opField w ∈ ([1, 2, 3, 5, 6, 7, 8] : List (BitVec 4)) → rField w ≠ 0 →
    decode w = .error (.nonzeroField (opField w) (rField w)))

/-- Words written out from the table of spec/30_encoding.md R81 decode to their rows. -/
def Obligations.TableWordsDecodeToTheirRows : Prop :=
  decodeTableWord 8 0b00010000 = some .validate ∧ decodeTableWord 8 0b00100000 = some .keyexpand ∧
  decodeTableWord 8 0b00110000 = some .loadpt ∧ decodeTableWord 8 0b01000000 = some (.addroundkey 0) ∧
  decodeTableWord 8 0b01001010 = some (.addroundkey 10) ∧ decodeTableWord 8 0b01010000 = some .subbytes ∧
  decodeTableWord 8 0b01100000 = some .shiftrows ∧ decodeTableWord 8 0b01110000 = some .mixcolumns ∧
  decodeTableWord 8 0b10000000 = some .storect ∧ decodeTableWord 8 0b01001011 = none ∧
  decodeTableWord 8 0b00010001 = none ∧ decodeTableWord 8 0 = none

/-- The content of `CTRL_ROM`, spec/30_encoding.md R88: its length, its closed form, its hex string, and how many of each
micro-operation it holds. -/
def Obligations.ControlRomHoldsTheSequence : Prop :=
  ctrlRomTable.length = 44 ∧
  [0, 1, 2, 3].map ctrlRom = [some 0x10, some 0x20, some 0x30, some 0x40] ∧
  (∀ r : Nat, 1 ≤ r → r ≤ 9 →
    [4 * r, 4 * r + 1, 4 * r + 2, 4 * r + 3].map ctrlRom =
      [some 0x50, some 0x60, some 0x70, some (0x40 + BitVec.ofNat 8 r)]) ∧
  [40, 41, 42, 43].map ctrlRom = [some 0x50, some 0x60, some 0x4a, some 0x80] ∧
  ctrlRomTable.foldl (fun n b => 256 * n + b.toNat) 0 =
    0x1020304050607041506070425060704350607044506070455060704650607047506070485060704950604a80 ∧
  (ctrlRomTable.count 0x10 = 1 ∧ ctrlRomTable.count 0x20 = 1 ∧ ctrlRomTable.count 0x30 = 1 ∧
    ctrlRomTable.filter (fun b => opField b = 4) =
      [0x40, 0x41, 0x42, 0x43, 0x44, 0x45, 0x46, 0x47, 0x48, 0x49, 0x4a] ∧
    ctrlRomTable.count 0x50 = 10 ∧ ctrlRomTable.count 0x60 = 10 ∧ ctrlRomTable.count 0x70 = 9 ∧
    ctrlRomTable.count 0x80 = 1)

/-- The pseudo-operations of spec/30_encoding.md R91: each a fixed expansion, ROUND only for 1 to 9, and ENCRYPT the whole
of `CTRL_ROM`. -/
def Obligations.PseudoOperationsExpandAsWritten : Prop :=
  (∀ r : Nat, 1 ≤ r → r ≤ 9 →
    AsmOp.expand (.round r) = some [.subbytes, .shiftrows, .mixcolumns, .addroundkey (BitVec.ofNat 4 r)]) ∧
  (∀ r : Nat, r = 0 ∨ 9 < r → AsmOp.expand (.round r) = none) ∧
  AsmOp.expand .finalround = some [.subbytes, .shiftrows, .addroundkey 10] ∧
  AsmOp.expand .encrypt =
    some ([.validate, .keyexpand, .loadpt, .addroundkey 0] ++
      ([1, 2, 3, 4, 5, 6, 7, 8, 9].map fun r => (AsmOp.expand (.round r)).getD []).flatten ++
      (AsmOp.expand .finalround).getD [] ++ [.storect]) ∧
  (AsmOp.expand .encrypt).map (List.map encode) = some ctrlRomTable

/-- Every operation's text reads back, alone, and with an index before it and a comment behind it (spec/30_encoding.md R90;
the treatment of spaces is the model's, log 18). -/
def Obligations.AssemblerTextReadsBack : Prop :=
  ∀ o ∈ asmOps,
    parseLine o.text = some ⟨none, some o⟩ ∧
    ∀ u < 44, parseLine (decimal u ++ ':' :: ' ' :: (o.text ++ [' ', ' ', ';', ' ', 'x'])) = some ⟨some u, some o⟩

/-! ### The step -/

/-- A step runs the decoded micro-operation (spec/43_cipher_pipeline.md R155). Around it this model takes the schedule's
entry off the agenda and notes the lane that executes (log 3); with nothing on the agenda, the one lane that has a step
takes it. The fetch from the hardware's control store is `CTRL_ROM[UPC]`. -/
def Obligations.LaneStepRunsTheDecodedWord : Prop :=
  (∀ (s : State) (i : Nat) (rest : List Event) (l : Lane) (w : Byte) (ins : Instr),
    s.lanes[i]? = some l → s.fetch l = some w → decode w = .ok ins →
    (s.agenda = .lane i :: rest → step s = exec ins { s with agenda := rest, cur := i }) ∧
    (s.agenda = [] → (∀ (j : Nat) (m : Lane), s.lanes[j]? = some m → (s.fetch m).isSome = true → j = i) →
      step s = exec ins { s with cur := i })) ∧
  ∀ (s : State) (l : Lane), s.ctrl = .rom → l.overrun = none → s.fetch l = ctrlRom l.upc.toNat

/-- A lane with no word to fetch has no step; with `CTRL_ROM` that is one whose `UPC` is 44 or above
(spec/43_cipher_pipeline.md R155). A schedule entry that names one is passed over (the model's choice, log 4). -/
def Obligations.LaneWithoutStepChangesNothing : Prop :=
  (∀ (s : State) (i : Nat) (rest : List Event) (l : Lane),
    s.agenda = .lane i :: rest → s.lanes[i]? = some l → s.fetch l = none → step s = .next { s with agenda := rest }) ∧
  ∀ (s : State) (l : Lane), s.ctrl = .rom → l.overrun = none → (s.fetch l = none ↔ 44 ≤ l.upc.toNat)

/-- A lane that fetches an illegal word is refused, with no step (spec/30_encoding.md R84). -/
def Obligations.IllegalWordIsRefused : Prop :=
  ∀ (s : State) (i : Nat) (rest : List Event) (l : Lane) (w : Byte) (e : DecodeError),
    s.agenda = .lane i :: rest → s.lanes[i]? = some l → s.fetch l = some w → decode w = .error e →
    step s = .refused (.illegalWord w)

/-- Where no lane has a step and the completion step is not enabled, nothing changes until the host acts
(spec/44_batch_driver.md R196; the standing step is the model's, log 4). -/
def Obligations.QuietEngineStandsStill : Prop :=
  ∀ s : State, s.agenda = [] → (∀ l ∈ s.lanes, s.fetch l = none) →
    (s.busy = false ∨ ∃ l ∈ s.lanes, l.overrun ≠ none ∨ l.upc ≠ 44 ∧ l.upc ≠ 62 ∧ l.upc ≠ 63) → step s = .next s

/-- While a lane has a step, the engine's own move is the step of a lane that has one; which, no statement says
(spec/44_batch_driver.md R185; log 3). -/
def Obligations.EngineMoveStepsSomeRunningLane : Prop :=
  ∀ s : State, s.agenda = [] → (∃ l ∈ s.lanes, (s.fetch l).isSome = true) →
    ∃ (i : Nat) (l : Lane) (c : Nat), s.lanes[i]? = some l ∧ (s.fetch l).isSome = true ∧
      step s = laneStep i { s with choices := c }

/-! ### Arithmetic and tables -/

/-- `xtime`, spec/42_round_transform.md R130: the formula on integers, truncated before or after the XOR, the corner cases and
the worked example. That it is the product by `x` modulo the polynomial 0x11b (the third clause) is the spec's own inference
("derived: from the formula" in R130). -/
def Obligations.XtimeDoublesModuloThePolynomial : Prop :=
  (∀ x : Byte, (xtime x).toNat = (2 * x.toNat % 256) ^^^ (if x.toNat < 128 then 0 else 0x1b)) ∧
  (∀ x : Byte, (xtime x).toNat = (2 * x.toNat ^^^ (if x.toNat < 128 then 0 else 0x1b)) % 256) ∧
  (∀ x : Byte, (xtime x).toNat = if 2 * x.toNat < 256 then 2 * x.toNat else 2 * x.toNat ^^^ 0x11b) ∧
  xtime 0x00 = 0x00 ∧ xtime 0x7f = 0xfe ∧ xtime 0x80 = 0x1b ∧ xtime 0xff = 0xe5 ∧
  xtime 0x57 = 0xae ∧ xtime 0xae = 0x47 ∧ xtime 0x47 = 0x8e ∧ xtime 0x8e = 0x07

/-- MixColumn in the form with four `xtime` is the same function (spec/42_round_transform.md R137, derived there). -/
def Obligations.MixColumnTwoFormsAgree : Prop :=
  ∀ a : Word,
    let t := a.b0 ^^^ a.b1 ^^^ a.b2 ^^^ a.b3
    mixColumn a =
      ⟨a.b0 ^^^ t ^^^ xtime (a.b0 ^^^ a.b1), a.b1 ^^^ t ^^^ xtime (a.b1 ^^^ a.b2),
       a.b2 ^^^ t ^^^ xtime (a.b2 ^^^ a.b3), a.b3 ^^^ t ^^^ xtime (a.b3 ^^^ a.b0)⟩

/-- The S-box is the affine map of the inverse in GF(2^8) (spec/40_substitution_table.md R104, general knowledge there),
a bijection, without a fixed point and without a complemented one (R105, derived there). -/
def Obligations.SboxIsTheAlgebraicBijection : Prop :=
  substitute 0 = affine 0 ∧
  (∀ n : Byte, n ≠ 0 → ∃ m : Byte, gmul n m = 1 ∧ substitute n = affine m) ∧
  (∀ a b : Byte, substitute a = substitute b → a = b) ∧
  (∀ n : Byte, substitute n ≠ n ∧ substitute n ≠ n ^^^ 0xff)

/-- The round constants begin with 1 and double by `xtime` (spec/41_key_scheduler.md R110, derived there). -/
def Obligations.RoundConstantsDouble : Prop :=
  rcon 1 = 1 ∧ ∀ j : Nat, ∀ h1 : 1 ≤ j, ∀ h9 : j ≤ 9, rcon ⟨j + 1, by omega⟩ = xtime (rcon ⟨j, by omega⟩)

/-! ### The KeyScheduler -/

/-- RotWord, SubWord, G and the loop of the key expansion, spec/41_key_scheduler.md R112 to R115: the first four words are
the key's, and every later word is the previous one, transformed at every fourth, XOR the word four back. -/
def Obligations.ExpandKeyFollowsTheLoop : Prop :=
  (∀ t : Word, rotWord t = ⟨t.b1, t.b2, t.b3, t.b0⟩) ∧
  (∀ t : Word, subWord t = ⟨substitute t.b0, substitute t.b1, substitute t.b2, substitute t.b3⟩) ∧
  (∀ (t : Word) (c : Byte), gWord t c =
    ⟨(subWord (rotWord t)).b0 ^^^ c, (subWord (rotWord t)).b1, (subWord (rotWord t)).b2, (subWord (rotWord t)).b3⟩) ∧
  ∀ key : Block,
    (∀ j : Fin 4, (expandKey key).word ⟨j.val, by omega⟩ = key.col j) ∧
    ∀ j : Nat, ∀ h4 : 4 ≤ j, ∀ h : j < 44,
      (expandKey key).word ⟨j, h⟩ =
        Word.xor
          (if j % 4 = 0 then gWord ((expandKey key).word ⟨j - 1, by omega⟩) (rcon ⟨j / 4, by omega⟩)
           else (expandKey key).word ⟨j - 1, by omega⟩)
          ((expandKey key).word ⟨j - 4, by omega⟩)

/-- The same expansion byte by byte (spec/41_key_scheduler.md R116, derived there). -/
def Obligations.ExpandKeyByteByByte : Prop :=
  ∀ (key : Block) (j : Nat) (_h4 : 4 ≤ j) (_h : j < 44),
    let w : Fin 176 → Byte := (expandKey key).byte
    (j % 4 ≠ 0 → ∀ b : Fin 4,
      w ⟨4 * j + b.val, by omega⟩ = w ⟨4 * (j - 1) + b.val, by omega⟩ ^^^ w ⟨4 * (j - 4) + b.val, by omega⟩) ∧
    (j % 4 = 0 →
      w ⟨4 * j, by omega⟩ =
        substitute (w ⟨4 * (j - 1) + 1, by omega⟩) ^^^ rcon ⟨j / 4, by omega⟩ ^^^ w ⟨4 * (j - 4), by omega⟩ ∧
      w ⟨4 * j + 1, by omega⟩ = substitute (w ⟨4 * (j - 1) + 2, by omega⟩) ^^^ w ⟨4 * (j - 4) + 1, by omega⟩ ∧
      w ⟨4 * j + 2, by omega⟩ = substitute (w ⟨4 * (j - 1) + 3, by omega⟩) ^^^ w ⟨4 * (j - 4) + 2, by omega⟩ ∧
      w ⟨4 * j + 3, by omega⟩ = substitute (w ⟨4 * (j - 1), by omega⟩) ^^^ w ⟨4 * (j - 4) + 3, by omega⟩)

/-- The key-schedule prefix invariant, spec/41_key_scheduler.md R117: the first 16 bytes of the schedule are the key, and
round key 0 is the key. -/
def Obligations.ExpandedKeyBeginsWithTheKey : Prop :=
  ∀ key : Block, (∀ k : Fin 16, (expandKey key).byte ⟨k.val, by omega⟩ = key.get k) ∧ (expandKey key).key 0 = key

/-! ### The micro-operations: completion and result -/

/-- VALIDATE, spec/43_cipher_pipeline.md R150: with both lengths 16 the lane goes on and nothing else changes; otherwise the
errors are recorded, both when both lengths are wrong, the lane is Faulted, and nothing else changes. How `overrun` goes
along with `UPC` is the model's choice (log 9). -/
def Obligations.ValidateChecksBothLengths : Prop :=
  (∀ (s : State) (l : Lane), s.lanes[s.cur]? = some l →
    (l.inKlen = 16 → l.inPlen = 16 →
      exec .validate s = .next (s.putLane s.cur { l with upc := l.upc + 1, overrun := l.nextOverrun })) ∧
    (l.inKlen ≠ 16 → l.inPlen = 16 →
      exec .validate s = .next (s.putLane s.cur { l with err := 1, upc := 62, overrun := none })) ∧
    (l.inKlen = 16 → l.inPlen ≠ 16 →
      exec .validate s = .next (s.putLane s.cur { l with err := 2, upc := 62, overrun := none })) ∧
    (l.inKlen ≠ 16 → l.inPlen ≠ 16 →
      exec .validate s = .next (s.putLane s.cur { l with err := 3, upc := 62, overrun := none }))) ∧
  (∀ (s : State) (p : Nat), s.lanes[s.cur]? = some (Lane.reset p) →
    exec .validate s = .next (s.putLane s.cur { Lane.reset p with err := 3, upc := 62 })) ∧
  encode .validate = 0x10 ∧ ∀ u : Nat, ctrlRom u = some 0x10 ↔ u = 0

/-- KEYEXPAND, spec/41_key_scheduler.md R118: with each byte of the key written, all 176 bytes of the schedule are the
expanded key, the lane goes on and nothing else changes; with a byte that holds no value, the launch fault. A lane is there
only with a key length of 16. The worked example and the schedule of the all-zero key are the rule's. -/
def Obligations.KeyexpandWritesTheSchedule : Prop :=
  (∀ (s : State) (l : Lane), s.lanes[s.cur]? = some l → (∀ k, l.inKeyWritten.get k = true) →
    exec .keyexpand s =
      .next (s.putLane s.cur { l with rk := expandKey l.inKey, rkWritten := true, upc := l.upc + 1,
                                      overrun := l.nextOverrun })) ∧
  (∀ (s : State) (l : Lane), s.lanes[s.cur]? = some l → (∃ k, l.inKeyWritten.get k = false) →
    exec .keyexpand s = .fault .unwrittenKey) ∧
  (∀ (s : State) (l : Lane), s.Inv → l ∈ s.lanes → l.upc = 1 → l.inKlen = 16) ∧
  encode .keyexpand = 0x20 ∧ (∀ u : Nat, ctrlRom u = some 0x20 ↔ u = 1) ∧
  (let key := Block.unpack 0x000102030405060708090a0b0c0d0e0f
   (expandKey key).word 3 = ⟨0x0c, 0x0d, 0x0e, 0x0f⟩ ∧ rotWord ⟨0x0c, 0x0d, 0x0e, 0x0f⟩ = ⟨0x0d, 0x0e, 0x0f, 0x0c⟩ ∧
   subWord ⟨0x0d, 0x0e, 0x0f, 0x0c⟩ = ⟨0xd7, 0xab, 0x76, 0xfe⟩ ∧
   gWord ⟨0x0c, 0x0d, 0x0e, 0x0f⟩ (rcon 1) = ⟨0xd6, 0xab, 0x76, 0xfe⟩ ∧
   (expandKey key).key 1 = Block.unpack 0xd6aa74fdd2af72fadaa678f1d6ab76fe ∧
   (expandKey key).key 10 = Block.unpack 0x13111d7fe3944a17f307a78b4d2b30c5) ∧
  (expandKey (.fill 0)).key 1 = Block.unpack 0x62636363626363636263636362636363 ∧
  (expandKey (.fill 0)).key 10 = Block.unpack 0xb4ef5bcb3e92e21123e951cf6f8f188e

/-- LOADPT, spec/43_cipher_pipeline.md R152: with each byte of the plaintext written, byte `k` goes to `S[k]`, the lane goes
on (from word 2, to the document's Initialized) and nothing else changes; with a byte that holds no value, the launch
fault. How `overrun` goes along with `UPC` is the model's choice (log 9). -/
def Obligations.LoadptLoadsThePlaintext : Prop :=
  (∀ (s : State) (l : Lane), s.lanes[s.cur]? = some l → (∀ k, l.inPtWritten.get k = true) →
    exec .loadpt s =
      .next (s.putLane s.cur { l with s := l.inPt, sWritten := true, upc := l.upc + 1,
                                      overrun := l.nextOverrun })) ∧
  (∀ (s : State) (l : Lane), s.lanes[s.cur]? = some l → (∃ k, l.inPtWritten.get k = false) →
    exec .loadpt s = .fault .unwrittenPlaintext) ∧
  encode .loadpt = 0x30 ∧ (∀ u : Nat, ctrlRom u = some 0x30 ↔ u = 2) ∧ phase (2 + 1) = some .initialized ∧
  (∀ (x : Block) (k : Fin 16), x.get k = x.at ⟨k.val % 4, by omega⟩ ⟨k.val / 4, by omega⟩) ∧
  (let x := Block.unpack 0x00112233445566778899aabbccddeeff
   [x.at 0 0, x.at 0 1, x.at 0 2, x.at 0 3] = [0x00, 0x44, 0x88, 0xcc] ∧ x.col 0 = ⟨0x00, 0x11, 0x22, 0x33⟩)

/-- SUBBYTES, spec/42_round_transform.md R132: each byte of the State through the table, the lane goes on, nothing else
changes. That it completes also where `S` holds no value, on free bytes, is the model's choice (log 7). -/
def Obligations.SubbytesSubstitutesEveryByte : Prop :=
  (∀ (s : State) (l : Lane), s.lanes[s.cur]? = some l →
    ∃ l' : Lane, exec .subbytes s = .next (s.putLane s.cur l') ∧
      l' = { l with s := l'.s, sWritten := true, upc := l.upc + 1, overrun := l.nextOverrun } ∧
      ∀ k, l'.s.get k = substitute (l.readS.get k)) ∧
  encode .subbytes = 0x50 ∧ (∀ u : Nat, ctrlRom u = some 0x50 ↔ ∃ r, 1 ≤ r ∧ r ≤ 10 ∧ u = 4 * r) ∧
  subBytesF (.fill 0) = .fill 0x63 ∧
  subBytesF (Block.unpack 0x00102030405060708090a0b0c0d0e0f0) = Block.unpack 0x63cab7040953d051cd60e0e7ba70e18c

/-- SHIFTROWS, spec/42_round_transform.md R133: row `r` rotated left by `r` (as columns and as the permutation of flat
indices), the lane goes on, nothing else changes; the corner cases and worked examples. That it completes also where `S` holds
no value, on free bytes, is the model's choice (log 7). -/
def Obligations.ShiftrowsRotatesTheRows : Prop :=
  (∀ (s : State) (l : Lane), s.lanes[s.cur]? = some l →
    ∃ l' : Lane, exec .shiftrows s = .next (s.putLane s.cur l') ∧
      l' = { l with s := l'.s, sWritten := true, upc := l.upc + 1, overrun := l.nextOverrun } ∧
      (∀ r c : Fin 4, l'.s.at r c = l.readS.at r (c + r)) ∧
      ∀ k : Fin 16, l'.s.get k = l.readS.get ⟨5 * k.val % 16, by omega⟩) ∧
  encode .shiftrows = 0x60 ∧ (∀ u : Nat, ctrlRom u = some 0x60 ↔ ∃ r, 1 ≤ r ∧ r ≤ 10 ∧ u = 4 * r + 1) ∧
  (∀ k : Fin 16, k.val % 4 + 4 * ((k.val / 4 + k.val % 4) % 4) = 5 * k.val % 16) ∧
  (∀ (x : Block) (c : Fin 4), (shiftRowsF x).at 0 c = x.at 0 c ∧ (shiftRowsF x).at 2 c = x.at 2 (c - 2)) ∧
  (∀ x : Block, shiftRowsF (shiftRowsF (shiftRowsF (shiftRowsF x))) = x) ∧
  (∀ b : Byte, shiftRowsF (.fill b) = .fill b) ∧
  shiftRowsF (Block.unpack 0x000102030405060708090a0b0c0d0e0f) = Block.unpack 0x00050a0f04090e03080d02070c01060b ∧
  shiftRowsF (Block.unpack 0x63cab7040953d051cd60e0e7ba70e18c) = Block.unpack 0x6353e08c0960e104cd70b751bacad0e7

/-- MIXCOLUMNS, spec/42_round_transform.md R136: each column times the matrix, the lane goes on, nothing else changes; the
places in the control ROM, the corner cases and worked examples. That it completes also where `S` holds no value, on free
bytes, is the model's choice (log 7). -/
def Obligations.MixcolumnsMultipliesEachColumn : Prop :=
  (∀ (s : State) (l : Lane), s.lanes[s.cur]? = some l →
    ∃ l' : Lane, exec .mixcolumns s = .next (s.putLane s.cur l') ∧
      l' = { l with s := l'.s, sWritten := true, upc := l.upc + 1, overrun := l.nextOverrun } ∧
      ∀ c : Fin 4,
        let a := fun r : Fin 4 => l.readS.get ⟨4 * c.val + r.val, by omega⟩
        l'.s.get ⟨4 * c.val, by omega⟩ = mul2 (a 0) ^^^ mul3 (a 1) ^^^ a 2 ^^^ a 3 ∧
        l'.s.get ⟨4 * c.val + 1, by omega⟩ = a 0 ^^^ mul2 (a 1) ^^^ mul3 (a 2) ^^^ a 3 ∧
        l'.s.get ⟨4 * c.val + 2, by omega⟩ = a 0 ^^^ a 1 ^^^ mul2 (a 2) ^^^ mul3 (a 3) ∧
        l'.s.get ⟨4 * c.val + 3, by omega⟩ = mul3 (a 0) ^^^ a 1 ^^^ a 2 ^^^ mul2 (a 3)) ∧
  encode .mixcolumns = 0x70 ∧ (∀ u : Nat, ctrlRom u = some 0x70 ↔ ∃ r, 1 ≤ r ∧ r ≤ 9 ∧ u = 4 * r + 2) ∧
  (∀ b : Byte, mixColumn (.fill b) = .fill b) ∧
  (∀ a b : Word, mixColumn (Word.xor a b) = Word.xor (mixColumn a) (mixColumn b)) ∧
  mixColumn ⟨0x01, 0x00, 0x00, 0x00⟩ = ⟨0x02, 0x01, 0x01, 0x03⟩ ∧
  mixColumn ⟨0x00, 0x01, 0x00, 0x00⟩ = ⟨0x03, 0x02, 0x01, 0x01⟩ ∧
  mixColumn ⟨0x00, 0x00, 0x01, 0x00⟩ = ⟨0x01, 0x03, 0x02, 0x01⟩ ∧
  mixColumn ⟨0x00, 0x00, 0x00, 0x01⟩ = ⟨0x01, 0x01, 0x03, 0x02⟩ ∧
  mixColumn ⟨0x80, 0x00, 0x00, 0x00⟩ = ⟨0x1b, 0x80, 0x80, 0x9b⟩ ∧
  mixColumn ⟨0xdb, 0x13, 0x53, 0x45⟩ = ⟨0x8e, 0x4d, 0xa1, 0xbc⟩ ∧
  mixColumn ⟨0x63, 0x53, 0xe0, 0x8c⟩ = ⟨0x5f, 0x72, 0x64, 0x15⟩ ∧
  mixColumnsF (Block.unpack 0x6353e08c0960e104cd70b751bacad0e7) = Block.unpack 0x5f72641557f5bc92f7be3b291db9f91a

/-- ADDROUNDKEY `r`, spec/42_round_transform.md R138: byte `k` of the State XOR byte `16r + k` of the schedule (row `b`,
column `c` meets byte `b` of word `4r + c`), the lane goes on, nothing else changes; no legal word has `r` above 10, and given
to exec without the decoder such an index is refused (the model's refusal, log 17); the places in the control ROM, the corner
cases and the worked example. That it completes also where `S` or `RK` holds no value, on free bytes, is the model's choice
(log 7). -/
def Obligations.AddroundkeyXorsARoundKey : Prop :=
  (∀ (s : State) (l : Lane) (r : BitVec 4) (_h : r.toNat ≤ 10), s.lanes[s.cur]? = some l →
    ∃ l' : Lane, exec (.addroundkey r) s = .next (s.putLane s.cur l') ∧
      l' = { l with s := l'.s, sWritten := true, upc := l.upc + 1, overrun := l.nextOverrun } ∧
      ∀ k : Fin 16, l'.s.get k = l.readS.get k ^^^ l.readRk.byte ⟨16 * r.toNat + k.val, by omega⟩) ∧
  (∀ (w : Schedule) (r : Fin 11) (b c : Fin 4),
    w.byte ⟨16 * r.val + (b.val + 4 * c.val), by omega⟩ = (w.word ⟨4 * r.val + c.val, by omega⟩).get b) ∧
  (∀ (s : State) (l : Lane) (r : BitVec 4), 10 < r.toNat → s.lanes[s.cur]? = some l →
    exec (.addroundkey r) s = .refused (.roundKeyIndex r)) ∧
  (∀ (w : Byte) (r : BitVec 4), decode w = .ok (.addroundkey r) → r.toNat ≤ 10 ∧ w = 0x40 + r.setWidth 8) ∧
  ctrlRom 3 = some 0x40 ∧ (∀ r : Nat, 1 ≤ r → r ≤ 9 → ctrlRom (4 * r + 3) = some (0x40 + BitVec.ofNat 8 r)) ∧
  ctrlRom 42 = some 0x4a ∧
  (∀ x key : Block, addRoundKeyF x (expandKey key) 0 = Block.xor x key) ∧
  (∀ (x : Block) (w : Schedule) (r : Fin 11), addRoundKeyF (addRoundKeyF x w r) w r = x) ∧
  (∀ (x : Block) (w : Schedule) (r : Fin 11), w.key r = .fill 0 → addRoundKeyF x w r = x) ∧
  addRoundKeyF (Block.unpack 0x00112233445566778899aabbccddeeff)
      (expandKey (Block.unpack 0x000102030405060708090a0b0c0d0e0f)) 0 =
    Block.unpack 0x00102030405060708090a0b0c0d0e0f0

/-- STORECT, spec/43_cipher_pipeline.md R154: the State goes to the output slot, the slot is valid, the lane is `Done`
(44, whatever `UPC` was), nothing else changes; no other micro-operation writes an output slot, and a lane that is `Done` has
no step. That STORECT completes also where `S` holds no value, with free bytes as the ciphertext, is the model's choice
(log 7), and so is the form of having no step, a step that changes nothing (log 4). -/
def Obligations.StorectDeliversTheCiphertext : Prop :=
  (∀ (s : State) (l : Lane), s.lanes[s.cur]? = some l →
    exec .storect s =
      .next (s.putLane s.cur { l with outCt := l.readS, outCtWritten := .fill true, outValid := true, upc := 44,
                                      overrun := none })) ∧
  encode .storect = 0x80 ∧ (∀ u : Nat, ctrlRom u = some 0x80 ↔ u = 43) ∧ (43 : BitVec 6) + 1 = 44 ∧
  (∀ (i : Instr) (s t : State), exec i s = .next t → i ≠ .storect → ∀ (j : Nat) (l l' : Lane),
    s.lanes[j]? = some l → t.lanes[j]? = some l' →
    l'.outCt = l.outCt ∧ l'.outCtWritten = l.outCtWritten ∧ l'.outValid = l.outValid) ∧
  (∀ (s : State) (i : Nat) (l : Lane), s.lanes[i]? = some l → l.upc = 44 → l.overrun = none → laneStep i s = .next s)

/-! ### The micro-operations: frames -/

/-- The frame of the micro-operations that write the State (spec/10_state.md R25, R41; spec/20_memory.md R63): besides `S`
and `UPC` of the executing lane, every register, every flag, every lane and every byte of memory is unchanged. -/
def Obligations.StateWritersFrame : Prop :=
  ∀ (i : Instr) (s t : State),
    (i = .loadpt ∨ (∃ r, i = .addroundkey r) ∨ i = .subbytes ∨ i = .shiftrows ∨ i = .mixcolumns) →
    exec i s = .next t →
    s.SameEngine t ∧ (∀ j : Nat, j ≠ s.cur → t.lanes[j]? = s.lanes[j]?) ∧
    (∀ l l' : Lane, s.lanes[s.cur]? = some l → t.lanes[s.cur]? = some l' →
      l' = { l with s := l'.s, sWritten := l'.sWritten, upc := l'.upc, overrun := l'.overrun }) ∧
    (∀ (sp : Space) (j k : Nat), ¬ (sp = .state ∧ j = s.cur) → memRead t sp j k = memRead s sp j k)

/-- The frame of KEYEXPAND (spec/10_state.md R26, R41): besides `RK` and `UPC` of the executing lane, every register, every
flag, every lane and every byte of memory is unchanged. -/
def Obligations.KeyexpandFrame : Prop :=
  ∀ s t : State, exec .keyexpand s = .next t →
    s.SameEngine t ∧ (∀ j : Nat, j ≠ s.cur → t.lanes[j]? = s.lanes[j]?) ∧
    (∀ l l' : Lane, s.lanes[s.cur]? = some l → t.lanes[s.cur]? = some l' →
      l' = { l with rk := l'.rk, rkWritten := l'.rkWritten, upc := l'.upc, overrun := l'.overrun }) ∧
    (∀ (sp : Space) (j k : Nat), ¬ (sp = .rk ∧ j = s.cur) → memRead t sp j k = memRead s sp j k)

/-- The frame of VALIDATE (spec/10_state.md R30, R41): besides `ERR` and `UPC` of the executing lane, every register, every
flag, every lane and every byte of memory is unchanged, but for the view `LSTAT` that shows `ERR`. -/
def Obligations.ValidateFrame : Prop :=
  ∀ s t : State, exec .validate s = .next t →
    s.SameEngine t ∧ (∀ j : Nat, j ≠ s.cur → t.lanes[j]? = s.lanes[j]?) ∧
    (∀ l l' : Lane, s.lanes[s.cur]? = some l → t.lanes[s.cur]? = some l' →
      l' = { l with err := l'.err, upc := l'.upc, overrun := l'.overrun }) ∧
    (∀ (sp : Space) (j k : Nat), ¬ (sp = .lstat ∧ j = s.cur) → memRead t sp j k = memRead s sp j k)

/-- The frame of STORECT (spec/10_state.md R28, R29, R41): besides `OUT_CT`, `OUT_VALID` and `UPC` of the executing lane,
every register, every flag, every lane and every byte of memory is unchanged, but for the view `LSTAT` that shows
`OUT_VALID`. -/
def Obligations.StorectFrame : Prop :=
  ∀ s t : State, exec .storect s = .next t →
    s.SameEngine t ∧ (∀ j : Nat, j ≠ s.cur → t.lanes[j]? = s.lanes[j]?) ∧
    (∀ l l' : Lane, s.lanes[s.cur]? = some l → t.lanes[s.cur]? = some l' →
      l' = { l with outCt := l'.outCt, outCtWritten := l'.outCtWritten, outValid := l'.outValid,
                    upc := l'.upc, overrun := l'.overrun }) ∧
    (∀ (sp : Space) (j k : Nat), ¬ ((sp = .ciphertext ∨ sp = .lstat) ∧ j = s.cur) → memRead t sp j k = memRead s sp j k)

/-- What a micro-operation does to its lane depends on that lane's registers alone: in any other engine, at any lane index,
with any other lanes, the same registers give the same result, fault or refusal (spec/10_state.md R20;
spec/44_batch_driver.md R189, R191). -/
def Obligations.LaneReadsOnlyItsOwnRegisters : Prop :=
  ∀ (i : Instr) (s s' : State) (l : Lane), s.lanes[s.cur]? = some l → s'.lanes[s'.cur]? = some l →
    (∀ t, exec i s = .next t → ∃ t', exec i s' = .next t' ∧ t'.lanes[s'.cur]? = t.lanes[s.cur]?) ∧
    (∀ f, exec i s = .fault f → exec i s' = .fault f) ∧
    (∀ r, exec i s = .refused r → exec i s' = .refused r)

/-! ### The host and the BatchDriver -/

/-- SetCount and START, spec/44_batch_driver.md R184: enabled only while `BUSY = 0`; the three cases of `COUNT` against `N`;
what START leaves alone. That `overrun` becomes none is the model's choice (log 9). -/
def Obligations.SetCountAndStart : Prop :=
  ∀ (s : State) (rest : List Event),
    (∀ m : BitVec 16, s.agenda = .host (.setCount m) :: rest →
      (s.busy = false → step s = .next { s with agenda := rest, count := m }) ∧
      (s.busy = true → step s = .refused .hostWriteWhileBusy)) ∧
    (s.agenda = .host .start :: rest →
      (s.busy = true → step s = .refused .startWhileBusy) ∧
      (s.busy = false → ∃ t : State, step s = .next t ∧
        t.lanes.length = s.lanes.length ∧ t.count = s.count ∧ t.ctrl = s.ctrl ∧ t.agenda = rest ∧ t.cur = s.cur ∧
        t.choices = s.choices ∧ t.replies = s.replies ∧
        (s.lanes.length < s.count.toNat →
          t.berr = true ∧ t.done = true ∧ t.busy = false ∧
          ∀ (i : Nat) (l : Lane), s.lanes[i]? = some l →
            t.lanes[i]? = some { l with outValid := false, err := 0, upc := 63, overrun := none }) ∧
        (s.count.toNat ≤ s.lanes.length →
          t.berr = false ∧
          (∀ (i : Nat) (l : Lane), s.lanes[i]? = some l →
            t.lanes[i]? = some { l with outValid := false, err := 0, upc := if i < s.count.toNat then 0 else 63,
                                             overrun := none }) ∧
          (s.count = 0 → t.done = true ∧ t.busy = false) ∧ (s.count ≠ 0 → t.done = false ∧ t.busy = true))))

/-- The completion step, spec/44_batch_driver.md R186: enabled iff `BUSY = 1` and every `UPC` is 44, 62 or 63 (with a lane past
the codes of `UPC` it is not enabled, log 9); it writes `BUSY` and `DONE` and nothing else. That a schedule entry that names it
where it is not enabled is passed over is the model's choice (log 4). -/
def Obligations.CompletionStepJoinsTheLanes : Prop :=
  ∀ (s : State) (rest : List Event), s.agenda = .complete :: rest →
    (s.busy = true → (∀ l ∈ s.lanes, l.overrun = none ∧ (l.upc = 44 ∨ l.upc = 62 ∨ l.upc = 63)) →
      step s = .next { s with agenda := rest, busy := false, done := true }) ∧
    (s.busy = false ∨ (∃ l ∈ s.lanes, l.overrun ≠ none ∨ l.upc ≠ 44 ∧ l.upc ≠ 62 ∧ l.upc ≠ 63) →
      step s = .next { s with agenda := rest })

/-- LoadPair, spec/44_batch_driver.md R183: enabled only while `BUSY = 0`; the two lengths, saturated at 255; the bytes with
an index below 16 stored and marked as written; bytes not written kept; nothing else changed. Writing the four registers one
at a time has the same effect. -/
def Obligations.LoadPairStoresTheSlot : Prop :=
  (∀ (s : State) (i : Nat) (key pt : List Byte) (rest : List Event) (l : Lane),
    s.agenda = .host (.loadPair i key pt) :: rest → s.lanes[i]? = some l →
    (s.busy = true → step s = .refused .hostWriteWhileBusy) ∧
    (s.busy = false → ∃ l' : Lane, step s = .next ({ s with agenda := rest }.putLane i l') ∧
      l' = { l with inKlen := l'.inKlen, inKey := l'.inKey, inKeyWritten := l'.inKeyWritten,
                    inPlen := l'.inPlen, inPt := l'.inPt, inPtWritten := l'.inPtWritten } ∧
      l'.inKlen.toNat = min key.length 255 ∧ l'.inPlen.toNat = min pt.length 255 ∧
      (∀ k : Fin 16, ∀ h : k.val < key.length, l'.inKey.get k = key[k.val] ∧ l'.inKeyWritten.get k = true) ∧
      (∀ k : Fin 16, key.length ≤ k.val →
        l'.inKey.get k = l.inKey.get k ∧ l'.inKeyWritten.get k = l.inKeyWritten.get k) ∧
      (∀ k : Fin 16, ∀ h : k.val < pt.length, l'.inPt.get k = pt[k.val] ∧ l'.inPtWritten.get k = true) ∧
      (∀ k : Fin 16, pt.length ≤ k.val →
        l'.inPt.get k = l.inPt.get k ∧ l'.inPtWritten.get k = l.inPtWritten.get k))) ∧
  (∀ (s : State) (i : Nat) (key pt : List Byte) (rest : List Event), s.busy = false → i < s.lanes.length →
    ∃ t : State,
      runFor 1 { s with agenda := .host (.loadPair i key pt) :: rest } = .next t ∧
      runFor (slotWrites i key pt).length { s with agenda := (slotWrites i key pt).map .host ++ rest } = .next t)

/-- Host reads, spec/44_batch_driver.md R187: always enabled; none changes a register; what each answers. That a read of a
lane answers no value while `DONE = 0` is the model's choice (log 12). -/
def Obligations.HostReadsChangeNothing : Prop :=
  ∀ (s : State) (rest : List Event),
    (s.agenda = .host .readStatus :: rest →
      step s = .next { s with agenda := rest, replies := s.replies ++ [.status s.status] }) ∧
    (s.agenda = .host .readN :: rest →
      step s = .next { s with agenda := rest, replies := s.replies ++ [.laneCount (BitVec.ofNat 16 s.lanes.length)] }) ∧
    (s.agenda = .host .readCount :: rest →
      step s = .next { s with agenda := rest, replies := s.replies ++ [.count s.count] }) ∧
    ∀ (i : Nat) (l : Lane), s.agenda = .host (.readLane i) :: rest → s.lanes[i]? = some l →
      (s.done = true → l.outValid = true →
        step s = .next { s with agenda := rest, replies := s.replies ++ [.lane i l.lstat (some l.outCt)] }) ∧
      (s.done = true → l.outValid = false →
        step s = .next { s with agenda := rest, replies := s.replies ++ [.lane i l.lstat none] }) ∧
      (s.done = false → step s = .next { s with agenda := rest, replies := s.replies ++ [.laneUnsettled i] })

/-- A host write or a START while `BUSY = 1` is refused (spec/70_reset_and_hazards.md R233, R235;
spec/93_implementation_defined.md U3). -/
def Obligations.BusyEngineRefusesTheHost : Prop :=
  ∀ (s : State) (a : HostAction) (rest : List Event), s.agenda = .host a :: rest → s.busy = true →
    ((∃ i key pt, a = .loadPair i key pt) ∨ (∃ i n, a = .writeKeyLength i n) ∨ (∃ i k v, a = .writeKeyByte i k v) ∨
      (∃ i n, a = .writeBlockLength i n) ∨ (∃ i k v, a = .writeBlockByte i k v) ∨ (∃ m, a = .setCount m) →
      step s = .refused .hostWriteWhileBusy) ∧
    (a = .start → step s = .refused .startWhileBusy)

/-- Reset as a host action, spec/70_reset_and_hazards.md R230: always enabled; every register at its value of
spec/10_state.md R43; every data byte without a value; no output slot can be used; the constants as before. That a read of a
lane is then taken and answers no value, where the spec says refuse, is the model's choice (log 12), and so is that the agenda
and the replies are kept (log 20). -/
def Obligations.ResetRestoresEveryRegister : Prop :=
  ∀ (s : State) (rest : List Event), s.agenda = .host .reset :: rest →
    ∃ t : State, step s = .next t ∧ t.lanes.length = s.lanes.length ∧ t.count = 0 ∧ t.busy = false ∧ t.done = false ∧
      t.berr = false ∧ t.ctrl = s.ctrl ∧ t.agenda = rest ∧ t.replies = s.replies ∧
      (∀ l ∈ t.lanes, l.upc = 63 ∧ l.overrun = none ∧ l.outValid = false ∧ l.err = 0 ∧ l.inKlen = 0 ∧ l.inPlen = 0 ∧
        l.sWritten = false ∧ l.rkWritten = false) ∧
      (∀ i k : Nat, memRead t .key i k = none ∧ memRead t .block i k = none ∧ memRead t .ciphertext i k = none) ∧
      (∀ (i : Nat) (l : Lane), t.lanes[i]? = some l → hostReadLane i t = .next (t.answer (.laneUnsettled i)))

/-- The values after reset that spec/10_state.md R43 gives, for an engine of any number of lanes; the data bytes hold no
value. -/
def Obligations.ResetStateHoldsTheSpecsValues : Prop :=
  ∀ n : Nat, (State.resetWith n).lanes.length = n ∧
    (∀ l ∈ (State.resetWith n).lanes, l.upc = 63 ∧ l.outValid = false ∧ l.err = 0 ∧ l.inKlen = 0 ∧ l.inPlen = 0 ∧
      l.sWritten = false ∧ l.rkWritten = false ∧
      ∀ k, l.inKeyWritten.get k = false ∧ l.inPtWritten.get k = false ∧ l.outCtWritten.get k = false) ∧
    (State.resetWith n).count = 0 ∧ (State.resetWith n).busy = false ∧ (State.resetWith n).done = false ∧
    (State.resetWith n).berr = false ∧ ∀ u, (State.resetWith n).ctrl.read u = ctrlRom u

/-- `STATUS`, spec/10_state.md R36: its bits, and that reading it changes no register. -/
def Obligations.StatusViewBits : Prop :=
  ∀ s : State, s.status.getLsbD 0 = s.busy ∧ s.status.getLsbD 1 = s.done ∧ s.status.getLsbD 2 = s.berr ∧
    (∀ k : Nat, 3 ≤ k → s.status.getLsbD k = false) ∧
    ∃ t : State, hostAct .readStatus s = .next t ∧ s.SameHardware t ∧ t.replies = s.replies ++ [.status s.status]

/-- `LSTAT[i]`, spec/10_state.md R37: its bits, that reading it changes no register, and that a read at `DONE = 1` answers
it (before, the model answers no value, log 12). -/
def Obligations.LaneStatusViewBits : Prop :=
  ∀ l : Lane, l.lstat.getLsbD 0 = l.outValid ∧ l.lstat.getLsbD 1 = l.err.getLsbD 0 ∧
    l.lstat.getLsbD 2 = l.err.getLsbD 1 ∧ (∀ k : Nat, 3 ≤ k → l.lstat.getLsbD k = false) ∧
    ∀ (s : State) (i : Nat), s.lanes[i]? = some l →
      ∃ (t : State) (r : Reply), hostAct (.readLane i) s = .next t ∧ s.SameHardware t ∧ t.replies = s.replies ++ [r] ∧
        (s.done = true → ∃ c : Option Block, r = .lane i l.lstat c)

/-! ### Memory -/

/-- MemRead after MemWrite (spec/20_memory.md R51): the written byte at its place, and every other byte as before. -/
def Obligations.MemWriteThenMemRead : Prop :=
  ∀ (s t : State) (sp : Space) (i k : Nat) (v : Byte), memWrite s sp i k v = some t →
    memRead t sp i k = some v ∧
    ∀ (sp' : Space) (j n : Nat), (sp', j, n) ≠ (sp, i, k) → memRead t sp' j n = memRead s sp' j n

/-- The control ROM and the tables cannot be written by any agent, and a lane's fetch returns the word of the control ROM
(spec/20_memory.md R69). -/
def Obligations.ControlStoreNeverChanges : Prop :=
  (∀ s t : State, step s = .next t → t.ctrl = s.ctrl) ∧
  (∀ (s : State) (i k : Nat) (v : Byte),
    memWrite s .ctrl i k v = none ∧ memWrite s .sbox i k v = none ∧ memWrite s .rcon i k v = none) ∧
  ∀ (s : State) (l : Lane), s.ctrl = .rom → l.overrun = none → l.upc.toNat < 44 →
    ∃ w, s.fetch l = some w ∧ ctrlRom l.upc.toNat = some w ∧ ∃ i, decode w = .ok i

/-- Two control stores in canonical form that read the same are the same data (the model's own store, log 9). -/
def Obligations.EqualReadsMeanEqualStores : Prop :=
  ∀ m n : ControlStore, m.wf = true → n.wf = true → (∀ a : Nat, m.read a = n.read a) → m = n

/-- `CFG_N`, spec/10_state.md R31: no step changes the lane count, and a host read answers it as 16 bits. -/
def Obligations.LaneCountNeverChanges : Prop :=
  (∀ s t : State, step s = .next t → t.lanes.length = s.lanes.length) ∧
  ∀ s : State, s.Inv → hostAct .readN s = .next (s.answer (.laneCount s.cfgN)) ∧ s.cfgN.toNat = s.lanes.length

/-! ### Invariants and whole-machine rules -/

/-- Every step, from every state that meets the invariant, keeps it. -/
def Obligations.StepKeepsTheInvariant : Prop :=
  ∀ s t : State, s.Inv → step s = .next t → t.Inv

/-- The state after reset meets the invariant, with any lane count within the bounds of spec/00_scope.md R6; `State.reset` is
the reference engine of 24 lanes (log 1). -/
def Obligations.ResetMeetsTheInvariant : Prop :=
  State.reset = State.resetWith 24 ∧ State.reset.Inv ∧ ∀ n : Nat, 1 ≤ n → n ≤ 65534 → (State.resetWith n).Inv

/-- `UPC` moves by one, or from 0 to Faulted, and otherwise only START and reset move it (spec/10_state.md R27;
spec/43_cipher_pipeline.md R156, derived there). -/
def Obligations.UpcMovesOnlyForward : Prop :=
  ∀ (s t : State) (i : Nat) (l l' : Lane), s.ctrl = .rom → step s = .next t → s.lanes[i]? = some l →
    t.lanes[i]? = some l' →
    l'.upc = l.upc ∨ (l.upc.toNat < 44 ∧ l'.upc = l.upc + 1) ∨ (l.upc = 0 ∧ l'.upc = 62) ∨
    (s.agenda.head? = some (.host .start) ∧ (l'.upc = 0 ∨ l'.upc = 63)) ∨
    (s.agenda.head? = some (.host .reset) ∧ l'.upc = 63)

/-- Where a lane goes next depends on its `UPC` and on whether its two lengths are 16, not on key, plaintext or any other
lane (spec/43_cipher_pipeline.md R157, derived there). -/
def Obligations.SequenceIgnoresTheData : Prop :=
  ∀ (s s' t t' : State) (i i' : Nat) (l m l' m' : Lane), s.ctrl = .rom → s'.ctrl = .rom →
    s.lanes[i]? = some l → s'.lanes[i']? = some m → l.upc = m.upc → l.overrun = m.overrun →
    ((l.inKlen = 16 ∧ l.inPlen = 16) ↔ (m.inKlen = 16 ∧ m.inPlen = 16)) →
    laneStep i s = .next t → laneStep i' s' = .next t' → t.lanes[i]? = some l' → t'.lanes[i']? = some m' →
    l'.upc = m'.upc ∧ l'.overrun = m'.overrun

/-- The document's states of a lane (spec/43_cipher_pipeline.md R158, a decision of the spec): LOADPT enters Initialized,
ADDROUNDKEY 0 enters RoundKeyAdded(0), ADDROUNDKEY `r` enters Round(`r`), STORECT enters Done, and no other micro-operation
enters one; START and reset enter none. -/
def Obligations.PhasesAreEnteredAsTheDocumentSays : Prop :=
  (∀ (s t : State) (i : Nat) (l l' : Lane) (w : Byte) (ins : Instr), s.ctrl = .rom → s.lanes[i]? = some l →
    s.fetch l = some w → decode w = .ok ins → laneStep i s = .next t → t.lanes[i]? = some l' →
    l'.phase =
      match ins with
      | .loadpt => some .initialized
      | .addroundkey r => some (if r = 0 then .roundKeyAdded0 else .round r.toNat)
      | .storect => some .done
      | .validate => none
      | .keyexpand => none
      | .subbytes => none
      | .shiftrows => none
      | .mixcolumns => none) ∧
  phase 63 = none ∧ phase 0 = none ∧ phase 62 = none

/-- `OUT_VALID[i]` is set by STORECT of lane `i`, with the State as ciphertext, and by nothing else; START clears it for every
lane and so does reset, and nothing else clears it (spec/10_state.md R28, R29). -/
def Obligations.OutValidSetByStorectOnly : Prop :=
  (∀ (s t : State) (i : Nat) (l l' : Lane), step s = .next t → s.lanes[i]? = some l → t.lanes[i]? = some l' →
    (l.outValid = false → l'.outValid = true →
      ∃ w, s.fetch l = some w ∧ decode w = .ok .storect ∧ t.cur = i ∧ l'.outCt = l.readS) ∧
    (l.outValid = true → l'.outValid = false →
      s.agenda.head? = some (.host .start) ∨ s.agenda.head? = some (.host .reset))) ∧
  (∀ (s t : State), step s = .next t →
    s.agenda.head? = some (.host .start) ∨ s.agenda.head? = some (.host .reset) → ∀ l ∈ t.lanes, l.outValid = false)

/-- `ERR[i]`, spec/10_state.md R30: bit 0 for the key length, bit 1 for the plaintext length, both may be set; written only
by VALIDATE of lane `i`; cleared by START for every lane and by reset; read by the host through `LSTAT[i]`. -/
def Obligations.ErrWrittenByValidateOnly : Prop :=
  (∀ (s t : State) (i : Nat) (l l' : Lane), step s = .next t → s.lanes[i]? = some l → t.lanes[i]? = some l' →
    l'.err ≠ l.err →
    (∃ w, s.fetch l = some w ∧ decode w = .ok .validate ∧ t.cur = i ∧
      (l'.err.getLsbD 0 = true ↔ l.inKlen ≠ 16) ∧ (l'.err.getLsbD 1 = true ↔ l.inPlen ≠ 16)) ∨
    s.agenda.head? = some (.host .start) ∨ s.agenda.head? = some (.host .reset)) ∧
  (∀ (s t : State), step s = .next t →
    s.agenda.head? = some (.host .start) ∨ s.agenda.head? = some (.host .reset) → ∀ l ∈ t.lanes, l.err = 0) ∧
  (∀ l : Lane, l.lstat.getLsbD 1 = l.err.getLsbD 0 ∧ l.lstat.getLsbD 2 = l.err.getLsbD 1)

/-! ### End to end -/

/-- Known-answer vectors: `Encrypt` of spec/43_cipher_pipeline.md R160 on the pairs of spec/95_test_vectors.md V1 and D5. -/
def Obligations.EncryptKnownAnswers : Prop :=
  encrypt (Block.unpack 0x000102030405060708090a0b0c0d0e0f) (Block.unpack 0x00112233445566778899aabbccddeeff) =
    Block.unpack 0x69c4e0d86a7b0430d8cdb78070b4c55a ∧
  encrypt (Block.unpack 0x2b7e151628aed2a6abf7158809cf4f3c) (Block.unpack 0x3243f6a8885a308d313198a2e0370734) =
    Block.unpack 0x3925841d02dc09fbdc118597196a0b32 ∧
  encrypt (Block.unpack 0x00000000000000000000000000000000) (Block.unpack 0x00000000000000000000000000000000) =
    Block.unpack 0x66e94bd4ef8a2c3b884cfa59ca342b2e ∧
  encrypt (Block.unpack 0xffffffffffffffffffffffffffffffff) (Block.unpack 0xffffffffffffffffffffffffffffffff) =
    Block.unpack 0xbcbf217cb280cf30b2517052193ab979

/-- A started lane with two lengths of 16 reaches `Done` after exactly 44 of its steps with the ciphertext of its pair, and
its output is valid at no earlier step; no other lane has changed (spec/43_cipher_pipeline.md R161, derived there). What `S`,
`RK` and `OUT_CT` held before does not matter. -/
def Obligations.LaneEncryptsIn44Steps : Prop :=
  ∀ (s : State) (i : Nat) (l : Lane) (key pt : Block) (rest : List Event),
    s.ctrl = .rom → s.lanes[i]? = some l → l.upc = 0 → l.overrun = none → l.outValid = false → l.err = 0 → l.inKlen = 16 →
    l.inPlen = 16 → l.readKey = some key → l.readPt = some pt → s.agenda = List.replicate 44 (.lane i) ++ rest →
    (∃ (t : State) (l' : Lane), runFor 44 s = .next t ∧ t.lanes[i]? = some l' ∧ l'.upc = 44 ∧ l'.overrun = none ∧ l'.outValid = true ∧
      l'.err = 0 ∧ l'.outCt = encrypt key pt ∧ t.agenda = rest ∧ t.lanes.length = s.lanes.length ∧
      ∀ j : Nat, j ≠ i → t.lanes[j]? = s.lanes[j]?) ∧
    ∀ n : Nat, n < 44 → ∃ (t : State) (l' : Lane), runFor n s = .next t ∧ t.lanes[i]? = some l' ∧ l'.upc.toNat = n ∧
      l'.outValid = false

/-- The steps of two lanes commute (spec/20_memory.md R65, derived there). -/
def Obligations.LaneStepsCommute : Prop :=
  ∀ (s a b : State) (i j : Nat), i ≠ j → laneStep i s = .next a → laneStep j a = .next b →
    ∃ a' b' : State, laneStep j s = .next a' ∧ laneStep i a' = .next b' ∧ b' = { b with cur := b'.cur }

/-- Every order of the same lane steps ends in the same registers (spec/20_memory.md R65, derived there). -/
def Obligations.EveryScheduleGivesTheSameLanes : Prop :=
  ∀ (s t : State) (p q : List Nat), p.Perm q →
    runFor p.length { s with agenda := p.map .lane } = .next t →
    ∃ t' : State, runFor q.length { s with agenda := q.map .lane } = .next t' ∧ t.SameHardware t'

/-- The result of a batch under every schedule (spec/44_batch_driver.md R188, derived there): a host that has loaded its
pairs, issues START and then keeps off the engine's writable registers finds, at whatever step `DONE` is 1, the ciphertext
of every good pair and the errors of every bad one in their slots, and nothing in the slots above. -/
def Obligations.BatchResultsUnderEverySchedule : Prop :=
  ∀ (s t : State) (pairs : List (List Byte × List Byte)) (sched : List Event) (n : Nat),
    s.ctrl = .rom → s.busy = false → s.Loaded pairs → (∀ e ∈ sched, Event.quiet s.lanes.length e = true) →
    s.agenda = .host .start :: sched → 1 ≤ n → runFor n s = .next t → t.done = true → t.HasResults pairs

/-- Every batch ends, under every schedule: no step of it stops, and `DONE` is 1 after at most one START, the schedule's
entries, 44 lane steps for each pair and one completion step (spec/44_batch_driver.md R185, R188;
spec/70_reset_and_hazards.md R239). No fairness of the schedule is assumed, as R185 does: this model's engine, when the agenda
is empty, always steps a lane that has a step, which is the model's choice (log 3). -/
def Obligations.EveryBatchEnds : Prop :=
  ∀ (s : State) (pairs : List (List Byte × List Byte)) (sched : List Event),
    s.ctrl = .rom → s.busy = false → s.Loaded pairs → (∀ e ∈ sched, Event.quiet s.lanes.length e = true) →
    s.agenda = .host .start :: sched →
    (∀ n : Nat, ∃ t : State, runFor n s = .next t) ∧
    ∃ (n : Nat) (t : State), n ≤ 1 + sched.length + 44 * pairs.length + 1 ∧ runFor n s = .next t ∧ t.done = true ∧
      t.HasResults pairs

/-! ### The parameter `prog` -/

/-- The lane step for an arbitrary list `prog` of words (spec/30_encoding.md R93): the store of a list holds it, and the
hardware is the instance with `CTRL_ROM`; a lane at a place at or past `len(prog)` has no step and is not settled, so that the
batch is not completed; and a micro-operation leads to the next place, but for STORECT, which alone leads to `Done`, and a
failing VALIDATE. That no step is a step that changes nothing is the model's choice (log 4), and so is how a place past the
codes of `UPC` is held (log 9). -/
def Obligations.LaneRunsAnArbitraryProg : Prop :=
  (∀ (prog : List Byte) (u : Nat), (ControlStore.ofList prog).read u = prog[u]?) ∧
  ControlStore.ofList ctrlRomTable = .rom ∧
  (∀ (s : State) (prog : List Byte) (i u : Nat) (l : Lane), s.ctrl = .ofList prog → s.lanes[i]? = some l →
    l.place = some u →
    s.fetch l = prog[u]? ∧
    (prog.length ≤ u → laneStep i s = .next s ∧ l.settled = false ∧ s.canComplete = false)) ∧
  ∀ (s t : State) (i u : Nat) (l l' : Lane) (w : Byte) (ins : Instr), s.lanes[i]? = some l → l.place = some u →
    s.fetch l = some w → decode w = .ok ins → laneStep i s = .next t → t.lanes[i]? = some l' →
    (l'.phase = some .done ↔ ins = .storect) ∧
    (l'.settled = true ↔ ins = .storect ∨ ins = .validate ∧ ¬ (l.inKlen = 16 ∧ l.inPlen = 16)) ∧
    (l'.settled = false → l'.place = some (u + 1))

/-! ### The batch invariant -/

/-- Every step of a batch, from every state that meets the batch invariant, is taken and keeps it, as long as the host keeps
its obligations (spec/43_cipher_pipeline.md R161, spec/44_batch_driver.md R185, R188; derived there). -/
def Obligations.StepKeepsTheBatchInvariant : Prop :=
  ∀ (s : State) (pairs : List (List Byte × List Byte)), s.Batch pairs →
    (∀ e : Event, s.agenda.head? = some e → e.quiet s.lanes.length = true) →
    ∃ t : State, step s = .next t ∧ t.Batch pairs ∧ t.agenda = s.agenda.tail

/-- START on loaded pairs begins the batch invariant, and at `DONE` it gives the result of the batch
(spec/44_batch_driver.md R184, R188). -/
def Obligations.BatchInvariantBeginsAndEnds : Prop :=
  (∀ (s : State) (pairs : List (List Byte × List Byte)) (rest : List Event), s.ctrl = .rom → s.busy = false →
    s.Loaded pairs → s.agenda = .host .start :: rest →
    ∃ t : State, step s = .next t ∧ t.Batch pairs ∧ t.agenda = rest) ∧
  ∀ (s : State) (pairs : List (List Byte × List Byte)), s.Batch pairs → s.done = true → s.HasResults pairs
end

