-- ==== Sys2Proof/Laws/ControlStore.lean ====
section
/-! SUPPORT. The control store: what a read answers after a write and from a list laid out, and that every operation keeps the
canonical form. -/

namespace Sys2Proof.Machine

@[simp] theorem Memory.listed_erase (m : Memory) (a c : Nat) :
    (m.erase a).listed c = if c = a then none else m.listed c := by
  induction m with
  | nil => simp [Memory.erase, Memory.listed]
  | cons x m ih =>
    obtain ⟨x, y⟩ := x
    by_cases hx : x = a
    · subst hx
      by_cases hc : x = c
      · subst hc; simp [Memory.erase, ih]
      · have : ¬ c = x := fun e => hc e.symm
        simp [Memory.erase, Memory.listed, ih, hc, this]
    · by_cases hc : x = c
      · subst hc; simp [Memory.erase, Memory.listed, hx]
      · simp [Memory.erase, Memory.listed, hx, hc, ih]

/-- A cell below every listed address is not listed. -/
theorem Memory.listed_none_of_lt {m : Memory} (hm : m.rising = true) {x a : Nat} {y : Byte}
    (hr : Memory.rising ((x, y) :: m) = true) (ha : a < x) : Memory.listed ((x, y) :: m) a = none := by
  induction m generalizing x y with
  | nil => simp [Memory.listed]; omega
  | cons z m ih =>
    obtain ⟨z, w⟩ := z
    simp only [Memory.rising, Bool.and_eq_true, decide_eq_true_eq] at hr
    have hz : Memory.rising m = true := by
      cases m with
      | nil => rfl
      | cons u m => simp only [Memory.rising, Bool.and_eq_true] at hm; exact hm.2
    have := ih hz hr.2 (Nat.lt_trans ha hr.1)
    rw [Memory.listed, if_neg (by omega), this]

theorem Memory.rising_tail {x : Host.Cell} {m : Memory} (h : Memory.rising (x :: m) = true) : m.rising = true := by
  cases m with
  | nil => rfl
  | cons u m => simp only [Memory.rising, Bool.and_eq_true] at h; exact h.2

@[simp] theorem Memory.listed_insert (m : Memory) (hm : m.rising = true) (a c : Nat) (b : Byte) :
    (m.insert a b).listed c = if c = a then some b else m.listed c := by
  induction m with
  | nil => simp [Memory.insert, Memory.listed, eq_comm]
  | cons x m ih =>
    obtain ⟨x, y⟩ := x
    unfold Memory.insert
    split
    · next h => simp [Memory.listed, eq_comm]
    · split
      · next h =>
        subst h
        by_cases hc : a = c
        · subst hc; simp [Memory.listed]
        · have : ¬ c = a := fun e => hc e.symm
          simp [Memory.listed, hc, this]
      · next h1 h2 =>
        have := ih (Memory.rising_tail hm)
        by_cases hc : x = c
        · subst hc
          have : ¬ x = a := fun e => h2 e.symm
          simp [Memory.listed, this]
        · simp [Memory.listed, hc, this]

/-- Reading after a write: the written byte at its place, and every other place as before. -/
theorem Memory.read_write {m : Memory} (hm : m.wf = true) (a : Nat) (b : Byte) (c : Nat) :
    (m.write a b).read c = if c = a then b else m.read c := by
  simp only [Memory.wf, Bool.and_eq_true] at hm
  unfold Memory.write Memory.read
  by_cases hc : c = a
  · subst hc; split <;> simp [*]
  · split <;> simp [hm, hc]

theorem Memory.rising_cons_iff (a : Nat) (b : Byte) (m : Memory) :
    Memory.rising ((a, b) :: m) = true ↔ (∀ x y m', m = (x, y) :: m' → a < x) ∧ m.rising = true := by
  cases m with
  | nil => simp [Memory.rising]
  | cons u m =>
    obtain ⟨u, v⟩ := u
    simp only [Memory.rising, Bool.and_eq_true, decide_eq_true_eq]
    constructor
    · rintro ⟨h, h'⟩
      refine ⟨?_, h'⟩
      intro x y m' e
      cases e
      exact h
    · rintro ⟨h, h'⟩
      exact ⟨h _ _ _ rfl, h'⟩

/-- In a rising store every later address is above the first. -/
theorem Memory.lt_of_mem {a : Nat} {b : Byte} {m : Memory} (h : Memory.rising ((a, b) :: m) = true) :
    ∀ c ∈ m, a < c.1 := by
  induction m generalizing a b with
  | nil => simp
  | cons u m ih =>
    obtain ⟨u, v⟩ := u
    simp only [Memory.rising, Bool.and_eq_true, decide_eq_true_eq] at h
    intro c hc
    rcases List.mem_cons.1 hc with rfl | hc
    · exact h.1
    · exact Nat.lt_trans h.1 (ih h.2 c hc)

theorem Memory.mem_of_mem_erase {m : Memory} {a : Nat} {c : Host.Cell} (h : c ∈ m.erase a) : c ∈ m := by
  induction m with
  | nil => simp [Memory.erase] at h
  | cons x m ih =>
    obtain ⟨x, y⟩ := x
    unfold Memory.erase at h
    split at h
    · exact List.mem_cons_of_mem _ (ih h)
    · rcases List.mem_cons.1 h with rfl | h
      · exact List.mem_cons_self
      · exact List.mem_cons_of_mem _ (ih h)

theorem Memory.mem_insert {m : Memory} {a : Nat} {b : Byte} {c : Host.Cell} (h : c ∈ m.insert a b) :
    c = (a, b) ∨ c ∈ m := by
  induction m with
  | nil => simpa [Memory.insert] using h
  | cons x m ih =>
    obtain ⟨x, y⟩ := x
    unfold Memory.insert at h
    split at h
    · simpa using h
    · split at h
      · rcases List.mem_cons.1 h with h | h
        · exact .inl h
        · exact .inr (List.mem_cons_of_mem _ h)
      · rcases List.mem_cons.1 h with h | h
        · exact .inr (h ▸ List.mem_cons_self)
        · exact (ih h).imp_right (List.mem_cons_of_mem _)

theorem Memory.rising_of_lt {a : Nat} {b : Byte} {m : Memory} (hm : m.rising = true) (h : ∀ c ∈ m, a < c.1) :
    Memory.rising ((a, b) :: m) = true := by
  cases m with
  | nil => rfl
  | cons u m =>
    obtain ⟨u, v⟩ := u
    simp only [Memory.rising, Bool.and_eq_true, decide_eq_true_eq]
    exact ⟨h _ List.mem_cons_self, hm⟩

theorem Memory.rising_erase {m : Memory} (hm : m.rising = true) (a : Nat) : (m.erase a).rising = true := by
  induction m with
  | nil => rfl
  | cons x m ih =>
    obtain ⟨x, y⟩ := x
    have ih := ih (Memory.rising_tail hm)
    unfold Memory.erase
    split
    · exact ih
    · exact Memory.rising_of_lt ih fun c hc => Memory.lt_of_mem hm c (Memory.mem_of_mem_erase hc)

theorem Memory.rising_insert {m : Memory} (hm : m.rising = true) (a : Nat) (b : Byte) : (m.insert a b).rising = true := by
  induction m with
  | nil => rfl
  | cons x m ih =>
    obtain ⟨x, y⟩ := x
    have ih := ih (Memory.rising_tail hm)
    have hlt := Memory.lt_of_mem hm
    unfold Memory.insert
    split
    · next h => simp only [Memory.rising, Bool.and_eq_true, decide_eq_true_eq]; exact ⟨h, hm⟩
    · split
      · next h => subst h; exact Memory.rising_of_lt (Memory.rising_tail hm) hlt
      · next h1 h2 =>
        refine Memory.rising_of_lt ih fun c hc => ?_
        rcases Memory.mem_insert hc with rfl | hc
        · show x < a; omega
        · exact hlt c hc

/-- Every write keeps the canonical form. -/
theorem Memory.wf_write {m : Memory} (hm : m.wf = true) (a : Nat) (b : Byte) : (m.write a b).wf = true := by
  simp only [Memory.wf, Bool.and_eq_true, List.all_eq_true] at hm ⊢
  unfold Memory.write
  split
  · exact ⟨Memory.rising_erase hm.1 a, fun c hc => hm.2 c (Memory.mem_of_mem_erase hc)⟩
  · next hb =>
    refine ⟨Memory.rising_insert hm.1 a b, fun c hc => ?_⟩
    rcases Memory.mem_insert hc with rfl | hc
    · simp [Memory.cellOk, hb]
    · exact hm.2 c hc

/-! ### A list of bytes laid out -/

theorem Memory.mem_ofList {bs : List Byte} {a : Nat} {c : Host.Cell} (h : c ∈ Memory.ofList a bs) :
    a ≤ c.1 ∧ c.1 < a + bs.length ∧ c.2 ≠ Memory.default c.1 := by
  induction bs generalizing a with
  | nil => simp [Memory.ofList] at h
  | cons b bs ih =>
    unfold Memory.ofList at h
    split at h
    · obtain ⟨h1, h2, h3⟩ := ih h
      exact ⟨by omega, by simp; omega, h3⟩
    · next hb =>
      rcases List.mem_cons.1 h with rfl | h
      · exact ⟨Nat.le_refl _, by simp, hb⟩
      · obtain ⟨h1, h2, h3⟩ := ih h
        exact ⟨by omega, by simp; omega, h3⟩

/-- A list laid out is in canonical form. -/
theorem Memory.wf_ofList (a : Nat) (bs : List Byte) : (Memory.ofList a bs).wf = true := by
  have hr : (Memory.ofList a bs).rising = true := by
    induction bs generalizing a with
    | nil => rfl
    | cons b bs ih =>
      unfold Memory.ofList
      split
      · exact ih _
      · exact Memory.rising_of_lt (ih _) fun c hc => (Memory.mem_ofList hc).1
  simp only [Memory.wf, Bool.and_eq_true, List.all_eq_true]
  exact ⟨hr, fun c hc => by simpa [Memory.cellOk] using (Memory.mem_ofList hc).2.2⟩

/-- A list laid out reads as the list. -/
theorem Memory.read_ofList (a : Nat) (bs : List Byte) (k : Nat) :
    (Memory.ofList a bs).read (a + k) = (bs[k]?).getD (Memory.default (a + k)) := by
  induction bs generalizing a k with
  | nil => simp [Memory.ofList, Memory.read, Memory.listed]
  | cons b bs ih =>
    have low : Memory.listed (Memory.ofList (a + 1) bs) a = none := by
      cases h : Memory.ofList (a + 1) bs with
      | nil => rfl
      | cons c m =>
        have hlt : a < c.1 := (Memory.mem_ofList (c := c) (h ▸ List.mem_cons_self)).1
        have hw := Memory.wf_ofList (a + 1) bs
        rw [h] at hw
        simp only [Memory.wf, Bool.and_eq_true] at hw
        exact Memory.listed_none_of_lt (Memory.rising_tail hw.1) hw.1 hlt
    have ih' := fun k => ih (a + 1) k
    cases k with
    | zero =>
      unfold Memory.ofList
      split
      · next hb => simp [Memory.read, low, hb]
      · simp [Memory.read, Memory.listed]
    | succ k =>
      have e : a + (k + 1) = a + 1 + k := by omega
      unfold Memory.ofList
      split
      · rw [e, ih' k, List.getElem?_cons_succ]
      · rw [e, List.getElem?_cons_succ, ← ih' k]
        have : ¬ a = a + 1 + k := by omega
        simp [Memory.read, Memory.listed, this]

/-! ### The store -/

/-- The hardware's store reads as `CTRL_ROM` (spec/20_memory.md R69). -/
@[simp] theorem ControlStore.read_rom (u : Nat) : ControlStore.rom.read u = ctrlRom u := by
  have hl : ctrlRomTable.length = 44 := rfl
  unfold ControlStore.read ControlStore.rom
  by_cases h : u < 44
  · have : ctrlRom u = some (ctrlRomTable[u]'(hl ▸ h)) := List.getElem?_eq_getElem _
    simp [h, Memory.read, Memory.listed, Memory.default, this]
  · have : ctrlRom u = none := List.getElem?_eq_none (by omega)
    simp [h, this]

/-- The store of a list of words reads as the list, with nothing past it (spec/30_encoding.md R93). -/
@[simp] theorem ControlStore.read_ofList (prog : List Byte) (u : Nat) : (ControlStore.ofList prog).read u = prog[u]? := by
  have := Memory.read_ofList 0 prog u
  rw [Nat.zero_add] at this
  unfold ControlStore.read ControlStore.ofList
  by_cases h : u < prog.length <;> simp [h, this]

/-- The hardware is the instance with `CTRL_ROM` (spec/30_encoding.md R93). -/
theorem ControlStore.ofList_ctrlRomTable : ControlStore.ofList ctrlRomTable = .rom := by decide

/-- Reading after a word is put at place 0. -/
theorem ControlStore.read_place {c : ControlStore} (hc : c.wf = true) (w : Byte) (u : Nat) :
    (c.place w).read u = if u = 0 then some w else c.read u := by
  simp only [ControlStore.wf, Bool.and_eq_true] at hc
  unfold ControlStore.place ControlStore.read
  by_cases h : u = 0
  · subst h
    rw [if_pos (show 0 < max 1 c.length by omega), Memory.read_write hc.1, if_pos rfl, if_pos rfl]
  · have e : u < max 1 c.length ↔ u < c.length := by omega
    simp only [e, Memory.read_write hc.1, h, if_false]

/-! ### The canonical form of a store -/

theorem ControlStore.wf_rom : ControlStore.rom.wf = true := rfl

theorem ControlStore.wf_ofList (prog : List Byte) : (ControlStore.ofList prog).wf = true := by
  simp only [ControlStore.wf, Bool.and_eq_true, List.all_eq_true, decide_eq_true_eq]
  refine ⟨Memory.wf_ofList 0 prog, fun c hc => ?_⟩
  have := (Memory.mem_ofList hc).2.1
  simpa [ControlStore.ofList] using this

theorem ControlStore.wf_place {c : ControlStore} (hc : c.wf = true) (w : Byte) : (c.place w).wf = true := by
  simp only [ControlStore.wf, Bool.and_eq_true, List.all_eq_true, decide_eq_true_eq] at hc ⊢
  refine ⟨Memory.wf_write hc.1 0 w, fun x hx => ?_⟩
  show x.1 < max 1 c.length
  have hx : x = (0, w) ∨ x ∈ c.cells := by
    unfold ControlStore.place Memory.write at hx
    split at hx
    · exact .inr (Memory.mem_of_mem_erase hx)
    · exact Memory.mem_insert hx
  rcases hx with rfl | hx
  · show 0 < max 1 c.length; omega
  · have := hc.2 x hx; omega

end Sys2Proof.Machine
end

