-- ==== Sys2Proof/Laws/Layout.lean ====
section
/-! SUPPORT. Entries of words, blocks and schedules: reading what was built, equality by entries, reading after a write. -/

namespace Sys2Proof

variable {α β : Type}

theorem Quad.ext_get {p q : Quad α} (h : ∀ k, p.get k = q.get k) : p = q := by
  obtain ⟨a0, a1, a2, a3⟩ := p
  obtain ⟨b0, b1, b2, b3⟩ := q
  have h0 := h 0; have h1 := h 1; have h2 := h 2; have h3 := h 3
  simp only [Quad.get] at h0 h1 h2 h3
  subst h0 h1 h2 h3
  rfl

@[simp] theorem Quad.get_ofFn (f : Fin 4 → α) (k : Fin 4) : (Quad.ofFn f).get k = f k := by
  fin_cases k <;> rfl

@[simp] theorem Quad.get_fill (a : α) (k : Fin 4) : (Quad.fill a).get k = a := by
  fin_cases k <;> rfl

@[simp] theorem Grid.get_ofFn (f : Fin 16 → α) (k : Fin 16) : (Grid.ofFn f).get k = f k := by
  fin_cases k <;> rfl

@[simp] theorem Grid.get_fill (a : α) (k : Fin 16) : (Grid.fill a).get k = a := by
  fin_cases k <;> rfl

@[simp] theorem Grid.ofFn_get (g : Grid α) : Grid.ofFn g.get = g := rfl

/-- Two blocks with the same sixteen entries are equal. -/
theorem Grid.ext_get {a b : Grid α} (h : ∀ k, a.get k = b.get k) : a = b := by
  rw [← Grid.ofFn_get a, ← Grid.ofFn_get b]
  exact congrArg Grid.ofFn (funext h)

@[simp] theorem Grid.ofFn_const (a : α) : (Grid.ofFn fun _ => a) = Grid.fill a := rfl

@[simp] theorem Grid.get_map (f : α → β) (g : Grid α) (k : Fin 16) : (g.map f).get k = f (g.get k) := by
  simp [Grid.map]

@[simp] theorem Grid.get_put (g : Grid α) (k j : Fin 16) (v : α) :
    (g.put k v).get j = if j = k then v else g.get j := by
  simp [Grid.put]

@[simp] theorem Grid.get_overlay (g : Grid α) (l : List α) (k : Fin 16) :
    (g.overlay l).get k = (l[k.val]?).getD (g.get k) := by
  simp [Grid.overlay]

/-- The entry in row `r`, column `c` is entry `r + 4c` (spec/00_scope.md R11). -/
theorem Grid.at_eq_get (g : Grid α) (r c : Fin 4) : g.at r c = g.get ⟨r.val + 4 * c.val, by omega⟩ := by
  fin_cases c <;> fin_cases r <;> rfl

/-- Every mark is set exactly when each is. -/
theorem Grid.allSet_iff (g : Grid Bool) : g.allSet = true ↔ ∀ k, g.get k = true := by
  constructor
  · intro h k
    simp only [Grid.allSet, Grid.toList, List.all_cons, List.all_nil, Bool.and_eq_true, id] at h
    obtain ⟨h0, h1, h2, h3, h4, h5, h6, h7, h8, h9, h10, h11, h12, h13, h14, h15, -⟩ := h
    fin_cases k <;> assumption
  · intro h
    rw [← Grid.ofFn_get g, funext h]
    rfl

@[simp] theorem Grid.allSet_fill_true : (Grid.fill true).allSet = true := rfl

@[simp] theorem Block.get_xor (a b : Block) (k : Fin 16) : (Block.xor a b).get k = a.get k ^^^ b.get k := by
  simp [Block.xor]

@[simp] theorem Schedule.key_ofFn (f : Fin 11 → Block) (r : Fin 11) : (Schedule.ofFn f).key r = f r := by
  fin_cases r <;> rfl

/-- Two schedules with the same round keys are equal. -/
theorem Schedule.ext_key {a b : Schedule} (h : ∀ r, a.key r = b.key r) : a = b := by
  have e (w : Schedule) : Schedule.ofFn w.key = w := rfl
  rw [← e a, ← e b]
  exact congrArg Schedule.ofFn (funext h)

/-- Byte `16r + k` of the schedule is byte `k` of round key `r` (spec/00_scope.md R11). -/
theorem Schedule.byte_eq (w : Schedule) {j : Nat} (h : j < 176) (r : Fin 11) (k : Fin 16) (e : j = 16 * r.val + k.val) :
    w.byte ⟨j, h⟩ = (w.key r).get k := by
  have h1 : (⟨j / 16, by omega⟩ : Fin 11) = r := by apply Fin.ext; show j / 16 = r.val; omega
  have h2 : (⟨j % 16, by omega⟩ : Fin 16) = k := by apply Fin.ext; show j % 16 = k.val; omega
  simp only [Schedule.byte, h1, h2]

/-- Word `4r + c` of the schedule is word `c` of round key `r` (spec/00_scope.md R11). -/
theorem Schedule.word_eq (w : Schedule) {j : Nat} (h : j < 44) (r : Fin 11) (c : Fin 4) (e : j = 4 * r.val + c.val) :
    w.word ⟨j, h⟩ = (w.key r).col c := by
  have h1 : (⟨j / 4, by omega⟩ : Fin 11) = r := by apply Fin.ext; show j / 4 = r.val; omega
  have h2 : (⟨j % 4, by omega⟩ : Fin 4) = c := by apply Fin.ext; show j % 4 = c.val; omega
  simp only [Schedule.word, h1, h2]

/-- Byte `4j + b` of the schedule is byte `b` of word `j` (spec/20_memory.md R53). -/
theorem Schedule.byte_word (w : Schedule) {n : Nat} (h : n < 176) (j : Fin 44) (b : Fin 4) (e : n = 4 * j.val + b.val) :
    w.byte ⟨n, h⟩ = (w.word j).get b := by
  rw [Schedule.word_eq w j.isLt ⟨j.val / 4, by omega⟩ ⟨j.val % 4, by omega⟩ (by show j.val = _; simp only; omega),
    Schedule.byte_eq w h ⟨j.val / 4, by omega⟩ ⟨4 * (j.val % 4) + b.val, by omega⟩ (by simp only; omega)]
  have h1 : (⟨(4 * (j.val % 4) + b.val) / 4, by omega⟩ : Fin 4) = ⟨j.val % 4, by omega⟩ := by
    apply Fin.ext; show (4 * (j.val % 4) + b.val) / 4 = j.val % 4; omega
  have h2 : (⟨(4 * (j.val % 4) + b.val) % 4, by omega⟩ : Fin 4) = b := by
    apply Fin.ext; show (4 * (j.val % 4) + b.val) % 4 = b.val; omega
  simp only [Grid.get, h1, h2]

@[simp] theorem Schedule.byte_put (w : Schedule) (k j : Fin 176) (v : Byte) :
    (w.put k v).byte j = if j = k then v else w.byte j := by
  simp only [Schedule.byte, Schedule.put, Schedule.key_ofFn]
  by_cases h : j.val / 16 = k.val / 16
  · have e : (⟨j.val % 16, by omega⟩ : Fin 16) = ⟨k.val % 16, by omega⟩ ↔ j = k := by
      simp only [Fin.ext_iff]; omega
    simp [h, e]
  · have : j ≠ k := fun e => h (by rw [e])
    simp [h, this]

end Sys2Proof
end

