-- ==== Sys2Proof/Laws/State.lean ====
section
/-! SUPPORT. Every field after every update of a lane or of the state, so that no later proof unfolds a record update. -/

namespace Sys2Proof.Machine

section
variable (l : Lane) (v : Block)

@[simp] theorem Lane.writeS_inKlen : (l.writeS v).inKlen = l.inKlen := rfl
@[simp] theorem Lane.writeS_inKey : (l.writeS v).inKey = l.inKey := rfl
@[simp] theorem Lane.writeS_inKeyWritten : (l.writeS v).inKeyWritten = l.inKeyWritten := rfl
@[simp] theorem Lane.writeS_inPlen : (l.writeS v).inPlen = l.inPlen := rfl
@[simp] theorem Lane.writeS_inPt : (l.writeS v).inPt = l.inPt := rfl
@[simp] theorem Lane.writeS_inPtWritten : (l.writeS v).inPtWritten = l.inPtWritten := rfl
@[simp] theorem Lane.writeS_s : (l.writeS v).s = v := rfl
@[simp] theorem Lane.writeS_sWritten : (l.writeS v).sWritten = true := rfl
@[simp] theorem Lane.writeS_rk : (l.writeS v).rk = l.rk := rfl
@[simp] theorem Lane.writeS_rkWritten : (l.writeS v).rkWritten = l.rkWritten := rfl
@[simp] theorem Lane.writeS_upc : (l.writeS v).upc = l.upc := rfl
@[simp] theorem Lane.writeS_overrun : (l.writeS v).overrun = l.overrun := rfl
@[simp] theorem Lane.writeS_outCt : (l.writeS v).outCt = l.outCt := rfl
@[simp] theorem Lane.writeS_outCtWritten : (l.writeS v).outCtWritten = l.outCtWritten := rfl
@[simp] theorem Lane.writeS_outValid : (l.writeS v).outValid = l.outValid := rfl
@[simp] theorem Lane.writeS_err : (l.writeS v).err = l.err := rfl
@[simp] theorem Lane.writeS_powerUp : (l.writeS v).powerUp = l.powerUp := rfl

end

section
variable (l : Lane) (v : Schedule)

@[simp] theorem Lane.writeRk_inKlen : (l.writeRk v).inKlen = l.inKlen := rfl
@[simp] theorem Lane.writeRk_inKey : (l.writeRk v).inKey = l.inKey := rfl
@[simp] theorem Lane.writeRk_inKeyWritten : (l.writeRk v).inKeyWritten = l.inKeyWritten := rfl
@[simp] theorem Lane.writeRk_inPlen : (l.writeRk v).inPlen = l.inPlen := rfl
@[simp] theorem Lane.writeRk_inPt : (l.writeRk v).inPt = l.inPt := rfl
@[simp] theorem Lane.writeRk_inPtWritten : (l.writeRk v).inPtWritten = l.inPtWritten := rfl
@[simp] theorem Lane.writeRk_s : (l.writeRk v).s = l.s := rfl
@[simp] theorem Lane.writeRk_sWritten : (l.writeRk v).sWritten = l.sWritten := rfl
@[simp] theorem Lane.writeRk_rk : (l.writeRk v).rk = v := rfl
@[simp] theorem Lane.writeRk_rkWritten : (l.writeRk v).rkWritten = true := rfl
@[simp] theorem Lane.writeRk_upc : (l.writeRk v).upc = l.upc := rfl
@[simp] theorem Lane.writeRk_overrun : (l.writeRk v).overrun = l.overrun := rfl
@[simp] theorem Lane.writeRk_outCt : (l.writeRk v).outCt = l.outCt := rfl
@[simp] theorem Lane.writeRk_outCtWritten : (l.writeRk v).outCtWritten = l.outCtWritten := rfl
@[simp] theorem Lane.writeRk_outValid : (l.writeRk v).outValid = l.outValid := rfl
@[simp] theorem Lane.writeRk_err : (l.writeRk v).err = l.err := rfl
@[simp] theorem Lane.writeRk_powerUp : (l.writeRk v).powerUp = l.powerUp := rfl

end

section
variable (l : Lane) (v : Block)

@[simp] theorem Lane.writeOut_inKlen : (l.writeOut v).inKlen = l.inKlen := rfl
@[simp] theorem Lane.writeOut_inKey : (l.writeOut v).inKey = l.inKey := rfl
@[simp] theorem Lane.writeOut_inKeyWritten : (l.writeOut v).inKeyWritten = l.inKeyWritten := rfl
@[simp] theorem Lane.writeOut_inPlen : (l.writeOut v).inPlen = l.inPlen := rfl
@[simp] theorem Lane.writeOut_inPt : (l.writeOut v).inPt = l.inPt := rfl
@[simp] theorem Lane.writeOut_inPtWritten : (l.writeOut v).inPtWritten = l.inPtWritten := rfl
@[simp] theorem Lane.writeOut_s : (l.writeOut v).s = l.s := rfl
@[simp] theorem Lane.writeOut_sWritten : (l.writeOut v).sWritten = l.sWritten := rfl
@[simp] theorem Lane.writeOut_rk : (l.writeOut v).rk = l.rk := rfl
@[simp] theorem Lane.writeOut_rkWritten : (l.writeOut v).rkWritten = l.rkWritten := rfl
@[simp] theorem Lane.writeOut_upc : (l.writeOut v).upc = l.upc := rfl
@[simp] theorem Lane.writeOut_overrun : (l.writeOut v).overrun = l.overrun := rfl
@[simp] theorem Lane.writeOut_outCt : (l.writeOut v).outCt = v := rfl
@[simp] theorem Lane.writeOut_outCtWritten : (l.writeOut v).outCtWritten = .fill true := rfl
@[simp] theorem Lane.writeOut_outValid : (l.writeOut v).outValid = true := rfl
@[simp] theorem Lane.writeOut_err : (l.writeOut v).err = l.err := rfl
@[simp] theorem Lane.writeOut_powerUp : (l.writeOut v).powerUp = l.powerUp := rfl

end

section
variable (l : Lane) (v : BitVec 6)

@[simp] theorem Lane.setUpc_inKlen : (l.setUpc v).inKlen = l.inKlen := rfl
@[simp] theorem Lane.setUpc_inKey : (l.setUpc v).inKey = l.inKey := rfl
@[simp] theorem Lane.setUpc_inKeyWritten : (l.setUpc v).inKeyWritten = l.inKeyWritten := rfl
@[simp] theorem Lane.setUpc_inPlen : (l.setUpc v).inPlen = l.inPlen := rfl
@[simp] theorem Lane.setUpc_inPt : (l.setUpc v).inPt = l.inPt := rfl
@[simp] theorem Lane.setUpc_inPtWritten : (l.setUpc v).inPtWritten = l.inPtWritten := rfl
@[simp] theorem Lane.setUpc_s : (l.setUpc v).s = l.s := rfl
@[simp] theorem Lane.setUpc_sWritten : (l.setUpc v).sWritten = l.sWritten := rfl
@[simp] theorem Lane.setUpc_rk : (l.setUpc v).rk = l.rk := rfl
@[simp] theorem Lane.setUpc_rkWritten : (l.setUpc v).rkWritten = l.rkWritten := rfl
@[simp] theorem Lane.setUpc_upc : (l.setUpc v).upc = v := rfl
@[simp] theorem Lane.setUpc_overrun : (l.setUpc v).overrun = none := rfl
@[simp] theorem Lane.setUpc_outCt : (l.setUpc v).outCt = l.outCt := rfl
@[simp] theorem Lane.setUpc_outCtWritten : (l.setUpc v).outCtWritten = l.outCtWritten := rfl
@[simp] theorem Lane.setUpc_outValid : (l.setUpc v).outValid = l.outValid := rfl
@[simp] theorem Lane.setUpc_err : (l.setUpc v).err = l.err := rfl
@[simp] theorem Lane.setUpc_powerUp : (l.setUpc v).powerUp = l.powerUp := rfl

end

section
variable (l : Lane)

@[simp] theorem Lane.advance_inKlen : (l.advance).inKlen = l.inKlen := rfl
@[simp] theorem Lane.advance_inKey : (l.advance).inKey = l.inKey := rfl
@[simp] theorem Lane.advance_inKeyWritten : (l.advance).inKeyWritten = l.inKeyWritten := rfl
@[simp] theorem Lane.advance_inPlen : (l.advance).inPlen = l.inPlen := rfl
@[simp] theorem Lane.advance_inPt : (l.advance).inPt = l.inPt := rfl
@[simp] theorem Lane.advance_inPtWritten : (l.advance).inPtWritten = l.inPtWritten := rfl
@[simp] theorem Lane.advance_s : (l.advance).s = l.s := rfl
@[simp] theorem Lane.advance_sWritten : (l.advance).sWritten = l.sWritten := rfl
@[simp] theorem Lane.advance_rk : (l.advance).rk = l.rk := rfl
@[simp] theorem Lane.advance_rkWritten : (l.advance).rkWritten = l.rkWritten := rfl
@[simp] theorem Lane.advance_upc : (l.advance).upc = l.upc + 1 := rfl
@[simp] theorem Lane.advance_overrun : (l.advance).overrun = l.nextOverrun := rfl
@[simp] theorem Lane.advance_outCt : (l.advance).outCt = l.outCt := rfl
@[simp] theorem Lane.advance_outCtWritten : (l.advance).outCtWritten = l.outCtWritten := rfl
@[simp] theorem Lane.advance_outValid : (l.advance).outValid = l.outValid := rfl
@[simp] theorem Lane.advance_err : (l.advance).err = l.err := rfl
@[simp] theorem Lane.advance_powerUp : (l.advance).powerUp = l.powerUp := rfl

end

section
variable (l : Lane) (e : BitVec 2)

@[simp] theorem Lane.raise_inKlen : (l.raise e).inKlen = l.inKlen := rfl
@[simp] theorem Lane.raise_inKey : (l.raise e).inKey = l.inKey := rfl
@[simp] theorem Lane.raise_inKeyWritten : (l.raise e).inKeyWritten = l.inKeyWritten := rfl
@[simp] theorem Lane.raise_inPlen : (l.raise e).inPlen = l.inPlen := rfl
@[simp] theorem Lane.raise_inPt : (l.raise e).inPt = l.inPt := rfl
@[simp] theorem Lane.raise_inPtWritten : (l.raise e).inPtWritten = l.inPtWritten := rfl
@[simp] theorem Lane.raise_s : (l.raise e).s = l.s := rfl
@[simp] theorem Lane.raise_sWritten : (l.raise e).sWritten = l.sWritten := rfl
@[simp] theorem Lane.raise_rk : (l.raise e).rk = l.rk := rfl
@[simp] theorem Lane.raise_rkWritten : (l.raise e).rkWritten = l.rkWritten := rfl
@[simp] theorem Lane.raise_upc : (l.raise e).upc = upcFaulted := rfl
@[simp] theorem Lane.raise_overrun : (l.raise e).overrun = none := rfl
@[simp] theorem Lane.raise_outCt : (l.raise e).outCt = l.outCt := rfl
@[simp] theorem Lane.raise_outCtWritten : (l.raise e).outCtWritten = l.outCtWritten := rfl
@[simp] theorem Lane.raise_outValid : (l.raise e).outValid = l.outValid := rfl
@[simp] theorem Lane.raise_err : (l.raise e).err = e := rfl
@[simp] theorem Lane.raise_powerUp : (l.raise e).powerUp = l.powerUp := rfl

end

section
variable (l : Lane) (v : BitVec 6)

@[simp] theorem Lane.restart_inKlen : (l.restart v).inKlen = l.inKlen := rfl
@[simp] theorem Lane.restart_inKey : (l.restart v).inKey = l.inKey := rfl
@[simp] theorem Lane.restart_inKeyWritten : (l.restart v).inKeyWritten = l.inKeyWritten := rfl
@[simp] theorem Lane.restart_inPlen : (l.restart v).inPlen = l.inPlen := rfl
@[simp] theorem Lane.restart_inPt : (l.restart v).inPt = l.inPt := rfl
@[simp] theorem Lane.restart_inPtWritten : (l.restart v).inPtWritten = l.inPtWritten := rfl
@[simp] theorem Lane.restart_s : (l.restart v).s = l.s := rfl
@[simp] theorem Lane.restart_sWritten : (l.restart v).sWritten = l.sWritten := rfl
@[simp] theorem Lane.restart_rk : (l.restart v).rk = l.rk := rfl
@[simp] theorem Lane.restart_rkWritten : (l.restart v).rkWritten = l.rkWritten := rfl
@[simp] theorem Lane.restart_upc : (l.restart v).upc = v := rfl
@[simp] theorem Lane.restart_overrun : (l.restart v).overrun = none := rfl
@[simp] theorem Lane.restart_outCt : (l.restart v).outCt = l.outCt := rfl
@[simp] theorem Lane.restart_outCtWritten : (l.restart v).outCtWritten = l.outCtWritten := rfl
@[simp] theorem Lane.restart_outValid : (l.restart v).outValid = false := rfl
@[simp] theorem Lane.restart_err : (l.restart v).err = 0 := rfl
@[simp] theorem Lane.restart_powerUp : (l.restart v).powerUp = l.powerUp := rfl

end

section
variable (l : Lane) (k : List Byte)

@[simp] theorem Lane.loadKey_inKlen : (l.loadKey k).inKlen = storedLength k.length := rfl
@[simp] theorem Lane.loadKey_inKey : (l.loadKey k).inKey = l.inKey.overlay k := rfl
@[simp] theorem Lane.loadKey_inKeyWritten : (l.loadKey k).inKeyWritten = l.inKeyWritten.overlay (k.map fun _ => true) := rfl
@[simp] theorem Lane.loadKey_inPlen : (l.loadKey k).inPlen = l.inPlen := rfl
@[simp] theorem Lane.loadKey_inPt : (l.loadKey k).inPt = l.inPt := rfl
@[simp] theorem Lane.loadKey_inPtWritten : (l.loadKey k).inPtWritten = l.inPtWritten := rfl
@[simp] theorem Lane.loadKey_s : (l.loadKey k).s = l.s := rfl
@[simp] theorem Lane.loadKey_sWritten : (l.loadKey k).sWritten = l.sWritten := rfl
@[simp] theorem Lane.loadKey_rk : (l.loadKey k).rk = l.rk := rfl
@[simp] theorem Lane.loadKey_rkWritten : (l.loadKey k).rkWritten = l.rkWritten := rfl
@[simp] theorem Lane.loadKey_upc : (l.loadKey k).upc = l.upc := rfl
@[simp] theorem Lane.loadKey_overrun : (l.loadKey k).overrun = l.overrun := rfl
@[simp] theorem Lane.loadKey_outCt : (l.loadKey k).outCt = l.outCt := rfl
@[simp] theorem Lane.loadKey_outCtWritten : (l.loadKey k).outCtWritten = l.outCtWritten := rfl
@[simp] theorem Lane.loadKey_outValid : (l.loadKey k).outValid = l.outValid := rfl
@[simp] theorem Lane.loadKey_err : (l.loadKey k).err = l.err := rfl
@[simp] theorem Lane.loadKey_powerUp : (l.loadKey k).powerUp = l.powerUp := rfl

end

section
variable (l : Lane) (p : List Byte)

@[simp] theorem Lane.loadPt_inKlen : (l.loadPt p).inKlen = l.inKlen := rfl
@[simp] theorem Lane.loadPt_inKey : (l.loadPt p).inKey = l.inKey := rfl
@[simp] theorem Lane.loadPt_inKeyWritten : (l.loadPt p).inKeyWritten = l.inKeyWritten := rfl
@[simp] theorem Lane.loadPt_inPlen : (l.loadPt p).inPlen = storedLength p.length := rfl
@[simp] theorem Lane.loadPt_inPt : (l.loadPt p).inPt = l.inPt.overlay p := rfl
@[simp] theorem Lane.loadPt_inPtWritten : (l.loadPt p).inPtWritten = l.inPtWritten.overlay (p.map fun _ => true) := rfl
@[simp] theorem Lane.loadPt_s : (l.loadPt p).s = l.s := rfl
@[simp] theorem Lane.loadPt_sWritten : (l.loadPt p).sWritten = l.sWritten := rfl
@[simp] theorem Lane.loadPt_rk : (l.loadPt p).rk = l.rk := rfl
@[simp] theorem Lane.loadPt_rkWritten : (l.loadPt p).rkWritten = l.rkWritten := rfl
@[simp] theorem Lane.loadPt_upc : (l.loadPt p).upc = l.upc := rfl
@[simp] theorem Lane.loadPt_overrun : (l.loadPt p).overrun = l.overrun := rfl
@[simp] theorem Lane.loadPt_outCt : (l.loadPt p).outCt = l.outCt := rfl
@[simp] theorem Lane.loadPt_outCtWritten : (l.loadPt p).outCtWritten = l.outCtWritten := rfl
@[simp] theorem Lane.loadPt_outValid : (l.loadPt p).outValid = l.outValid := rfl
@[simp] theorem Lane.loadPt_err : (l.loadPt p).err = l.err := rfl
@[simp] theorem Lane.loadPt_powerUp : (l.loadPt p).powerUp = l.powerUp := rfl

end

section
variable (l : Lane) (k : Fin 16) (v : Byte)

@[simp] theorem Lane.putKeyByte_inKlen : (l.putKeyByte k v).inKlen = l.inKlen := rfl
@[simp] theorem Lane.putKeyByte_inKey : (l.putKeyByte k v).inKey = l.inKey.put k v := rfl
@[simp] theorem Lane.putKeyByte_inKeyWritten : (l.putKeyByte k v).inKeyWritten = l.inKeyWritten.put k true := rfl
@[simp] theorem Lane.putKeyByte_inPlen : (l.putKeyByte k v).inPlen = l.inPlen := rfl
@[simp] theorem Lane.putKeyByte_inPt : (l.putKeyByte k v).inPt = l.inPt := rfl
@[simp] theorem Lane.putKeyByte_inPtWritten : (l.putKeyByte k v).inPtWritten = l.inPtWritten := rfl
@[simp] theorem Lane.putKeyByte_s : (l.putKeyByte k v).s = l.s := rfl
@[simp] theorem Lane.putKeyByte_sWritten : (l.putKeyByte k v).sWritten = l.sWritten := rfl
@[simp] theorem Lane.putKeyByte_rk : (l.putKeyByte k v).rk = l.rk := rfl
@[simp] theorem Lane.putKeyByte_rkWritten : (l.putKeyByte k v).rkWritten = l.rkWritten := rfl
@[simp] theorem Lane.putKeyByte_upc : (l.putKeyByte k v).upc = l.upc := rfl
@[simp] theorem Lane.putKeyByte_overrun : (l.putKeyByte k v).overrun = l.overrun := rfl
@[simp] theorem Lane.putKeyByte_outCt : (l.putKeyByte k v).outCt = l.outCt := rfl
@[simp] theorem Lane.putKeyByte_outCtWritten : (l.putKeyByte k v).outCtWritten = l.outCtWritten := rfl
@[simp] theorem Lane.putKeyByte_outValid : (l.putKeyByte k v).outValid = l.outValid := rfl
@[simp] theorem Lane.putKeyByte_err : (l.putKeyByte k v).err = l.err := rfl
@[simp] theorem Lane.putKeyByte_powerUp : (l.putKeyByte k v).powerUp = l.powerUp := rfl

end

section
variable (l : Lane) (k : Fin 16) (v : Byte)

@[simp] theorem Lane.putPtByte_inKlen : (l.putPtByte k v).inKlen = l.inKlen := rfl
@[simp] theorem Lane.putPtByte_inKey : (l.putPtByte k v).inKey = l.inKey := rfl
@[simp] theorem Lane.putPtByte_inKeyWritten : (l.putPtByte k v).inKeyWritten = l.inKeyWritten := rfl
@[simp] theorem Lane.putPtByte_inPlen : (l.putPtByte k v).inPlen = l.inPlen := rfl
@[simp] theorem Lane.putPtByte_inPt : (l.putPtByte k v).inPt = l.inPt.put k v := rfl
@[simp] theorem Lane.putPtByte_inPtWritten : (l.putPtByte k v).inPtWritten = l.inPtWritten.put k true := rfl
@[simp] theorem Lane.putPtByte_s : (l.putPtByte k v).s = l.s := rfl
@[simp] theorem Lane.putPtByte_sWritten : (l.putPtByte k v).sWritten = l.sWritten := rfl
@[simp] theorem Lane.putPtByte_rk : (l.putPtByte k v).rk = l.rk := rfl
@[simp] theorem Lane.putPtByte_rkWritten : (l.putPtByte k v).rkWritten = l.rkWritten := rfl
@[simp] theorem Lane.putPtByte_upc : (l.putPtByte k v).upc = l.upc := rfl
@[simp] theorem Lane.putPtByte_overrun : (l.putPtByte k v).overrun = l.overrun := rfl
@[simp] theorem Lane.putPtByte_outCt : (l.putPtByte k v).outCt = l.outCt := rfl
@[simp] theorem Lane.putPtByte_outCtWritten : (l.putPtByte k v).outCtWritten = l.outCtWritten := rfl
@[simp] theorem Lane.putPtByte_outValid : (l.putPtByte k v).outValid = l.outValid := rfl
@[simp] theorem Lane.putPtByte_err : (l.putPtByte k v).err = l.err := rfl
@[simp] theorem Lane.putPtByte_powerUp : (l.putPtByte k v).powerUp = l.powerUp := rfl

end

section
variable (l : Lane) (k : Fin 16) (v : Byte)

@[simp] theorem Lane.putOutByte_inKlen : (l.putOutByte k v).inKlen = l.inKlen := rfl
@[simp] theorem Lane.putOutByte_inKey : (l.putOutByte k v).inKey = l.inKey := rfl
@[simp] theorem Lane.putOutByte_inKeyWritten : (l.putOutByte k v).inKeyWritten = l.inKeyWritten := rfl
@[simp] theorem Lane.putOutByte_inPlen : (l.putOutByte k v).inPlen = l.inPlen := rfl
@[simp] theorem Lane.putOutByte_inPt : (l.putOutByte k v).inPt = l.inPt := rfl
@[simp] theorem Lane.putOutByte_inPtWritten : (l.putOutByte k v).inPtWritten = l.inPtWritten := rfl
@[simp] theorem Lane.putOutByte_s : (l.putOutByte k v).s = l.s := rfl
@[simp] theorem Lane.putOutByte_sWritten : (l.putOutByte k v).sWritten = l.sWritten := rfl
@[simp] theorem Lane.putOutByte_rk : (l.putOutByte k v).rk = l.rk := rfl
@[simp] theorem Lane.putOutByte_rkWritten : (l.putOutByte k v).rkWritten = l.rkWritten := rfl
@[simp] theorem Lane.putOutByte_upc : (l.putOutByte k v).upc = l.upc := rfl
@[simp] theorem Lane.putOutByte_overrun : (l.putOutByte k v).overrun = l.overrun := rfl
@[simp] theorem Lane.putOutByte_outCt : (l.putOutByte k v).outCt = l.outCt.put k v := rfl
@[simp] theorem Lane.putOutByte_outCtWritten : (l.putOutByte k v).outCtWritten = l.outCtWritten.put k true := rfl
@[simp] theorem Lane.putOutByte_outValid : (l.putOutByte k v).outValid = l.outValid := rfl
@[simp] theorem Lane.putOutByte_err : (l.putOutByte k v).err = l.err := rfl
@[simp] theorem Lane.putOutByte_powerUp : (l.putOutByte k v).powerUp = l.powerUp := rfl

end

section
variable (l : Lane) (f : Block → Block)

@[simp] theorem Lane.transform_inKlen : (l.transform f).inKlen = l.inKlen := rfl
@[simp] theorem Lane.transform_inKey : (l.transform f).inKey = l.inKey := rfl
@[simp] theorem Lane.transform_inKeyWritten : (l.transform f).inKeyWritten = l.inKeyWritten := rfl
@[simp] theorem Lane.transform_inPlen : (l.transform f).inPlen = l.inPlen := rfl
@[simp] theorem Lane.transform_inPt : (l.transform f).inPt = l.inPt := rfl
@[simp] theorem Lane.transform_inPtWritten : (l.transform f).inPtWritten = l.inPtWritten := rfl
@[simp] theorem Lane.transform_s : (l.transform f).s = f l.readS := rfl
@[simp] theorem Lane.transform_sWritten : (l.transform f).sWritten = true := rfl
@[simp] theorem Lane.transform_rk : (l.transform f).rk = l.rk := rfl
@[simp] theorem Lane.transform_rkWritten : (l.transform f).rkWritten = l.rkWritten := rfl
@[simp] theorem Lane.transform_upc : (l.transform f).upc = l.upc + 1 := rfl
@[simp] theorem Lane.transform_overrun : (l.transform f).overrun = l.nextOverrun := rfl
@[simp] theorem Lane.transform_outCt : (l.transform f).outCt = l.outCt := rfl
@[simp] theorem Lane.transform_outCtWritten : (l.transform f).outCtWritten = l.outCtWritten := rfl
@[simp] theorem Lane.transform_outValid : (l.transform f).outValid = l.outValid := rfl
@[simp] theorem Lane.transform_err : (l.transform f).err = l.err := rfl
@[simp] theorem Lane.transform_powerUp : (l.transform f).powerUp = l.powerUp := rfl

end

section
variable (l : Lane)

@[simp] theorem Lane.launched_inKlen : (l.launched).inKlen = l.inKlen := rfl
@[simp] theorem Lane.launched_inKey : (l.launched).inKey = l.inKey := rfl
@[simp] theorem Lane.launched_inKeyWritten : (l.launched).inKeyWritten = .fill true := rfl
@[simp] theorem Lane.launched_inPlen : (l.launched).inPlen = l.inPlen := rfl
@[simp] theorem Lane.launched_inPt : (l.launched).inPt = l.inPt := rfl
@[simp] theorem Lane.launched_inPtWritten : (l.launched).inPtWritten = .fill true := rfl
@[simp] theorem Lane.launched_s : (l.launched).s = l.s := rfl
@[simp] theorem Lane.launched_sWritten : (l.launched).sWritten = l.sWritten := rfl
@[simp] theorem Lane.launched_rk : (l.launched).rk = l.rk := rfl
@[simp] theorem Lane.launched_rkWritten : (l.launched).rkWritten = l.rkWritten := rfl
@[simp] theorem Lane.launched_upc : (l.launched).upc = upcStart := rfl
@[simp] theorem Lane.launched_overrun : (l.launched).overrun = none := rfl
@[simp] theorem Lane.launched_outCt : (l.launched).outCt = l.outCt := rfl
@[simp] theorem Lane.launched_outCtWritten : (l.launched).outCtWritten = l.outCtWritten := rfl
@[simp] theorem Lane.launched_outValid : (l.launched).outValid = l.outValid := rfl
@[simp] theorem Lane.launched_err : (l.launched).err = l.err := rfl
@[simp] theorem Lane.launched_powerUp : (l.launched).powerUp = l.powerUp := rfl

end

section
variable (s : State) (i : Nat) (l : Lane)

@[simp] theorem State.putLane_lanes : (s.putLane i l).lanes = s.lanes.set i l := rfl
@[simp] theorem State.putLane_count : (s.putLane i l).count = s.count := rfl
@[simp] theorem State.putLane_busy : (s.putLane i l).busy = s.busy := rfl
@[simp] theorem State.putLane_done : (s.putLane i l).done = s.done := rfl
@[simp] theorem State.putLane_berr : (s.putLane i l).berr = s.berr := rfl
@[simp] theorem State.putLane_ctrl : (s.putLane i l).ctrl = s.ctrl := rfl
@[simp] theorem State.putLane_agenda : (s.putLane i l).agenda = s.agenda := rfl
@[simp] theorem State.putLane_cur : (s.putLane i l).cur = s.cur := rfl
@[simp] theorem State.putLane_choices : (s.putLane i l).choices = s.choices := rfl
@[simp] theorem State.putLane_replies : (s.putLane i l).replies = s.replies := rfl

end

section
variable (s : State)

@[simp] theorem State.raiseLaneCountMismatch_lanes : (s.raiseLaneCountMismatch).lanes = s.lanes.map fun l => l.restart upcIdle := rfl
@[simp] theorem State.raiseLaneCountMismatch_count : (s.raiseLaneCountMismatch).count = s.count := rfl
@[simp] theorem State.raiseLaneCountMismatch_busy : (s.raiseLaneCountMismatch).busy = false := rfl
@[simp] theorem State.raiseLaneCountMismatch_done : (s.raiseLaneCountMismatch).done = true := rfl
@[simp] theorem State.raiseLaneCountMismatch_berr : (s.raiseLaneCountMismatch).berr = true := rfl
@[simp] theorem State.raiseLaneCountMismatch_ctrl : (s.raiseLaneCountMismatch).ctrl = s.ctrl := rfl
@[simp] theorem State.raiseLaneCountMismatch_agenda : (s.raiseLaneCountMismatch).agenda = s.agenda := rfl
@[simp] theorem State.raiseLaneCountMismatch_cur : (s.raiseLaneCountMismatch).cur = s.cur := rfl
@[simp] theorem State.raiseLaneCountMismatch_choices : (s.raiseLaneCountMismatch).choices = s.choices := rfl
@[simp] theorem State.raiseLaneCountMismatch_replies : (s.raiseLaneCountMismatch).replies = s.replies := rfl

end

section
variable (s : State)

@[simp] theorem State.completeBatch_lanes : (s.completeBatch).lanes = s.lanes := rfl
@[simp] theorem State.completeBatch_count : (s.completeBatch).count = s.count := rfl
@[simp] theorem State.completeBatch_busy : (s.completeBatch).busy = false := rfl
@[simp] theorem State.completeBatch_done : (s.completeBatch).done = true := rfl
@[simp] theorem State.completeBatch_berr : (s.completeBatch).berr = s.berr := rfl
@[simp] theorem State.completeBatch_ctrl : (s.completeBatch).ctrl = s.ctrl := rfl
@[simp] theorem State.completeBatch_agenda : (s.completeBatch).agenda = s.agenda := rfl
@[simp] theorem State.completeBatch_cur : (s.completeBatch).cur = s.cur := rfl
@[simp] theorem State.completeBatch_choices : (s.completeBatch).choices = s.choices := rfl
@[simp] theorem State.completeBatch_replies : (s.completeBatch).replies = s.replies := rfl

end

section
variable (s : State)

@[simp] theorem State.resetEngine_lanes : (s.resetEngine).lanes = s.lanes.map fun l => Lane.reset (l.powerUp + s.lanes.length) := rfl
@[simp] theorem State.resetEngine_count : (s.resetEngine).count = 0 := rfl
@[simp] theorem State.resetEngine_busy : (s.resetEngine).busy = false := rfl
@[simp] theorem State.resetEngine_done : (s.resetEngine).done = false := rfl
@[simp] theorem State.resetEngine_berr : (s.resetEngine).berr = false := rfl
@[simp] theorem State.resetEngine_ctrl : (s.resetEngine).ctrl = s.ctrl := rfl
@[simp] theorem State.resetEngine_agenda : (s.resetEngine).agenda = s.agenda := rfl
@[simp] theorem State.resetEngine_cur : (s.resetEngine).cur = s.cur := rfl
@[simp] theorem State.resetEngine_choices : (s.resetEngine).choices = s.choices := rfl
@[simp] theorem State.resetEngine_replies : (s.resetEngine).replies = s.replies := rfl

end

section
variable (s : State) (r : Reply)

@[simp] theorem State.answer_lanes : (s.answer r).lanes = s.lanes := rfl
@[simp] theorem State.answer_count : (s.answer r).count = s.count := rfl
@[simp] theorem State.answer_busy : (s.answer r).busy = s.busy := rfl
@[simp] theorem State.answer_done : (s.answer r).done = s.done := rfl
@[simp] theorem State.answer_berr : (s.answer r).berr = s.berr := rfl
@[simp] theorem State.answer_ctrl : (s.answer r).ctrl = s.ctrl := rfl
@[simp] theorem State.answer_agenda : (s.answer r).agenda = s.agenda := rfl
@[simp] theorem State.answer_cur : (s.answer r).cur = s.cur := rfl
@[simp] theorem State.answer_choices : (s.answer r).choices = s.choices := rfl
@[simp] theorem State.answer_replies : (s.answer r).replies = s.replies ++ [r] := rfl

end

section
variable (s : State) (w : Byte)

@[simp] theorem State.placeWord_lanes : (s.placeWord w).lanes = s.lanes.modifyHead Lane.launched := rfl
@[simp] theorem State.placeWord_count : (s.placeWord w).count = s.count := rfl
@[simp] theorem State.placeWord_busy : (s.placeWord w).busy = true := rfl
@[simp] theorem State.placeWord_done : (s.placeWord w).done = false := rfl
@[simp] theorem State.placeWord_berr : (s.placeWord w).berr = s.berr := rfl
@[simp] theorem State.placeWord_ctrl : (s.placeWord w).ctrl = s.ctrl.place w := rfl
@[simp] theorem State.placeWord_agenda : (s.placeWord w).agenda = .lane 0 :: s.agenda := rfl
@[simp] theorem State.placeWord_cur : (s.placeWord w).cur = s.cur := rfl
@[simp] theorem State.placeWord_choices : (s.placeWord w).choices = s.choices := rfl
@[simp] theorem State.placeWord_replies : (s.placeWord w).replies = s.replies := rfl

end

section
variable (p : Nat)

@[simp] theorem Lane.reset_inKlen : (Lane.reset p).inKlen = 0 := rfl
@[simp] theorem Lane.reset_inKey : (Lane.reset p).inKey = .fill 0 := rfl
@[simp] theorem Lane.reset_inKeyWritten : (Lane.reset p).inKeyWritten = .fill false := rfl
@[simp] theorem Lane.reset_inPlen : (Lane.reset p).inPlen = 0 := rfl
@[simp] theorem Lane.reset_inPt : (Lane.reset p).inPt = .fill 0 := rfl
@[simp] theorem Lane.reset_inPtWritten : (Lane.reset p).inPtWritten = .fill false := rfl
@[simp] theorem Lane.reset_s : (Lane.reset p).s = .fill 0 := rfl
@[simp] theorem Lane.reset_sWritten : (Lane.reset p).sWritten = false := rfl
@[simp] theorem Lane.reset_rk : (Lane.reset p).rk = .fill (.fill 0) := rfl
@[simp] theorem Lane.reset_rkWritten : (Lane.reset p).rkWritten = false := rfl
@[simp] theorem Lane.reset_upc : (Lane.reset p).upc = 63 := rfl
@[simp] theorem Lane.reset_overrun : (Lane.reset p).overrun = none := rfl
@[simp] theorem Lane.reset_outCt : (Lane.reset p).outCt = .fill 0 := rfl
@[simp] theorem Lane.reset_outCtWritten : (Lane.reset p).outCtWritten = .fill false := rfl
@[simp] theorem Lane.reset_outValid : (Lane.reset p).outValid = false := rfl
@[simp] theorem Lane.reset_err : (Lane.reset p).err = 0 := rfl
@[simp] theorem Lane.reset_powerUp : (Lane.reset p).powerUp = p := rfl

end

section
variable (s : State)

@[simp] theorem State.startBatch_count : s.startBatch.count = s.count := by unfold State.startBatch; split <;> rfl
@[simp] theorem State.startBatch_ctrl : s.startBatch.ctrl = s.ctrl := by unfold State.startBatch; split <;> rfl
@[simp] theorem State.startBatch_agenda : s.startBatch.agenda = s.agenda := by unfold State.startBatch; split <;> rfl
@[simp] theorem State.startBatch_cur : s.startBatch.cur = s.cur := by unfold State.startBatch; split <;> rfl
@[simp] theorem State.startBatch_choices : s.startBatch.choices = s.choices := by unfold State.startBatch; split <;> rfl
@[simp] theorem State.startBatch_replies : s.startBatch.replies = s.replies := by unfold State.startBatch; split <;> rfl

end

end Sys2Proof.Machine
end

