-- ==== Sys2Proof/Laws/Ops.lean ====
section
/-! SUPPORT. What the shared operations can do, said once: a micro-operation confined to its lane, the working registers
after a write, the length errors, the byte reads, and each meaning as a function of its lane. -/

namespace Sys2Proof.Machine

/-! ### The executing lane -/

/-- A confined micro-operation answers what its lane function answers. -/
theorem onLane_of {f : Lane → LaneOutcome} {s : State} {l : Lane} (h : s.lanes[s.cur]? = some l) :
    onLane f s = match f l with
      | .next l' => .next (s.putLane s.cur l')
      | .fault r => .fault r
      | .refused r => .refused r := by
  cases hf : f l <;> simp [onLane, h, hf]

/-- If it answers a next state, only the executing lane has changed, and as the lane function says. -/
theorem onLane_next {f : Lane → LaneOutcome} {s t : State} (h : onLane f s = .next t) :
    ∃ l l', s.lanes[s.cur]? = some l ∧ f l = .next l' ∧ t = s.putLane s.cur l' := by
  unfold onLane at h
  split at h
  · cases h
  · next l hl =>
    split at h
    · next l' hf => cases h; exact ⟨l, l', hl, hf, rfl⟩
    · cases h
    · cases h

theorem State.putLane_getElem?_self {s : State} {i : Nat} {l : Lane} (h : s.lanes[i]? = some l) (l' : Lane) :
    (s.putLane i l').lanes[i]? = some l' := by
  have : i < s.lanes.length := (List.getElem?_eq_some_iff.1 h).1
  simp [this]

theorem State.putLane_getElem?_ne (s : State) {i j : Nat} (h : j ≠ i) (l : Lane) :
    (s.putLane i l).lanes[j]? = s.lanes[j]? := by
  simp [List.getElem?_set_ne (Ne.symm h)]

theorem State.putLane_length (s : State) (i : Nat) (l : Lane) : (s.putLane i l).lanes.length = s.lanes.length := by
  simp

/-- A lane of the state after `putLane` is the new one or one that was there. -/
theorem State.mem_putLane {s : State} {i : Nat} {l m : Lane} (h : m ∈ (s.putLane i l).lanes) : m = l ∨ m ∈ s.lanes :=
  (List.mem_or_eq_of_mem_set h).symm

/-! ### The working registers -/

@[simp] theorem Lane.readS_writeS (l : Lane) (v : Block) : (l.writeS v).readS = v := rfl
@[simp] theorem Lane.readS_writeRk (l : Lane) (v : Schedule) : (l.writeRk v).readS = l.readS := rfl
@[simp] theorem Lane.readS_writeOut (l : Lane) (v : Block) : (l.writeOut v).readS = l.readS := rfl
@[simp] theorem Lane.readS_setUpc (l : Lane) (v : BitVec 6) : (l.setUpc v).readS = l.readS := rfl
@[simp] theorem Lane.readS_advance (l : Lane) : l.advance.readS = l.readS := rfl
@[simp] theorem Lane.readS_raise (l : Lane) (e : BitVec 2) : (l.raise e).readS = l.readS := rfl
@[simp] theorem Lane.readS_restart (l : Lane) (v : BitVec 6) : (l.restart v).readS = l.readS := rfl
@[simp] theorem Lane.readS_transform (l : Lane) (f : Block → Block) : (l.transform f).readS = f l.readS := rfl
@[simp] theorem Lane.readRk_writeS (l : Lane) (v : Block) : (l.writeS v).readRk = l.readRk := rfl
@[simp] theorem Lane.readRk_writeRk (l : Lane) (v : Schedule) : (l.writeRk v).readRk = v := rfl
@[simp] theorem Lane.readRk_writeOut (l : Lane) (v : Block) : (l.writeOut v).readRk = l.readRk := rfl
@[simp] theorem Lane.readRk_setUpc (l : Lane) (v : BitVec 6) : (l.setUpc v).readRk = l.readRk := rfl
@[simp] theorem Lane.readRk_advance (l : Lane) : l.advance.readRk = l.readRk := rfl
@[simp] theorem Lane.readRk_raise (l : Lane) (e : BitVec 2) : (l.raise e).readRk = l.readRk := rfl
@[simp] theorem Lane.readRk_restart (l : Lane) (v : BitVec 6) : (l.restart v).readRk = l.readRk := rfl
@[simp] theorem Lane.readRk_transform (l : Lane) (f : Block → Block) : (l.transform f).readRk = l.readRk := rfl

/-- The key reads as a value exactly when each of its bytes has been written. -/
theorem Lane.readKey_eq_some_iff (l : Lane) (k : Block) :
    l.readKey = some k ↔ l.inKeyWritten.allSet = true ∧ l.inKey = k := by
  unfold Lane.readKey; split <;> simp_all

/-- The plaintext reads as a value exactly when each of its bytes has been written. -/
theorem Lane.readPt_eq_some_iff (l : Lane) (p : Block) :
    l.readPt = some p ↔ l.inPtWritten.allSet = true ∧ l.inPt = p := by
  unfold Lane.readPt; split <;> simp_all

/-! ### Flags and operands -/

/-- There is no error exactly when both lengths are 16. -/
theorem lengthErrors_eq_zero_iff (a b : BitVec 8) : lengthErrors a b = 0 ↔ a = 16 ∧ b = 16 := by
  unfold lengthErrors invalidKeyLength invalidBlockLength
  by_cases ha : a = 16 <;> by_cases hb : b = 16 <;> simp [ha, hb]

/-- Bit 0 says that the key length is not 16. -/
theorem lengthErrors_bit0 (a b : BitVec 8) : (lengthErrors a b).getLsbD 0 = decide (a ≠ 16) := by
  unfold lengthErrors invalidKeyLength invalidBlockLength
  by_cases ha : a = 16 <;> by_cases hb : b = 16 <;>
    simp only [ha, hb, ↓reduceIte, ne_eq, not_true_eq_false, not_false_eq_true] <;> rfl

/-- Bit 1 says that the plaintext length is not 16. -/
theorem lengthErrors_bit1 (a b : BitVec 8) : (lengthErrors a b).getLsbD 1 = decide (b ≠ 16) := by
  unfold lengthErrors invalidKeyLength invalidBlockLength
  by_cases ha : a = 16 <;> by_cases hb : b = 16 <;>
    simp only [ha, hb, ↓reduceIte, ne_eq, not_true_eq_false, not_false_eq_true] <;> rfl

/-- A supplied length is stored as 16 exactly when it is 16 (spec/44_batch_driver.md R183). -/
theorem storedLength_eq_16_iff (n : Nat) : storedLength n = 16 ↔ n = 16 := by
  unfold storedLength
  constructor
  · intro h
    have := congrArg BitVec.toNat h
    simp at this
    omega
  · rintro rfl; rfl

theorem roundKeyIndex_of_le {r : BitVec 4} (h : r.toNat ≤ 10) : roundKeyIndex r = some ⟨r.toNat, by omega⟩ := by
  unfold roundKeyIndex; rw [dif_pos (by omega)]

theorem roundKeyIndex_of_gt {r : BitVec 4} (h : 10 < r.toNat) : roundKeyIndex r = none := by
  unfold roundKeyIndex; rw [dif_neg (by omega)]

/-! ### The place of a lane -/

/-- The fetch of a lane that `UPC` places, from the hardware's control store: `CTRL_ROM[UPC]`
(spec/43_cipher_pipeline.md R155). -/
theorem fetch_rom {l : Lane} (ho : l.overrun = none) : ControlStore.rom.fetch l = ctrlRom l.upc.toNat := by
  unfold ControlStore.fetch Lane.place
  rw [ho]
  by_cases h : l.upc.toNat < 44
  · simp [h]
  · have : ctrlRom l.upc.toNat = none := List.getElem?_eq_none (by show 44 ≤ l.upc.toNat; omega)
    simp [h, this]

/-- With the hardware's control store and no overrun a lane has a step exactly when `UPC` is 0 to 43
(spec/43_cipher_pipeline.md R155). -/
theorem running_rom {l : Lane} (ho : l.overrun = none) : l.running .rom = decide (l.upc.toNat < 44) := by
  have hl : ctrlRomTable.length = 44 := rfl
  by_cases h : l.upc.toNat < 44 <;> simp [Lane.running, fetch_rom ho, ctrlRom, hl, h]

/-- With the hardware's control store a lane that has a step is at a place below 44, which `UPC` names. -/
theorem place_of_running_rom {l : Lane} (h : l.running .rom = true) : l.overrun = none ∧ l.upc.toNat < 44 := by
  cases ho : l.overrun with
  | none => exact ⟨rfl, by simpa [running_rom ho] using h⟩
  | some n => simp [Lane.running, ControlStore.fetch, Lane.place, ho, ControlStore.read, ControlStore.rom] at h

/-- A lane at a place has a step exactly when the store has a word there. -/
theorem running_iff {c : ControlStore} {l : Lane} : l.running c = true ↔ ∃ w, c.fetch l = some w := by
  simp [Lane.running, Option.isSome_iff_exists]

theorem not_running_iff {c : ControlStore} {l : Lane} : l.running c = false ↔ c.fetch l = none := by
  simp [Lane.running]

/-- A settled lane is at no place. -/
theorem place_of_settled {l : Lane} (h : l.settled = true) : l.place = none := by
  simp only [Lane.settled, decide_eq_true_eq] at h
  obtain ⟨ho, h⟩ := h
  have : ¬ l.upc.toNat < 44 := by rcases h with h | h | h <;> rw [h] <;> decide
  simp [Lane.place, ho, this]

/-- A settled lane has no step, whatever the store. -/
theorem fetch_of_settled {l : Lane} (h : l.settled = true) (c : ControlStore) : c.fetch l = none := by
  rw [ControlStore.fetch, place_of_settled h]

/-- From a place below 43 the next one is below 44. -/
theorem nextOverrun_eq_none {l : Lane} (ho : l.overrun = none) (h : l.upc.toNat ≠ 43) : l.nextOverrun = none := by
  have : l.upc ≠ 43 := fun e => h (by rw [e]; rfl)
  rw [Lane.nextOverrun, ho]
  exact if_neg this

/-- The place after a lane's: the next one (spec/43_cipher_pipeline.md R156, spec/30_encoding.md R93). -/
theorem place_advance {l : Lane} {u : Nat} (h : l.place = some u) : l.advance.place = some (u + 1) := by
  cases ho : l.overrun with
  | some n =>
    simp only [Lane.place, ho, Option.some.injEq] at h
    simp [Lane.place, Lane.advance, Lane.nextOverrun, ho]; omega
  | none =>
    simp only [Lane.place, ho] at h
    split at h
    · next hu =>
      cases h
      by_cases h43 : l.upc = 43
      · simp [Lane.place, Lane.advance, Lane.nextOverrun, ho, h43]
      · have h43' : l.upc.toNat ≠ 43 := fun e => h43 (BitVec.eq_of_toNat_eq e)
        have e : (l.upc + 1).toNat = l.upc.toNat + 1 := by simp [BitVec.toNat_add]; omega
        simp only [Lane.place, Lane.advance, Lane.nextOverrun, ho, h43, if_false, e]
        rw [if_pos (by omega)]
    · cases h

/-- The lane after a micro-operation without error is not settled: `Done` is STORECT's alone (spec/30_encoding.md R93). -/
theorem settled_advance {l : Lane} {u : Nat} (h : l.place = some u) : l.advance.settled = false := by
  cases hs : l.advance.settled with
  | false => rfl
  | true => cases (place_of_settled hs).symm.trans (place_advance h)

/-! ### The bytes of a lane -/

theorem memRead_putLane_self {s : State} {i : Nat} {l : Lane} (h : s.lanes[i]? = some l) (l' : Lane) {sp : Space}
    (hsp : sp ≠ .ctrl) (k : Nat) : memRead (s.putLane i l') sp i k = l'.memRead sp k := by
  cases sp <;> first | exact absurd rfl hsp | rfl | simp only [memRead, State.putLane_getElem?_self h]

theorem memRead_putLane_ne (s : State) {i j : Nat} (h : j ≠ i) (l : Lane) (sp : Space) (k : Nat) :
    memRead (s.putLane i l) sp j k = memRead s sp j k := by
  cases sp <;> simp only [memRead, State.putLane_getElem?_ne s h, State.putLane_ctrl]

theorem memRead_of {s : State} {i : Nat} {l : Lane} (h : s.lanes[i]? = some l) {sp : Space} (hsp : sp ≠ .ctrl) (k : Nat) :
    memRead s sp i k = l.memRead sp k := by
  cases sp <;> first | exact absurd rfl hsp | rfl | simp only [memRead, h]

/-! ### Meanings -/

/-- The lane function of each micro-operation. -/
def laneExec : Instr → Lane → LaneOutcome
  | .validate => laneValidate
  | .keyexpand => laneKeyexpand
  | .loadpt => laneLoadpt
  | .addroundkey r => laneAddroundkey r
  | .subbytes => fun l => .next (l.transform subBytesF)
  | .shiftrows => fun l => .next (l.transform shiftRowsF)
  | .mixcolumns => fun l => .next (l.transform mixColumnsF)
  | .storect => laneStorect

/-- Every meaning is confined to its lane (spec/10_state.md R20). -/
theorem exec_eq_onLane (i : Instr) (s : State) : exec i s = onLane (laneExec i) s := by
  cases i <;> rfl

/-- If a micro-operation answers a next state, only the executing lane has changed, as its lane function says. -/
theorem exec_next {i : Instr} {s t : State} (h : exec i s = .next t) :
    ∃ l l', s.lanes[s.cur]? = some l ∧ laneExec i l = .next l' ∧ t = s.putLane s.cur l' :=
  onLane_next (exec_eq_onLane i s ▸ h)

/-- A micro-operation of a lane that is there answers what its lane function answers. -/
theorem exec_of {i : Instr} {s : State} {l l' : Lane} (h : s.lanes[s.cur]? = some l) (hl : laneExec i l = .next l') :
    exec i s = .next (s.putLane s.cur l') := by
  rw [exec_eq_onLane, onLane_of h, hl]

/-- How a micro-operation that answers a next lane changes its lane. -/
def LaneEffect (l l' : Lane) : Instr → Prop
  | .validate => (l.inKlen = 16 ∧ l.inPlen = 16 ∧ l' = l.advance) ∨
      (lengthErrors l.inKlen l.inPlen ≠ 0 ∧ l' = l.raise (lengthErrors l.inKlen l.inPlen))
  | .keyexpand => ∃ k, l.readKey = some k ∧ l' = (l.writeRk (expandKey k)).advance
  | .loadpt => ∃ p, l.readPt = some p ∧ l' = (l.writeS p).advance
  | .addroundkey r => ∃ j, roundKeyIndex r = some j ∧ l' = l.transform fun x => addRoundKeyF x l.readRk j
  | .subbytes => l' = l.transform subBytesF
  | .shiftrows => l' = l.transform shiftRowsF
  | .mixcolumns => l' = l.transform mixColumnsF
  | .storect => l' = (l.writeOut l.readS).setUpc upcDone

/-- Everything a lane function can do when it answers a next lane. -/
theorem laneExec_next {i : Instr} {l l' : Lane} (h : laneExec i l = .next l') : LaneEffect l l' i := by
  cases i with
  | validate =>
    simp only [laneExec, laneValidate] at h
    split at h
    · next e => cases h; exact .inl ⟨((lengthErrors_eq_zero_iff _ _).1 e).1, ((lengthErrors_eq_zero_iff _ _).1 e).2, rfl⟩
    · next e => cases h; exact .inr ⟨e, rfl⟩
  | keyexpand =>
    simp only [laneExec, laneKeyexpand] at h
    split at h
    · cases h
    · next k hk => cases h; exact ⟨k, hk, rfl⟩
  | loadpt =>
    simp only [laneExec, laneLoadpt] at h
    split at h
    · cases h
    · next p hp => cases h; exact ⟨p, hp, rfl⟩
  | addroundkey r =>
    simp only [laneExec, laneAddroundkey] at h
    split at h
    · cases h
    · next j hj => cases h; exact ⟨j, hj, rfl⟩
  | subbytes => cases h; rfl
  | shiftrows => cases h; rfl
  | mixcolumns => cases h; rfl
  | storect => cases h; rfl

end Sys2Proof.Machine
end

