-- ==== Sys2Proof/Laws/Batch.lean ====
section
/-! SUPPORT. What START, the host's writes, the step of a lane and a step of the engine can do, said once. -/

namespace Sys2Proof.Machine

/-! ### START -/

theorem startLanes_length (m : Nat) (ls : List Lane) : (startLanes m ls).length = ls.length := by
  induction ls generalizing m with
  | nil => cases m <;> rfl
  | cons l ls ih => cases m <;> simp [startLanes, ih]

/-- START selects exactly the lanes below `m` (spec/44_batch_driver.md R184). -/
theorem startLanes_getElem? (m : Nat) (ls : List Lane) (i : Nat) :
    (startLanes m ls)[i]? = (ls[i]?).map fun l => l.restart (if i < m then upcStart else upcIdle) := by
  induction ls generalizing m i with
  | nil => cases m <;> rfl
  | cons l ls ih =>
    cases m with
    | zero => cases i <;> simp [startLanes, ih]
    | succ m => cases i <;> simp [startLanes, ih]

/-! ### Host actions -/

/-- A host write that answers a next state was made while `BUSY = 0`, to a lane that is there. -/
theorem hostWriteLane_next {s t : State} {i : Nat} {f : Lane → Lane} (h : hostWriteLane s i f = .next t) :
    s.busy = false ∧ ∃ l, s.lanes[i]? = some l ∧ t = s.putLane i (f l) := by
  unfold hostWriteLane at h
  split at h
  · cases h
  · next hb =>
    split at h
    · cases h
    · next l hl => cases h; exact ⟨by simpa using hb, l, hl, rfl⟩

/-- What a host action can do when it answers a next state: write one lane's input slot or `COUNT` while `BUSY = 0`,
START while `BUSY = 0`, answer a read, or reset. -/
theorem hostAct_next {a : HostAction} {s t : State} (h : hostAct a s = .next t) :
    (∃ i l l', s.busy = false ∧ s.lanes[i]? = some l ∧ t = s.putLane i l' ∧
      l' = { l with inKlen := l'.inKlen, inKey := l'.inKey, inKeyWritten := l'.inKeyWritten,
                    inPlen := l'.inPlen, inPt := l'.inPt, inPtWritten := l'.inPtWritten }) ∨
    (∃ m, s.busy = false ∧ t = { s with count := m }) ∨
    (a = .start ∧ s.busy = false ∧ t = s.startBatch) ∨
    (∃ r, t = s.answer r) ∨
    (a = .reset ∧ t = s.resetEngine) := by
  cases a with
  | loadPair i k p =>
    obtain ⟨hb, l, hl, rfl⟩ := hostWriteLane_next h
    exact .inl ⟨i, l, _, hb, hl, rfl, rfl⟩
  | writeKeyLength i n =>
    obtain ⟨hb, l, hl, rfl⟩ := hostWriteLane_next h
    exact .inl ⟨i, l, _, hb, hl, rfl, rfl⟩
  | writeKeyByte i k v =>
    obtain ⟨hb, l, hl, rfl⟩ := hostWriteLane_next h
    exact .inl ⟨i, l, _, hb, hl, rfl, rfl⟩
  | writeBlockLength i n =>
    obtain ⟨hb, l, hl, rfl⟩ := hostWriteLane_next h
    exact .inl ⟨i, l, _, hb, hl, rfl, rfl⟩
  | writeBlockByte i k v =>
    obtain ⟨hb, l, hl, rfl⟩ := hostWriteLane_next h
    exact .inl ⟨i, l, _, hb, hl, rfl, rfl⟩
  | setCount m =>
    simp only [hostAct, hostSetCount] at h
    split at h
    · cases h
    · next hb => cases h; exact .inr (.inl ⟨m, by simpa using hb, rfl⟩)
  | start =>
    simp only [hostAct, hostStart] at h
    split at h
    · cases h
    · next hb => cases h; exact .inr (.inr (.inl ⟨rfl, by simpa using hb, rfl⟩))
  | readStatus => cases h; exact .inr (.inr (.inr (.inl ⟨_, rfl⟩)))
  | readLane i =>
    simp only [hostAct, hostReadLane] at h
    split at h
    · cases h
    · cases h; exact .inr (.inr (.inr (.inl ⟨_, rfl⟩)))
  | readN => cases h; exact .inr (.inr (.inr (.inl ⟨_, rfl⟩)))
  | readCount => cases h; exact .inr (.inr (.inr (.inl ⟨_, rfl⟩)))
  | reset => cases h; exact .inr (.inr (.inr (.inr ⟨rfl, rfl⟩)))

/-! ### The step of a lane, and of the engine -/

/-- The lanes that have a step, by index. -/
theorem mem_runningFrom {c : ControlStore} {k i : Nat} {ls : List Lane} :
    i ∈ runningFrom c k ls ↔ ∃ l, k ≤ i ∧ ls[i - k]? = some l ∧ l.running c = true := by
  induction ls generalizing k with
  | nil => simp [runningFrom]
  | cons l ls ih =>
    have key : (∃ m, k ≤ i ∧ (l :: ls)[i - k]? = some m ∧ m.running c = true) ↔
        (i = k ∧ l.running c = true) ∨ ∃ m, k + 1 ≤ i ∧ ls[i - (k + 1)]? = some m ∧ m.running c = true := by
      by_cases hik : i = k
      · subst hik
        simp
      · by_cases hlt : k ≤ i
        · have e : i - k = (i - (k + 1)) + 1 := by omega
          have h1 : k + 1 ≤ i := by omega
          simp [e, hik, hlt, h1]
        · have h1 : ¬ k + 1 ≤ i := by omega
          simp [hik, hlt, h1]
    rw [key]
    unfold runningFrom
    split
    · next hr => simp [ih, hr]
    · next hr => simp [ih, hr]

/-- What a lane's step can do when it answers a next state: nothing, for a lane without a step, or the micro-operation
whose word it fetched, in its own lane (spec/43_cipher_pipeline.md R155). -/
theorem laneStep_next {i : Nat} {s t : State} (h : laneStep i s = .next t) :
    ∃ l, s.lanes[i]? = some l ∧
      ((s.fetch l = none ∧ t = s) ∨
       ∃ w ins l', s.fetch l = some w ∧ decode w = .ok ins ∧ laneExec ins l = .next l' ∧
         t = { s with cur := i }.putLane i l') := by
  unfold laneStep at h
  split at h
  · cases h
  · next l hl =>
    refine ⟨l, hl, ?_⟩
    split at h
    · next hw => cases h; exact .inl ⟨hw, rfl⟩
    · next w hw =>
      unfold runWord at h
      split at h
      · next ins hd =>
        obtain ⟨m, l', hm, he, rfl⟩ := exec_next h
        have : m = l := by simpa [hl, eq_comm] using hm
        subst this
        exact .inr ⟨w, ins, l', hw, hd, he, rfl⟩
      · cases h

/-- A lane with a step, whose word decodes, executes it. -/
theorem laneStep_of {i : Nat} {s : State} {l l' : Lane} {w : Byte} {ins : Instr} (hl : s.lanes[i]? = some l)
    (hw : s.fetch l = some w) (hd : decode w = .ok ins) (he : laneExec ins l = .next l') :
    laneStep i s = .next ({ s with cur := i }.putLane i l') := by
  unfold laneStep
  simp only [hl, hw, runWord, hd]
  exact exec_of (s := { s with cur := i }) hl he

/-- The engine's own move is the step of some lane, after a free choice or without one, or the completion step. -/
theorem engineMove_cases (s : State) :
    (∃ i l c, s.lanes[i]? = some l ∧ l.running s.ctrl = true ∧ engineMove s = laneStep i { s with choices := c }) ∨
    ((∀ l ∈ s.lanes, l.running s.ctrl = false) ∧ engineMove s = completeStep s) := by
  unfold engineMove
  split
  · next h =>
    refine .inr ⟨fun l hl => ?_, rfl⟩
    obtain ⟨i, hi⟩ := List.mem_iff_getElem?.1 hl
    cases hr : l.running s.ctrl
    · rfl
    · have : i ∈ runningFrom s.ctrl 0 s.lanes := mem_runningFrom.2 ⟨l, Nat.zero_le _, by simpa using hi, hr⟩
      simp [h] at this
  · next i h =>
    have : i ∈ runningFrom s.ctrl 0 s.lanes := by simp [h]
    obtain ⟨l, -, hl, hr⟩ := mem_runningFrom.1 this
    exact .inl ⟨i, l, s.choices, by simpa using hl, hr, rfl⟩
  · next i j rest h =>
    have hlt : Config.laneChoice s.choices % (rest.length + 2) < (i :: j :: rest).length := by
      simp only [List.length_cons]
      exact Nat.mod_lt _ (by omega)
    have hm : (i :: j :: rest).getD (Config.laneChoice s.choices % (rest.length + 2)) i ∈ runningFrom s.ctrl 0 s.lanes := by
      rw [h, List.getD_eq_getElem _ _ hlt]
      exact List.getElem_mem hlt
    obtain ⟨l, -, hl, hr⟩ := mem_runningFrom.1 hm
    exact .inl ⟨_, l, _, by simpa using hl, hr, rfl⟩

/-- Everything a step can do when it answers a next state: a host action, a lane's step or the completion step, on the
state with the agenda's head taken off and, where the engine chose, the choice counted. -/
theorem step_next {s t : State} (h : step s = .next t) :
    ∃ s' : State, (∃ c, s' = { s with agenda := s.agenda.tail, choices := c }) ∧
      ((∃ a, s.agenda.head? = some (.host a) ∧ hostAct a s' = .next t) ∨ (∃ i, laneStep i s' = .next t) ∨
        t = (if s'.canComplete then s'.completeBatch else s')) := by
  have move {s0 : State} (e : engineMove s0 = .next t) (h0 : ∃ c, s0 = { s with agenda := s.agenda.tail, choices := c }) :
      ∃ s' : State, (∃ c, s' = { s with agenda := s.agenda.tail, choices := c }) ∧
      ((∃ a, s.agenda.head? = some (.host a) ∧ hostAct a s' = .next t) ∨ (∃ i, laneStep i s' = .next t) ∨
        t = (if s'.canComplete then s'.completeBatch else s')) := by
    obtain ⟨c0, rfl⟩ := h0
    rcases engineMove_cases { s with agenda := s.agenda.tail, choices := c0 } with ⟨i, l, c, -, -, he⟩ | ⟨-, he⟩
    · rw [he] at e
      exact ⟨_, ⟨c, rfl⟩, .inr (.inl ⟨i, e⟩)⟩
    · rw [he] at e
      simp only [completeStep, Host.Outcome.next.injEq] at e
      exact ⟨_, ⟨c0, rfl⟩, .inr (.inr e.symm)⟩
  unfold step nextStep at h
  split at h
  · next hag =>
    exact move h ⟨s.choices, by cases s; simp only at hag; subst hag; rfl⟩
  · next e rest hag =>
    cases e with
    | host a => exact ⟨_, ⟨s.choices, by rw [hag]; rfl⟩, .inl ⟨a, by rw [hag]; rfl, h⟩⟩
    | lane i => exact ⟨_, ⟨s.choices, by rw [hag]; rfl⟩, .inr (.inl ⟨i, h⟩)⟩
    | complete =>
      simp only [perform, completeStep, Host.Outcome.next.injEq] at h
      exact ⟨_, ⟨s.choices, by rw [hag]; rfl⟩, .inr (.inr h.symm)⟩
    | engine => exact move h ⟨s.choices, by rw [hag]; rfl⟩

end Sys2Proof.Machine
end

