-- ==== Sys2Proof/Laws/Cipher.lean ====
section
/-! SUPPORT. The State of a lane at each place of the sequence, one round and one operation at a time
(spec/43_cipher_pipeline.md R158, R160). -/

namespace Sys2Proof.Machine

/-- One full round more. -/
theorem afterRounds_succ (w : Schedule) (pt : Block) {r : Nat} (h : r + 1 < 11) :
    afterRounds w pt (r + 1) = fullRound w (afterRounds w pt r) ⟨r + 1, h⟩ := by
  rw [afterRounds, dif_pos h]

/-- At place 3 the State is the plaintext. -/
theorem stateAt_three (w : Schedule) (pt : Block) : stateAt w pt 3 = pt := if_pos rfl

/-- Inside round `r` the State is the one before the round, after the round's operations so far. -/
theorem stateAt_ops (w : Schedule) (pt : Block) {r : Nat} (h1 : 1 ≤ r) (h10 : r ≤ 10) :
    let x := afterRounds w pt (r - 1)
    stateAt w pt (4 * r) = x ∧ stateAt w pt (4 * r + 1) = subBytesF x ∧
      stateAt w pt (4 * r + 2) = shiftRowsF (subBytesF x) ∧
      (r ≤ 9 → stateAt w pt (4 * r + 3) = mixColumnsF (shiftRowsF (subBytesF x))) := by
  have d0 : 4 * r / 4 = r := by omega
  have d1 : (4 * r + 1) / 4 = r := by omega
  have d2 : (4 * r + 2) / 4 = r := by omega
  have d3 : (4 * r + 3) / 4 = r := by omega
  have m0 : 4 * r % 4 = 0 := by omega
  have m1 : (4 * r + 1) % 4 = 1 := by omega
  have m2 : (4 * r + 2) % 4 = 2 := by omega
  have m3 : (4 * r + 3) % 4 = 3 := by omega
  refine ⟨?_, ?_, ?_, fun h9 => ?_⟩
  · rw [stateAt, if_neg (by omega), if_neg (by omega), d0, m0]; rfl
  · rw [stateAt, if_neg (by omega), if_neg (by omega), d1, m1]; rfl
  · rw [stateAt, if_neg (by omega), if_neg (by omega), d2, m2]; rfl
  · rw [stateAt, if_neg (by omega), if_neg (by omega), d3, m3]; rfl

/-- At the last place the State is the ciphertext. -/
theorem stateAt_last (key pt : Block) : stateAt (expandKey key) pt 43 = encrypt key pt := by
  have e : stateAt (expandKey key) pt 43 = lastRound (expandKey key) (afterRounds (expandKey key) pt 9) := by
    rw [stateAt, if_neg (by omega), if_pos rfl]
  rw [e, encrypt, afterRounds_succ _ _ (r := 8) (by omega), afterRounds_succ _ _ (r := 7) (by omega),
    afterRounds_succ _ _ (r := 6) (by omega), afterRounds_succ _ _ (r := 5) (by omega),
    afterRounds_succ _ _ (r := 4) (by omega), afterRounds_succ _ _ (r := 3) (by omega),
    afterRounds_succ _ _ (r := 2) (by omega), afterRounds_succ _ _ (r := 1) (by omega),
    afterRounds_succ _ _ (r := 0) (by omega), afterRounds]
  generalize fullRound (expandKey key) = f
  rfl

end Sys2Proof.Machine
end

