-- ==== Sys2Proof/Laws/Tables.lean ====
section
/-! SUPPORT. The tables and the data types have the sizes of spec/00_scope.md R7. -/

namespace Sys2Proof.Machine

theorem sboxTable_length : sboxTable.length = Config.sboxSize := by decide +kernel
theorem rconTable_length : rconTable.length = Config.rconSize := rfl
theorem ctrlRomTable_length : ctrlRomTable.length = Config.romLen := rfl
theorem key_length (b : Block) : b.toList.length = Config.keyBytes := rfl
theorem block_length (b : Block) : b.toList.length = Config.blockBytes := rfl
theorem roundKeys_eq : Config.roundKeys = Config.rounds + 1 := rfl
theorem schedBytes_eq : Config.schedBytes = Config.roundKeys * Config.keyBytes := rfl
theorem schedWords_eq : 4 * Config.schedWords = Config.schedBytes := rfl

/-- Row and column find the entry of the table; the defaults of `substitute` are never read. -/
theorem sboxTable_get (n : Byte) : sboxTable[n.toNat]? = some (substitute n) := by
  revert n; decide +kernel

end Sys2Proof.Machine
end

