-- ==== Sys2Proof/Laws/KeySchedule.lean ====
section
/-! SUPPORT. The key expansion, one round key from the one before it. -/

namespace Sys2Proof.Machine

@[simp] theorem expandKey_key_zero (key : Block) : (expandKey key).key 0 = key := rfl

/-- Round key `r + 1` from round key `r` and `RCON[r + 1]` (spec/41_key_scheduler.md R115). -/
theorem expandKey_key_succ (key : Block) (r : Fin 10) :
    (expandKey key).key r.succ = nextRoundKey ((expandKey key).key r.castSucc) (rcon r.succ) := by
  fin_cases r <;> rfl

@[simp] theorem nextRoundKey_col_zero (p : Block) (c : Byte) :
    (nextRoundKey p c).col 0 = Word.xor (gWord (p.col 3) c) (p.col 0) := rfl
@[simp] theorem nextRoundKey_col_one (p : Block) (c : Byte) :
    (nextRoundKey p c).col 1 = Word.xor ((nextRoundKey p c).col 0) (p.col 1) := rfl
@[simp] theorem nextRoundKey_col_two (p : Block) (c : Byte) :
    (nextRoundKey p c).col 2 = Word.xor ((nextRoundKey p c).col 1) (p.col 2) := rfl
@[simp] theorem nextRoundKey_col_three (p : Block) (c : Byte) :
    (nextRoundKey p c).col 3 = Word.xor ((nextRoundKey p c).col 2) (p.col 3) := rfl

end Sys2Proof.Machine
end

