-- ==== Sys2Proof/Laws/PerInstr.lean ====
section
/-! SUPPORT. The family `Fields`, one lemma per constructor: the word of a micro-operation has the operation code of its
row and, in bits 3:0, its operand or 0 (spec/30_encoding.md R80, R81). -/

namespace Sys2Proof

/-- The `op` column of spec/30_encoding.md R81. -/
def Laws.opOf : Instr → BitVec 4
  | .validate => 1
  | .keyexpand => 2
  | .loadpt => 3
  | .addroundkey _ => 4
  | .subbytes => 5
  | .shiftrows => 6
  | .mixcolumns => 7
  | .storect => 8

/-- The field `r` of spec/30_encoding.md R80: the operand of ADDROUNDKEY, 0 in every other. -/
def Laws.operandOf : Instr → BitVec 4
  | .validate => 0
  | .keyexpand => 0
  | .loadpt => 0
  | .addroundkey r => r
  | .subbytes => 0
  | .shiftrows => 0
  | .mixcolumns => 0
  | .storect => 0

/-- The word's fields are the row's. -/
def Laws.Fields.Statement (i : Instr) : Prop :=
  opField (encode i) = Laws.opOf i ∧ rField (encode i) = Laws.operandOf i

theorem Laws.Fields.validate : Laws.Fields.Statement .validate := by unfold Laws.Fields.Statement; decide
theorem Laws.Fields.keyexpand : Laws.Fields.Statement .keyexpand := by unfold Laws.Fields.Statement; decide
theorem Laws.Fields.loadpt : Laws.Fields.Statement .loadpt := by unfold Laws.Fields.Statement; decide
theorem Laws.Fields.addroundkey : ∀ r : BitVec 4, Laws.Fields.Statement (.addroundkey r) := by
  unfold Laws.Fields.Statement; decide
theorem Laws.Fields.subbytes : Laws.Fields.Statement .subbytes := by unfold Laws.Fields.Statement; decide
theorem Laws.Fields.shiftrows : Laws.Fields.Statement .shiftrows := by unfold Laws.Fields.Statement; decide
theorem Laws.Fields.mixcolumns : Laws.Fields.Statement .mixcolumns := by unfold Laws.Fields.Statement; decide
theorem Laws.Fields.storect : Laws.Fields.Statement .storect := by unfold Laws.Fields.Statement; decide

end Sys2Proof
end

