-- ==== Sys2Proof/Laws/Run.lean ====
section
/-! SUPPORT. Runs: no step, one step first, and a run cut in two. -/

namespace Sys2Proof.Machine

@[simp] theorem runFor_zero (s : State) : runFor 0 s = .next s := rfl

theorem core_run_succ_of {M : Host.Core} {s t : M.State} (h : M.step s = .next t) (n : Nat) :
    M.run (n + 1) s = M.run n t := by
  rw [Host.Core.run, h]

theorem core_run_succ_next {M : Host.Core} {s t : M.State} {n : Nat} (h : M.run (n + 1) s = .next t) :
    ∃ u, M.step s = .next u ∧ M.run n u = .next t := by
  rw [Host.Core.run] at h
  split at h
  · next u hu => exact ⟨u, hu, h⟩
  · cases h
  · cases h

/-- A run that begins with a step that answers a next state goes on from there. -/
theorem runFor_succ_of {s t : State} (h : step s = .next t) (n : Nat) : runFor (n + 1) s = runFor n t :=
  core_run_succ_of (M := Sys2Proof.core) h n

/-- A run that answers a next state began with a step that did. -/
theorem runFor_succ_next {s t : State} {n : Nat} (h : runFor (n + 1) s = .next t) :
    ∃ u, step s = .next u ∧ runFor n u = .next t :=
  core_run_succ_next (M := Sys2Proof.core) h

/-- A run of `m + n` steps is a run of `m` steps and one of `n` from where it ends. -/
theorem runFor_add_of {m n : Nat} {s t : State} (h : runFor m s = .next t) : runFor (m + n) s = runFor n t := by
  induction m generalizing s with
  | zero => cases h; rw [Nat.zero_add]
  | succ m ih =>
    obtain ⟨u, hu, hr⟩ := runFor_succ_next h
    rw [Nat.add_right_comm, runFor_succ_of hu, ih hr]

/-- A run of `m + n` steps that answers a next state passes one after `m` steps. -/
theorem runFor_add_next {m n : Nat} {s t : State} (h : runFor (m + n) s = .next t) :
    ∃ u, runFor m s = .next u ∧ runFor n u = .next t := by
  induction m generalizing s with
  | zero => rw [Nat.zero_add] at h; exact ⟨s, rfl, h⟩
  | succ m ih =>
    rw [Nat.add_right_comm] at h
    obtain ⟨u, hu, hr⟩ := runFor_succ_next h
    obtain ⟨v, hv, hw⟩ := ih hr
    exact ⟨v, by rw [runFor_succ_of hu, hv], hw⟩

end Sys2Proof.Machine
end

