-- ==== Sys2Proof/Laws/Sequence.lean ====
section
/-! SUPPORT. The micro-operation that the hardware's control store holds at each place, and so what a lane's step does at
each value of `UPC` (spec/43_cipher_pipeline.md R155, R157). -/

namespace Sys2Proof.Machine

/-- The micro-operation at place `u` of `CTRL_ROM` (spec/30_encoding.md R88). -/
def romInstr (u : Nat) : Instr :=
  if u = 0 then .validate
  else if u = 1 then .keyexpand
  else if u = 2 then .loadpt
  else if u = 43 then .storect
  else if u = 42 then .addroundkey 10
  else if u % 4 = 0 then .subbytes
  else if u % 4 = 1 then .shiftrows
  else if u % 4 = 2 then .mixcolumns
  else .addroundkey (BitVec.ofNat 4 (u / 4))

/-- Every place of `CTRL_ROM` holds the legal word of its micro-operation. -/
theorem ctrlRom_eq {u : Nat} (h : u < 44) : ctrlRom u = some (encode (romInstr u)) := by
  revert u; decide

theorem decode_romInstr {u : Nat} (h : u < 44) : decode (encode (romInstr u)) = .ok (romInstr u) := by
  revert u; decide

/-- The fetch of a lane that has a step, from the hardware's control store. -/
theorem fetch_of_running {l : Lane} (h : l.running .rom = true) :
    ControlStore.rom.fetch l = some (encode (romInstr l.upc.toNat)) := by
  obtain ⟨ho, hu⟩ := place_of_running_rom h
  rw [fetch_rom ho, ctrlRom_eq hu]

/-- With the hardware's control store, the step of a lane that is there is nothing, where it has no step, or its
micro-operation's lane function. -/
theorem laneStep_rom {i : Nat} {s : State} {l : Lane} (hc : s.ctrl = .rom) (hl : s.lanes[i]? = some l) :
    laneStep i s = if l.running .rom then
      match laneExec (romInstr l.upc.toNat) l with
      | .next l' => .next ({ s with cur := i }.putLane i l')
      | .fault r => .fault r
      | .refused r => .refused r
    else .next s := by
  have hf : s.fetch l = ControlStore.rom.fetch l := by rw [State.fetch, hc]
  unfold laneStep
  simp only [hl, hf]
  split
  · next hw => rw [not_running_iff.2 hw]; rfl
  · next w hw =>
    have hr := running_iff.2 ⟨w, hw⟩
    obtain rfl : encode (romInstr l.upc.toNat) = w := by simpa [fetch_of_running hr] using hw
    simp only [hr, if_true, runWord, decode_romInstr (place_of_running_rom hr).2]
    refine (exec_eq_onLane _ _).trans ((onLane_of (s := { s with cur := i }) hl).trans ?_)
    cases laneExec (romInstr l.upc.toNat) l <;> rfl

/-- ADDROUNDKEY of `CTRL_ROM` never names a round key above 10, so from the hardware's store no step is refused for it. -/
theorem laneExec_romInstr_ne_refused {u : Nat} (h : u < 44) (l : Lane) (r : Refusal) :
    laneExec (romInstr u) l ≠ .refused r := by
  have hk : ∀ u < 44, ∀ k, romInstr u = .addroundkey k → k.toNat ≤ 10 := by decide
  have := hk u h
  cases hi : romInstr u with
  | addroundkey k => simp [laneExec, laneAddroundkey, roundKeyIndex_of_le (this k hi)]
  | validate => simp only [laneExec, laneValidate]; split <;> simp
  | keyexpand => simp only [laneExec, laneKeyexpand]; split <;> simp
  | loadpt => simp only [laneExec, laneLoadpt]; split <;> simp
  | subbytes => simp [laneExec]
  | shiftrows => simp [laneExec]
  | mixcolumns => simp [laneExec]
  | storect => simp [laneExec, laneStorect]

/-- What a lane's step can do from the hardware's control store when it answers a next lane, by the place `u` it is at. -/
theorem laneExec_romInstr_next {u : Nat} (hu : u < 44) {l l' : Lane} (h : laneExec (romInstr u) l = .next l') :
    (u = 0 ∧ l.inKlen = 16 ∧ l.inPlen = 16 ∧ l' = l.advance) ∨
    (u = 0 ∧ lengthErrors l.inKlen l.inPlen ≠ 0 ∧ l' = l.raise (lengthErrors l.inKlen l.inPlen)) ∨
    (u = 1 ∧ ∃ k, l.readKey = some k ∧ l' = (l.writeRk (expandKey k)).advance) ∨
    (u = 2 ∧ ∃ p, l.readPt = some p ∧ l' = (l.writeS p).advance) ∨
    (3 ≤ u ∧ u ≤ 42 ∧ ∃ x, l' = (l.writeS x).advance) ∨
    (u = 43 ∧ l' = (l.writeOut l.readS).setUpc upcDone) := by
  have place : ∀ u < 44, (u = 0 ∧ romInstr u = .validate) ∨ (u = 1 ∧ romInstr u = .keyexpand) ∨
      (u = 2 ∧ romInstr u = .loadpt) ∨ (u = 43 ∧ romInstr u = .storect) ∨
      (3 ≤ u ∧ u ≤ 42 ∧ (romInstr u = .subbytes ∨ romInstr u = .shiftrows ∨ romInstr u = .mixcolumns ∨
        ∃ r, romInstr u = .addroundkey r)) := by decide
  have hh := laneExec_next h
  rcases place u hu with ⟨hp, e⟩ | ⟨hp, e⟩ | ⟨hp, e⟩ | ⟨hp, e⟩ | ⟨h3, h42, e | e | e | ⟨r, e⟩⟩ <;>
    rw [e] at hh <;> simp only [LaneEffect] at hh
  · exact hh.elim (fun h => .inl ⟨hp, h⟩) fun h => .inr (.inl ⟨hp, h⟩)
  · exact .inr (.inr (.inl ⟨hp, hh⟩))
  · exact .inr (.inr (.inr (.inl ⟨hp, hh⟩)))
  · exact .inr (.inr (.inr (.inr (.inr ⟨hp, hh⟩))))
  · exact .inr (.inr (.inr (.inr (.inl ⟨h3, h42, _, hh⟩))))
  · exact .inr (.inr (.inr (.inr (.inl ⟨h3, h42, _, hh⟩))))
  · exact .inr (.inr (.inr (.inr (.inl ⟨h3, h42, _, hh⟩))))
  · obtain ⟨j, -, hh⟩ := hh
    exact .inr (.inr (.inr (.inr (.inl ⟨h3, h42, _, hh⟩))))

/-- The successor of a `UPC` that has a step. -/
theorem upc_succ_toNat {u : BitVec 6} (h : u.toNat < 44) : (u + 1).toNat = u.toNat + 1 := by
  simp [BitVec.toNat_add]; omega

/-- With the hardware's control store, what a lane's step that answers a next state did. -/
theorem laneStep_rom_next {i : Nat} {s t : State} (hc : s.ctrl = .rom) (h : laneStep i s = .next t) :
    ∃ l, s.lanes[i]? = some l ∧ ((l.running .rom = false ∧ t = s) ∨
      ∃ l', l.running .rom = true ∧ laneExec (romInstr l.upc.toNat) l = .next l' ∧ t = { s with cur := i }.putLane i l') := by
  obtain ⟨l, hl, _⟩ := laneStep_next h
  refine ⟨l, hl, ?_⟩
  rw [laneStep_rom hc hl] at h
  split at h
  · next hr =>
    split at h
    · next l' he => cases h; exact .inr ⟨l', hr, he, rfl⟩
    · cases h
    · cases h
  · next hr => cases h; exact .inl ⟨by simpa using hr, rfl⟩

end Sys2Proof.Machine
end

