-- ==== Sys2Proof/Tests/Slice0.lean ====
section
/-! SUPPORT. Tests: expected values are the spec's (spec/95_test_vectors.md and the rules named); and, for each statement with
hypotheses, a witness `witness_<statement>` that meets them. -/

namespace Sys2Proof.Tests

open Sys2Proof Sys2Proof.Machine

/-! ### Helpers -/

/-- A lane whose slot holds the key and plaintext of spec/95_test_vectors.md V1, at a given `UPC`. -/
def laneAtUpc (u : BitVec 6) : Lane :=
  { Lane.reset 0 with
    inKlen := 16
    inKey := Block.unpack 0x000102030405060708090a0b0c0d0e0f
    inKeyWritten := .fill true
    inPlen := 16
    inPt := Block.unpack 0x00112233445566778899aabbccddeeff
    inPtWritten := .fill true
    upc := u }

/-- That lane with a State. -/
def laneWithS (u : BitVec 6) (x : BitVec 128) : Lane := { laneAtUpc u with s := Block.unpack x, sWritten := true }

/-- That lane with a State and the schedule of its key. -/
def laneWithRk (u : BitVec 6) (x : BitVec 128) : Lane :=
  { laneWithS u x with rk := expandKey (Block.unpack 0x000102030405060708090a0b0c0d0e0f), rkWritten := true }

/-- A busy engine with these lanes and this agenda. -/
def engine (ls : List Lane) (ag : List Event) : State := { State.resetWith 0 with lanes := ls, busy := true, agenda := ag }

/-- The same engine, not busy. -/
def quietEngine (ls : List Lane) (ag : List Event) : State := { State.resetWith 0 with lanes := ls, agenda := ag }

/-- The lane that executed, after a step. -/
def after : StateOutcome → Option Lane
  | .next t => t.lanes[t.cur]?
  | .fault _ => none
  | .refused _ => none

/-- A step answered a next state. -/
def isNext : StateOutcome → Bool
  | .next _ => true
  | .fault _ => false
  | .refused _ => false

/-- A step that answers a next state answers some next state. -/
theorem exists_next {o : StateOutcome} (h : isNext o = true) : ∃ t, o = .next t := by
  cases o with
  | next t => exact ⟨t, rfl⟩
  | fault _ => cases h
  | refused _ => cases h

/-! ### WellFormed and Decode -/

/-- The one check, spec/30_encoding.md R82: an index of 11 is refused, 10 is not. -/
theorem test_wf_refuses_roundkey_11 : ¬ WellFormed (.addroundkey 11) ∧ ¬ WellFormed (.addroundkey 15) := by decide
theorem test_wf_accepts_roundkey_10 : WellFormed (.addroundkey 10) ∧ WellFormed (.addroundkey 0) := by decide

/-- Words written out from spec/30_encoding.md R80, R81: `op` in bits 7:4, `r` in bits 3:0. -/
theorem test_decode_validate : decode 0b0001_0000 = .ok .validate := by decide
theorem test_decode_keyexpand : decode 0b0010_0000 = .ok .keyexpand := by decide
theorem test_decode_loadpt : decode 0b0011_0000 = .ok .loadpt := by decide
theorem test_decode_addroundkey : decode 0b0100_0101 = .ok (.addroundkey 5) ∧ decode 0b0100_1010 = .ok (.addroundkey 10) := by
  decide
theorem test_decode_subbytes : decode 0b0101_0000 = .ok .subbytes := by decide
theorem test_decode_shiftrows : decode 0b0110_0000 = .ok .shiftrows := by decide
theorem test_decode_mixcolumns : decode 0b0111_0000 = .ok .mixcolumns := by decide
theorem test_decode_storect : decode 0b1000_0000 = .ok .storect := by decide
/-- The illegal words of spec/95_test_vectors.md D9. -/
theorem test_decode_illegal :
    decode 0x00 = .error (.unassignedOp 0) ∧ decode 0x11 = .error (.nonzeroField 1 1) ∧
    decode 0x4b = .error (.roundKeyIndex 11) ∧ decode 0x4f = .error (.roundKeyIndex 15) ∧
    decode 0x71 = .error (.nonzeroField 7 1) ∧ decode 0x90 = .error (.unassignedOp 9) ∧
    decode 0xff = .error (.unassignedOp 15) := by decide

/-! ### The micro-operations -/

/-- spec/95_test_vectors.md D7. -/
theorem test_validate_wrong_key_length :
    (after (exec .validate (engine [{ laneAtUpc 0 with inKlen := 15 }] []))).map (fun l => (l.err, l.upc, l.lstat)) =
      some (1, 62, 0x02) := by decide
theorem test_validate_both_wrong :
    (after (exec .validate (engine [{ laneAtUpc 0 with inKlen := 32, inPlen := 32 }] []))).map
      (fun l => (l.err, l.upc, l.lstat)) = some (3, 62, 0x06) := by decide

/-- spec/95_test_vectors.md V3: the last round key, and the first word of round key 1. -/
theorem test_keyexpand_last_round_key :
    (after (exec .keyexpand (engine [laneAtUpc 1] []))).map (fun l => (l.rk.k10.pack, l.upc)) =
      some (0x13111d7fe3944a17f307a78b4d2b30c5, 2) := by decide +kernel
theorem test_keyexpand_unwritten_byte :
    exec .keyexpand (engine [{ laneAtUpc 1 with inKeyWritten := (Grid.fill true).put 15 false }] []) =
      .fault .unwrittenKey := by rfl

/-- spec/95_test_vectors.md V1-trace, step 2. -/
theorem test_loadpt_copies_the_block :
    (after (exec .loadpt (engine [laneAtUpc 2] []))).map (fun l => (l.s.pack, l.sWritten, l.upc)) =
      some (0x00112233445566778899aabbccddeeff, true, 3) := by decide

/-- spec/95_test_vectors.md V1-trace, steps 39 and 42: indices 9 and 10, which a dropped index bit would confuse. -/
theorem test_addroundkey_nine :
    (after (exec (.addroundkey 9) (engine [laneWithRk 39 0xe9f74eec023020f61bf2ccf2353c21c7] []))).map (fun l => l.s.pack) =
      some 0xbd6e7c3df2b5779e0b61216e8b10b689 := by decide +kernel
theorem test_addroundkey_ten :
    (after (exec (.addroundkey 10) (engine [laneWithRk 42 0x7ad5fda789ef4e272bca100b3d9ff59f] []))).map (fun l => l.s.pack) =
      some 0x69c4e0d86a7b0430d8cdb78070b4c55a := by decide +kernel

/-- spec/95_test_vectors.md V1-trace, steps 40 and 41; steps 5 and 6. -/
theorem test_subbytes_round_ten :
    (after (exec .subbytes (engine [laneWithS 40 0xbd6e7c3df2b5779e0b61216e8b10b689] []))).map (fun l => l.s.pack) =
      some 0x7a9f102789d5f50b2beffd9f3dca4ea7 := by decide +kernel
theorem test_shiftrows_round_ten :
    (after (exec .shiftrows (engine [laneWithS 41 0x7a9f102789d5f50b2beffd9f3dca4ea7] []))).map (fun l => l.s.pack) =
      some 0x7ad5fda789ef4e272bca100b3d9ff59f := by decide
theorem test_mixcolumns_round_one :
    (after (exec .mixcolumns (engine [laneWithS 6 0x6353e08c0960e104cd70b751bacad0e7] []))).map (fun l => l.s.pack) =
      some 0x5f72641557f5bc92f7be3b291db9f91a := by decide

/-- spec/43_cipher_pipeline.md R154, worked example; and `UPC` is 44 whatever it was (spec/90_conflicts.md C11). -/
theorem test_storect_delivers :
    (after (exec .storect (engine [laneWithS 43 0x69c4e0d86a7b0430d8cdb78070b4c55a] []))).map
      (fun l => (l.outCt.pack, l.outValid, l.upc, l.lstat)) =
      some (0x69c4e0d86a7b0430d8cdb78070b4c55a, true, 44, 0x01) := by decide
theorem test_storect_from_word_zero :
    (after (exec .storect (engine [laneWithS 0 0] []))).map (fun l => l.upc) = some 44 := by decide

/-! ### Tables and arithmetic -/

/-- spec/95_test_vectors.md D1 and D2. -/
theorem test_substitute :
    [0x00, 0x01, 0x0f, 0x10, 0x52, 0x53, 0x7f, 0x80, 0xc6, 0xfe, 0xff].map substitute =
      [0x63, 0x7c, 0x76, 0xca, 0x00, 0xed, 0xd2, 0xcd, 0xb4, 0xbb, 0x16] := by decide
theorem test_mul3 :
    [0x00, 0x01, 0x40, 0x57, 0x7f, 0x80, 0x81, 0xc0, 0xff, 0x8d].map mul3 =
      [0x00, 0x03, 0xc0, 0xf9, 0x81, 0x9b, 0x98, 0x5b, 0x1a, 0x8c] := by decide

/-! ### The host and the BatchDriver -/

/-- What a step leaves in every `UPC`, and `STATUS`. -/
def upcsAndStatus : StateOutcome → Option (List (BitVec 6) × BitVec 8)
  | .next t => some (t.lanes.map Lane.upc, t.status)
  | .fault _ => none
  | .refused _ => none

/-- spec/95_test_vectors.md D8, with `N = 4`. -/
theorem test_start_count_three :
    upcsAndStatus (hostAct .start { State.resetWith 4 with count := 3 }) = some ([0, 0, 0, 63], 0x01) := by decide
theorem test_start_count_five :
    upcsAndStatus (hostAct .start { State.resetWith 4 with count := 5 }) = some ([63, 63, 63, 63], 0x06) := by decide
theorem test_start_count_zero :
    upcsAndStatus (hostAct .start (State.resetWith 4)) = some ([63, 63, 63, 63], 0x02) := by decide
theorem test_complete_joins :
    upcsAndStatus (step (engine [laneAtUpc 44, laneAtUpc 62, laneAtUpc 63] [])) = some ([44, 62, 63], 0x02) := by decide

/-- spec/44_batch_driver.md R183: a 17-byte key stores its length and 16 bytes; a 1-byte plaintext keeps bytes 1 to 15. -/
theorem test_loadpair_saturates_and_keeps :
    (match hostAct (.loadPair 0 (List.replicate 300 7) [9]) (quietEngine [laneAtUpc 63] []) with
      | .next t => t.lanes.map fun l => (l.inKlen, l.inKey, l.inPlen, l.inPt.pack)
      | .fault _ => []
      | .refused _ => []) = [(255, .fill 7, 1, 0x09112233445566778899aabbccddeeff)] := by decide +kernel

/-! ### Fetch -/

/-- One step from reset with a row's word placed runs that row's micro-operation in lane 0 (log 8). -/
theorem test_fetch_validate : (after (step (State.reset.withFetchWord 8 0x10))).map (fun l => (l.err, l.upc)) = some (3, 62) := by
  decide
theorem test_fetch_keyexpand :
    (after (step (State.reset.withFetchWord 8 0x20))).map (fun l => (l.rk.k10.pack, l.upc)) =
      some (0xb4ef5bcb3e92e21123e951cf6f8f188e, 1) := by decide +kernel
theorem test_fetch_loadpt :
    (after (step (State.reset.withFetchWord 8 0x30))).map (fun l => (l.s, l.sWritten, l.upc)) =
      some (.fill 0, true, 1) := by decide
theorem test_fetch_addroundkey :
    (after (step (State.reset.withFetchWord 8 0x4a))).map (fun l => (l.sWritten, l.upc)) = some (true, 1) := by decide
theorem test_fetch_subbytes :
    (after (step (State.reset.withFetchWord 8 0x50))).map (fun l => (l.sWritten, l.upc)) = some (true, 1) := by decide
theorem test_fetch_shiftrows :
    (after (step (State.reset.withFetchWord 8 0x60))).map (fun l => (l.sWritten, l.upc)) = some (true, 1) := by decide
theorem test_fetch_mixcolumns :
    (after (step (State.reset.withFetchWord 8 0x70))).map (fun l => (l.sWritten, l.upc)) = some (true, 1) := by decide
theorem test_fetch_storect :
    (after (step (State.reset.withFetchWord 8 0x80))).map (fun l => (l.outValid, l.upc)) = some (true, 44) := by decide
/-- Nothing moves after reset until the host acts (spec/44_batch_driver.md R196). -/
theorem test_reset_stands_still : step State.reset = .next State.reset := by rfl

/-! ### The control store -/

theorem test_reset_store_wf : ControlStore.wf State.reset.ctrl = true := by decide
theorem test_placed_store_wf : ControlStore.wf (State.reset.withFetchWord 8 0x80).ctrl = true ∧
    (State.reset.withFetchWord 8 0x10).ctrl = .rom := by decide
/-- Writing what `CTRL_ROM` holds removes the cell. -/
theorem test_store_write_back : Memory.write [(0, 0x80)] 0 0x10 = [] := by decide
theorem test_store_has_44_words : ControlStore.rom.read 43 = some 0x80 ∧ ControlStore.rom.read 44 = none := by decide

/-- The program P1 of spec/95_test_vectors.md, 8 words. -/
def firstRound : ControlStore := .ofList [0x10, 0x20, 0x30, 0x40, 0x50, 0x60, 0x70, 0x41]

/-- P1's last step and its end state: `UPC` 8, the document's Round(1), no valid output. -/
theorem test_p1_last_step :
    (after (step { engine [laneWithRk 7 0x5f72641557f5bc92f7be3b291db9f91a] [] with ctrl := firstRound })).map
      (fun l => (l.s.pack, l.upc, l.phase, l.outValid)) =
      some (0x89d810e8855ace682d1843d8cb128fe4, 8, some (.round 1), false) := by decide +kernel
/-- Past P1's end the lane has no step, and the batch is not over (spec/30_encoding.md R93). -/
theorem test_p1_end_is_stuck :
    let s := { engine [laneWithRk 8 0x89d810e8855ace682d1843d8cb128fe4] [] with ctrl := firstRound }
    step s = .next s := by rfl

/-- 44 words whose last is no STORECT: the lane does not come to `Done`; a 45th word, STORECT, takes it there. -/
theorem test_done_by_storect_only :
    (let s := { engine [laneWithS 43 0] [] with ctrl := .ofList (ctrlRomTable.take 43 ++ [0x50]) }
     (after (step s)).map (fun l => (l.place, l.settled, l.phase)) = some (some 44, false, none)) ∧
    (let s := { engine [{ laneWithS 44 0 with overrun := some 0 }] [] with ctrl := .ofList (ctrlRomTable ++ [0x80]) }
     (after (step s)).map (fun l => (l.upc, l.settled, l.phase)) = some (44, true, some .done)) := by decide

/-! ### Witnesses: states and operands that meet the hypotheses of each statement -/

theorem witness_LegalWordsAndKindsOfIllegal :
    (opField 0x00 = 0 ∧ 9 ≤ (opField 0x90).toNat ∧ 9 ≤ (opField 0xff).toNat) ∧
    (opField 0x4b = 4 ∧ 11 ≤ (rField 0x4b).toNat) ∧
    (opField 0x11 ∈ ([1, 2, 3, 5, 6, 7, 8] : List (BitVec 4)) ∧ rField 0x11 ≠ 0) := by decide

theorem witness_ControlRomHoldsTheSequence : (1 ≤ 1 ∧ 1 ≤ 9) ∧ (1 ≤ 9 ∧ 9 ≤ 9) := by decide

theorem witness_PseudoOperationsExpandAsWritten :
    (1 ≤ 1 ∧ 1 ≤ 9) ∧ (1 ≤ 9 ∧ 9 ≤ 9) ∧ ((0 : Nat) = 0 ∨ 9 < 0) ∧ (10 = 0 ∨ 9 < 10) := by decide

theorem witness_AssemblerTextReadsBack :
    AsmOp.op (.addroundkey 10) ∈ asmOps ∧ AsmOp.round 9 ∈ asmOps ∧ AsmOp.encrypt ∈ asmOps ∧ 43 < 44 := by decide

/-- Lane 1 at the last word, named by the agenda; and, with nothing on the agenda, the one lane with a step. -/
theorem witness_LaneStepRunsTheDecodedWord :
    (let s := engine [laneAtUpc 44, laneWithS 43 0] [.lane 1]
     s.lanes[1]? = some (laneWithS 43 0) ∧ s.fetch (laneWithS 43 0) = some 0x80 ∧
      decode 0x80 = .ok .storect ∧ s.agenda = [.lane 1]) ∧
    (let s := engine [laneAtUpc 0] []
     s.lanes[0]? = some (laneAtUpc 0) ∧ s.fetch (laneAtUpc 0) = some 0x10 ∧
      decode 0x10 = .ok .validate ∧ s.agenda = [] ∧
      ∀ (j : Nat) (m : Lane), s.lanes[j]? = some m → (s.fetch m).isSome = true → j = 0) ∧
    (engine [laneAtUpc 43] []).ctrl = .rom ∧ (laneAtUpc 43).overrun = none := by
  refine ⟨by decide, ⟨by decide, by decide, by decide, by decide, ?_⟩, by decide, by decide⟩
  intro j m hm _
  have : j < 1 := (List.getElem?_eq_some_iff.1 hm).1
  omega

theorem witness_LaneWithoutStepChangesNothing :
    (engine [laneAtUpc 44] [.lane 0]).agenda = [.lane 0] ∧
    (engine [laneAtUpc 44] [.lane 0]).lanes[0]? = some (laneAtUpc 44) ∧
    (engine [laneAtUpc 44] [.lane 0]).fetch (laneAtUpc 44) = none ∧
    (engine [laneAtUpc 43] []).ctrl = .rom ∧ (laneAtUpc 43).overrun = none ∧ (laneAtUpc 44).overrun = none ∧
    44 ≤ (laneAtUpc 44).upc.toNat := by decide

theorem witness_IllegalWordIsRefused :
    let s := { engine [laneAtUpc 0] [.lane 0] with ctrl := ControlStore.rom.place 0x4b }
    s.agenda = [.lane 0] ∧ s.lanes[0]? = some (laneAtUpc 0) ∧
      s.fetch (laneAtUpc 0) = some 0x4b ∧ decode 0x4b = .error (.roundKeyIndex 11) := by decide

theorem witness_QuietEngineStandsStill :
    (let s := quietEngine [laneAtUpc 44, laneAtUpc 63] []
     s.agenda = [] ∧ (∀ l ∈ s.lanes, s.fetch l = none) ∧ s.busy = false) ∧
    (let s := engine [laneAtUpc 45, laneAtUpc 44] []
     s.agenda = [] ∧ (∀ l ∈ s.lanes, s.fetch l = none) ∧ ∃ l ∈ s.lanes, l.upc ≠ 44 ∧ l.upc ≠ 62 ∧ l.upc ≠ 63) ∧
    (let s := engine [{ laneAtUpc 44 with overrun := some 0 }] []
     s.agenda = [] ∧ (∀ l ∈ s.lanes, s.fetch l = none) ∧ ∃ l ∈ s.lanes, l.overrun ≠ none) := by decide

theorem witness_EngineMoveStepsSomeRunningLane :
    (engine [laneAtUpc 43, laneAtUpc 0] []).agenda = [] ∧
    ∃ l ∈ (engine [laneAtUpc 43, laneAtUpc 0] []).lanes,
      ((engine [laneAtUpc 43, laneAtUpc 0] []).fetch l).isSome = true := by decide

theorem witness_SboxIsTheAlgebraicBijection :
    (1 : Byte) ≠ 0 ∧ (255 : Byte) ≠ 0 ∧ substitute 0x52 = substitute 0x52 := by decide

theorem witness_RoundConstantsDouble : (1 ≤ 1 ∧ 1 ≤ 9) ∧ (1 ≤ 9 ∧ 9 ≤ 9) := by decide

theorem witness_ExpandKeyFollowsTheLoop : (4 ≤ 4 ∧ 4 < 44) ∧ (4 ≤ 43 ∧ 43 < 44) := by decide

theorem witness_ExpandKeyByteByByte : (4 ≤ 43 ∧ 43 < 44 ∧ 43 % 4 ≠ 0) ∧ (4 ≤ 4 ∧ 4 < 44 ∧ 4 % 4 = 0) ∧ 40 % 4 = 0 := by decide

/-- The four cases of the two lengths, and a lane as it is after reset. -/
theorem witness_ValidateChecksBothLengths :
    (let l := laneAtUpc 0
     (engine [l] []).lanes[(engine [l] []).cur]? = some l ∧ l.inKlen = 16 ∧ l.inPlen = 16) ∧
    (let l := { laneAtUpc 0 with inKlen := 17 }
     (engine [l] []).lanes[(engine [l] []).cur]? = some l ∧ l.inKlen ≠ 16 ∧ l.inPlen = 16) ∧
    (let l := { laneAtUpc 0 with inPlen := 15 }
     (engine [l] []).lanes[(engine [l] []).cur]? = some l ∧ l.inKlen = 16 ∧ l.inPlen ≠ 16) ∧
    (let l := { laneAtUpc 0 with inKlen := 0, inPlen := 255 }
     (engine [l] []).lanes[(engine [l] []).cur]? = some l ∧ l.inKlen ≠ 16 ∧ l.inPlen ≠ 16) ∧
    (engine [Lane.reset 5] []).lanes[(engine [Lane.reset 5] []).cur]? = some (Lane.reset 5) := by decide

/-- A lane that may hold this `UPC` in a run. -/
theorem laneAtUpc_ok {u : BitVec 6} (h : u = 0 ∨ u = 1) : (laneAtUpc u).Ok := by
  rcases h with rfl | rfl <;> constructor <;> decide

theorem one_lane_inv {u : BitVec 6} (h : u = 0 ∨ u = 1) (ag : List Event) : (engine [laneAtUpc u] ag).Inv where
  store := rfl
  laneCount := by show 1 ≤ 1 ∧ 1 ≤ 65534; decide
  lanes := by
    intro l hl
    obtain rfl : l = laneAtUpc u := by simpa [engine] using hl
    exact laneAtUpc_ok h
  busyOfRunning := fun _ _ _ => rfl
  busyNotDone := fun _ => ⟨rfl, rfl⟩
  berrIdle := by intro hb; cases hb

theorem witness_KeyexpandWritesTheSchedule :
    ((engine [laneAtUpc 1] []).lanes[(engine [laneAtUpc 1] []).cur]? = some (laneAtUpc 1) ∧
      ∀ k, (laneAtUpc 1).inKeyWritten.get k = true) ∧
    (let l := { laneAtUpc 1 with inKeyWritten := (Grid.fill true).put 15 false }
     (engine [l] []).lanes[(engine [l] []).cur]? = some l ∧ ∃ k, l.inKeyWritten.get k = false) ∧
    ((engine [laneAtUpc 1] []).Inv ∧ laneAtUpc 1 ∈ (engine [laneAtUpc 1] []).lanes ∧ (laneAtUpc 1).upc = 1) :=
  ⟨by decide, by decide, one_lane_inv (.inr rfl) [], by decide, rfl⟩

theorem witness_LoadptLoadsThePlaintext :
    ((engine [laneAtUpc 2] []).lanes[(engine [laneAtUpc 2] []).cur]? = some (laneAtUpc 2) ∧
      ∀ k, (laneAtUpc 2).inPtWritten.get k = true) ∧
    (let l := { laneAtUpc 2 with inPtWritten := (Grid.fill true).put 0 false }
     (engine [l] []).lanes[(engine [l] []).cur]? = some l ∧ ∃ k, l.inPtWritten.get k = false) := by decide

theorem witness_SubbytesSubstitutesEveryByte :
    (engine [laneWithS 40 0] []).lanes[(engine [laneWithS 40 0] []).cur]? = some (laneWithS 40 0) := by decide
theorem witness_ShiftrowsRotatesTheRows :
    (engine [laneWithS 41 0] []).lanes[(engine [laneWithS 41 0] []).cur]? = some (laneWithS 41 0) := by decide
theorem witness_MixcolumnsMultipliesEachColumn :
    (engine [laneWithS 38 0] []).lanes[(engine [laneWithS 38 0] []).cur]? = some (laneWithS 38 0) := by decide

theorem witness_AddroundkeyXorsARoundKey :
    (engine [laneWithS 42 0] []).lanes[(engine [laneWithS 42 0] []).cur]? = some (laneWithS 42 0) ∧
    (10 : BitVec 4).toNat ≤ 10 ∧ 10 < (11 : BitVec 4).toNat ∧ decode 0x4a = .ok (.addroundkey 10) ∧
    (Schedule.fill (.fill 0)).key 10 = .fill 0 := by decide

theorem witness_StorectDeliversTheCiphertext :
    (engine [laneWithS 43 0] []).lanes[(engine [laneWithS 43 0] []).cur]? = some (laneWithS 43 0) ∧
    isNext (exec .subbytes (engine [laneWithS 4 0] [])) = true ∧ Instr.subbytes ≠ .storect ∧
    (engine [laneAtUpc 44] []).lanes[0]? = some (laneAtUpc 44) ∧ (laneAtUpc 44).upc = 44 ∧
    (laneAtUpc 44).overrun = none := by decide

/-- Each micro-operation that writes the State answers a next state. -/
theorem witness_StateWritersFrame :
    isNext (exec .loadpt (engine [laneAtUpc 2] [])) = true ∧
    isNext (exec (.addroundkey 10) (engine [laneWithS 42 0] [])) = true ∧
    isNext (exec .subbytes (engine [laneWithS 4 0] [])) = true ∧
    isNext (exec .shiftrows (engine [laneWithS 5 0] [])) = true ∧
    isNext (exec .mixcolumns (engine [laneWithS 6 0] [])) = true := by decide
theorem witness_KeyexpandFrame : isNext (exec .keyexpand (engine [laneAtUpc 1] [])) = true := by rfl
theorem witness_ValidateFrame :
    isNext (exec .validate (engine [laneAtUpc 0] [])) = true ∧
    isNext (exec .validate (engine [{ laneAtUpc 0 with inKlen := 15 }] [])) = true := by decide
theorem witness_StorectFrame : isNext (exec .storect (engine [laneWithS 43 0] [])) = true := by decide

/-- The same lane alone, and as lane 1 of another engine; a next state, a fault and a refusal. -/
theorem witness_LaneReadsOnlyItsOwnRegisters :
    (let l := laneAtUpc 2
     let s := engine [l] []
     let s' := { engine [laneAtUpc 63, l] [.complete] with cur := 1 }
     s.lanes[s.cur]? = some l ∧ s'.lanes[s'.cur]? = some l ∧ isNext (exec .loadpt s) = true) ∧
    exec .loadpt (engine [Lane.reset 0] []) = .fault .unwrittenPlaintext ∧
    exec (.addroundkey 11) (engine [Lane.reset 0] []) = .refused (.roundKeyIndex 11) :=
  ⟨by decide, rfl, rfl⟩

/-- `COUNT` above `N`, equal to `N`, and 0; and a busy engine. -/
theorem witness_SetCountAndStart :
    (let s := { quietEngine [laneAtUpc 63] [.host .start] with count := 2 }
     s.agenda = [.host .start] ∧ s.busy = false ∧ s.lanes.length < s.count.toNat) ∧
    (let s := { quietEngine [laneAtUpc 63] [.host .start] with count := 1 }
     s.agenda = [.host .start] ∧ s.busy = false ∧ s.count.toNat ≤ s.lanes.length ∧ s.count ≠ 0) ∧
    (let s := quietEngine [laneAtUpc 63] [.host .start]
     s.busy = false ∧ s.count.toNat ≤ s.lanes.length ∧ s.count = 0) ∧
    (let s := engine [laneAtUpc 0] [.host .start]
     s.agenda = [.host .start] ∧ s.busy = true) ∧
    (quietEngine [] [.host (.setCount 65535)]).agenda = [.host (.setCount 65535)] := by decide

theorem witness_CompletionStepJoinsTheLanes :
    (let s := engine [laneAtUpc 44, laneAtUpc 62, laneAtUpc 63] [.complete]
     s.agenda = [.complete] ∧ s.busy = true ∧ ∀ l ∈ s.lanes, l.overrun = none ∧ (l.upc = 44 ∨ l.upc = 62 ∨ l.upc = 63)) ∧
    (let s := engine [laneAtUpc 44, laneAtUpc 43] [.complete]
     s.agenda = [.complete] ∧ ∃ l ∈ s.lanes, l.upc ≠ 44 ∧ l.upc ≠ 62 ∧ l.upc ≠ 63) ∧
    (let s := engine [{ laneAtUpc 44 with overrun := some 0 }] [.complete]
     s.agenda = [.complete] ∧ ∃ l ∈ s.lanes, l.overrun ≠ none) ∧
    (quietEngine [] [.complete]).busy = false := by decide

/-- A key of 17 bytes, a plaintext of 1, and a busy engine. -/
theorem witness_LoadPairStoresTheSlot :
    (let a := Event.host (.loadPair 0 (List.replicate 17 1) [2])
     (quietEngine [laneAtUpc 63] [a]).agenda = [a] ∧ (quietEngine [laneAtUpc 63] [a]).lanes[0]? = some (laneAtUpc 63) ∧
      (quietEngine [laneAtUpc 63] [a]).busy = false ∧ (engine [laneAtUpc 0] [a]).busy = true ∧
      15 < (List.replicate 17 (1 : Byte)).length ∧ ([2] : List Byte).length ≤ 1) ∧
    0 < (quietEngine [laneAtUpc 63] []).lanes.length := by decide

theorem witness_HostReadsChangeNothing :
    (quietEngine [] [.host .readStatus]).agenda = [.host .readStatus] ∧
    (quietEngine [] [.host .readN]).agenda = [.host .readN] ∧
    (quietEngine [] [.host .readCount]).agenda = [.host .readCount] ∧
    (let l := { laneAtUpc 44 with outValid := true }
     let s := { quietEngine [l, laneAtUpc 63] [.host (.readLane 0)] with done := true }
     s.agenda = [.host (.readLane 0)] ∧ s.lanes[0]? = some l ∧ s.done = true ∧ l.outValid = true ∧
      s.lanes[1]? = some (laneAtUpc 63) ∧ (laneAtUpc 63).outValid = false ∧
      (engine [l] [.host (.readLane 0)]).done = false) := by decide

theorem witness_BusyEngineRefusesTheHost :
    (engine [laneAtUpc 0] [.host .start]).busy = true ∧
    (engine [laneAtUpc 0] [.host .start]).agenda = [.host .start] ∧
    (engine [laneAtUpc 0] [.host (.writeKeyByte 0 15 1)]).agenda = [.host (.writeKeyByte 0 15 1)] := by decide

/-- A reset in the middle of a batch. -/
theorem witness_ResetRestoresEveryRegister :
    (engine [laneAtUpc 20] [.host .reset]).agenda = [.host .reset] ∧ (engine [laneAtUpc 20] [.host .reset]).busy = true := by
  decide

theorem witness_StatusViewBits : 3 ≤ 3 ∧ 3 ≤ 7 := by decide

theorem witness_LaneStatusViewBits :
    (let l := { laneAtUpc 44 with outValid := true }
     let s := { quietEngine [l] [] with done := true }
     s.lanes[0]? = some l ∧ s.done = true) := by decide

/-- A write at the last index of each space that may be written. -/
theorem witness_MemWriteThenMemRead :
    let s := engine [laneWithRk 42 0] []
    (memWrite s .rk 0 175 1).isSome = true ∧ (memWrite s .state 0 15 1).isSome = true ∧
    (memWrite s .key 0 15 1).isSome = true ∧ (memWrite s .block 0 15 1).isSome = true ∧
    (memWrite s .ciphertext 0 15 1).isSome = true ∧ (memWrite s .keyLength 0 0 1).isSome = true ∧
    (memWrite s .blockLength 0 0 1).isSome = true ∧ (Space.state, 0, 14) ≠ (Space.state, 0, 15) := ⟨rfl, rfl, rfl, rfl, rfl, rfl, rfl, by decide⟩

theorem witness_ControlStoreNeverChanges :
    isNext (step (engine [laneAtUpc 0] [])) = true ∧ (engine [laneAtUpc 43] []).ctrl = .rom ∧
    (laneAtUpc 43).overrun = none ∧ (laneAtUpc 43).upc.toNat < 44 := by decide

theorem witness_EqualReadsMeanEqualStores :
    (ControlStore.mk [(0, 0x80), (43, 0x10)] 44).wf = true ∧
    ∀ a : Nat, (ControlStore.mk [(0, 0x80), (43, 0x10)] 44).read a = (ControlStore.mk [(0, 0x80), (43, 0x10)] 44).read a :=
  ⟨by decide, fun _ => rfl⟩

theorem witness_LaneCountNeverChanges :
    isNext (step (engine [laneAtUpc 0] [])) = true ∧ (engine [laneAtUpc 0] []).Inv :=
  ⟨by decide, one_lane_inv (.inl rfl) []⟩

theorem witness_StepKeepsTheInvariant :
    (engine [laneAtUpc 0] []).Inv ∧ isNext (step (engine [laneAtUpc 0] [])) = true ∧
    (engine [laneAtUpc 0] [.host .reset]).Inv ∧ isNext (step (engine [laneAtUpc 0] [.host .reset])) = true :=
  ⟨one_lane_inv (.inl rfl) [], by decide, one_lane_inv (.inl rfl) _, by decide⟩

theorem witness_ResetMeetsTheInvariant : (1 ≤ 1 ∧ 1 ≤ 65534) ∧ (1 ≤ 65534 ∧ 65534 ≤ 65534) := by decide

/-- A step, a step to Faulted, a START and a reset. -/
theorem witness_UpcMovesOnlyForward :
    (engine [laneWithS 43 0] []).ctrl = .rom ∧ (after (step (engine [laneWithS 43 0] []))).map Lane.upc = some 44 ∧
    (after (step (engine [{ laneAtUpc 0 with inKlen := 15 }] []))).map Lane.upc = some 62 ∧
    isNext (step (quietEngine [laneAtUpc 44] [.host .start])) = true ∧
    isNext (step (engine [laneAtUpc 20] [.host .reset])) = true := by decide

/-- Two lanes at one place with different data. -/
theorem witness_SequenceIgnoresTheData :
    (engine [laneWithS 40 0] []).ctrl = .rom ∧ (engine [laneWithS 40 0] []).lanes[0]? = some (laneWithS 40 0) ∧
    (engine [laneAtUpc 63, laneWithS 40 1] []).lanes[1]? = some (laneWithS 40 1) ∧
    (laneWithS 40 0).upc = (laneWithS 40 1).upc ∧ (laneWithS 40 0).overrun = (laneWithS 40 1).overrun ∧
    (((laneWithS 40 0).inKlen = 16 ∧ (laneWithS 40 0).inPlen = 16) ↔
      ((laneWithS 40 1).inKlen = 16 ∧ (laneWithS 40 1).inPlen = 16)) ∧
    isNext (laneStep 0 (engine [laneWithS 40 0] [])) = true ∧
    isNext (laneStep 1 (engine [laneAtUpc 63, laneWithS 40 1] [])) = true := by decide

theorem witness_PhasesAreEnteredAsTheDocumentSays :
    let s := engine [laneWithS 42 0] []
    s.ctrl = .rom ∧ s.lanes[0]? = some (laneWithS 42 0) ∧
      s.fetch (laneWithS 42 0) = some 0x4a ∧ decode 0x4a = .ok (.addroundkey 10) ∧ isNext (laneStep 0 s) = true := by decide

/-- A lane whose output becomes valid; and one whose valid output a START, and a reset, clears. -/
theorem witness_OutValidSetByStorectOnly :
    (laneWithS 43 0).outValid = false ∧
    (after (step (engine [laneWithS 43 0] []))).map Lane.outValid = some true ∧
    (let l := { laneAtUpc 44 with outValid := true }
     (after (step (quietEngine [l] [.host .start]))).map Lane.outValid = some false ∧
     (after (step (quietEngine [l] [.host .reset]))).map Lane.outValid = some false) := by decide

theorem witness_ErrWrittenByValidateOnly :
    (laneAtUpc 0).err = 0 ∧
    (after (step (engine [{ laneAtUpc 0 with inPlen := 17 }] []))).map Lane.err = some 2 ∧
    (let l := { laneAtUpc 62 with err := 3 }
     (after (step (quietEngine [l] [.host .start]))).map Lane.err = some 0 ∧
     (after (step (quietEngine [l] [.host .reset]))).map Lane.err = some 0) := by decide

theorem witness_LaneEncryptsIn44Steps :
    let l := laneAtUpc 0
    let s := engine [laneAtUpc 63, l] (List.replicate 44 (.lane 1) ++ [.complete])
    s.ctrl = .rom ∧ s.lanes[1]? = some l ∧ l.upc = 0 ∧ l.overrun = none ∧ l.outValid = false ∧ l.err = 0 ∧ l.inKlen = 16 ∧ l.inPlen = 16 ∧
      l.readKey = some (Block.unpack 0x000102030405060708090a0b0c0d0e0f) ∧
      l.readPt = some (Block.unpack 0x00112233445566778899aabbccddeeff) ∧
      s.agenda = List.replicate 44 (.lane 1) ++ [.complete] := by decide

theorem witness_LaneStepsCommute :
    let s := engine [laneAtUpc 0, laneWithS 43 0] []
    0 ≠ 1 ∧ ∃ a b : State, laneStep 0 s = .next a ∧ laneStep 1 a = .next b := ⟨by decide, _, _, rfl, rfl⟩

theorem witness_EveryScheduleGivesTheSameLanes :
    [0, 1, 0].Perm [1, 0, 0] ∧
    isNext (runFor 3 { engine [laneAtUpc 0, laneWithS 43 0] [] with agenda := [0, 1, 0].map .lane }) = true :=
  ⟨by decide, by rfl⟩

/-- A slot that holds the pair of spec/95_test_vectors.md V1. -/
theorem laneAtUpc_holds (u : BitVec 6) :
    (laneAtUpc u).HoldsPair (Block.unpack 0x000102030405060708090a0b0c0d0e0f).toList
      (Block.unpack 0x00112233445566778899aabbccddeeff).toList :=
  ⟨by decide +revert, by decide +revert, fun _ => by decide +revert, fun _ => by decide +revert⟩

/-- A slot that holds no byte of a key and no byte of a plaintext, as after reset. -/
theorem reset_holds (p : Nat) : (Lane.reset p).HoldsPair [] [] := by
  unfold Lane.HoldsPair
  exact ⟨rfl, rfl, by simp, by simp⟩

/-- A batch of a good and a bad pair on three lanes, with a schedule that mixes lane steps and host reads. -/
theorem witness_EveryBatchEnds :
    let k := (Block.unpack 0x000102030405060708090a0b0c0d0e0f).toList
    let p := (Block.unpack 0x00112233445566778899aabbccddeeff).toList
    let sched : List Event := [.lane 1, .lane 2, .host .readStatus, .complete, .lane 0, .engine]
    let s := { quietEngine [laneAtUpc 63, Lane.reset 1, Lane.reset 2] (.host .start :: sched) with count := 2 }
    s.ctrl = .rom ∧ s.busy = false ∧ s.Loaded [(k, p), ([], [])] ∧
      (∀ e ∈ sched, Event.quiet s.lanes.length e = true) ∧ s.agenda = .host .start :: sched := by
  refine ⟨rfl, rfl, ⟨by decide, by decide, ?_⟩, by decide, rfl⟩
  intro i key pt h
  match i, h with
  | 0, h => cases h; exact ⟨laneAtUpc 63, rfl, laneAtUpc_holds 63⟩
  | 1, h => cases h; exact ⟨Lane.reset 1, rfl, reset_holds 1⟩

/-- A run that ends with `DONE = 1`. -/
def isDone : StateOutcome → Bool
  | .next t => t.done
  | .fault _ => false
  | .refused _ => false

theorem exists_done {o : StateOutcome} (h : isDone o = true) : ∃ t, o = .next t ∧ t.done = true := by
  cases o with
  | next t => exact ⟨t, rfl, h⟩
  | fault _ => cases h
  | refused _ => cases h

/-- A slot with a good pair and one with a bad pair are loaded as two pairs. -/
theorem good_and_bad_loaded (ag : List Event) :
    State.Loaded { quietEngine [laneAtUpc 63, Lane.reset 1] ag with count := 2 }
      [((Block.unpack 0x000102030405060708090a0b0c0d0e0f).toList, (Block.unpack 0x00112233445566778899aabbccddeeff).toList),
       ([], [])] := by
  refine ⟨rfl, Nat.le_refl 2, ?_⟩
  intro i key pt h
  match i, h with
  | 0, h => cases h; exact ⟨laneAtUpc 63, rfl, laneAtUpc_holds 63⟩
  | 1, h => cases h; exact ⟨Lane.reset 1, rfl, reset_holds 1⟩

/-- A batch of a good and a bad pair, whose `DONE` is 1 after START, the failing VALIDATE, the good lane's 44 steps and the
completion step. -/
theorem witness_BatchResultsUnderEverySchedule :
    let sched : List Event := .lane 1 :: List.replicate 44 (.lane 0) ++ [.complete]
    let s := { quietEngine [laneAtUpc 63, Lane.reset 1] (.host .start :: sched) with count := 2 }
    s.ctrl = .rom ∧ s.busy = false ∧
      s.Loaded [((Block.unpack 0x000102030405060708090a0b0c0d0e0f).toList,
        (Block.unpack 0x00112233445566778899aabbccddeeff).toList), ([], [])] ∧
      (∀ e ∈ sched, Event.quiet s.lanes.length e = true) ∧ s.agenda = .host .start :: sched ∧ 1 ≤ 47 ∧
      ∃ t : State, runFor 47 s = .next t ∧ t.done = true :=
  ⟨rfl, rfl, good_and_bad_loaded _, by decide, rfl, by decide, exists_done (by decide +kernel)⟩

/-- A lane at the last place of P1, a lane past it, and a lane past what `UPC` names. -/
theorem witness_LaneRunsAnArbitraryProg :
    (let s := { engine [laneWithRk 7 0, laneAtUpc 8, { laneAtUpc 44 with overrun := some 0 }] [] with ctrl := firstRound }
     s.ctrl = .ofList [0x10, 0x20, 0x30, 0x40, 0x50, 0x60, 0x70, 0x41] ∧ s.lanes[1]? = some (laneAtUpc 8) ∧
      (laneAtUpc 8).place = some 8 ∧ ([0x10, 0x20, 0x30, 0x40, 0x50, 0x60, 0x70, 0x41] : List Byte).length ≤ 8 ∧
      s.lanes[2]? = some { laneAtUpc 44 with overrun := some 0 } ∧
      ({ laneAtUpc 44 with overrun := some 0 } : Lane).place = some 44 ∧
      s.lanes[0]? = some (laneWithRk 7 0) ∧ (laneWithRk 7 0).place = some 7 ∧ s.fetch (laneWithRk 7 0) = some 0x41 ∧
      decode 0x41 = .ok (.addroundkey 1) ∧ isNext (laneStep 0 s) = true) ∧
    (let s := engine [laneWithS 43 0, { laneAtUpc 0 with inKlen := 15 }] []
     s.lanes[0]? = some (laneWithS 43 0) ∧ (laneWithS 43 0).place = some 43 ∧ s.fetch (laneWithS 43 0) = some 0x80 ∧
      decode 0x80 = .ok .storect ∧ isNext (laneStep 0 s) = true ∧ isNext (laneStep 1 s) = true) := by decide +kernel

/-- A batch of a good pair just started, with lane 1 unselected. -/
theorem started_batch (ag : List Event) :
    (engine [laneAtUpc 0, laneAtUpc 63] ag).Batch
      [((Block.unpack 0x000102030405060708090a0b0c0d0e0f).toList, (Block.unpack 0x00112233445566778899aabbccddeeff).toList)]
    where
  store := rfl
  fits := by show 1 ≤ 2; decide
  noError := rfl
  flags := .inl ⟨rfl, rfl⟩
  runs := by
    intro i key pt h
    match i, h with
    | 0, h =>
      cases h
      refine ⟨laneAtUpc 0, rfl, laneAtUpc_holds 0, rfl, ?_⟩
      rw [if_pos (by decide)]
      exact ⟨by decide, rfl, by decide, fun h => absurd h (by decide), fun h => absurd h (by decide),
        fun h => absurd h (by decide)⟩
  unselected := by
    intro i l hi hl
    match i, hl with
    | 0, _ => exact absurd hi (by decide)
    | 1, hl => cases hl; exact ⟨rfl, rfl, rfl, rfl⟩
    | i + 2, hl => cases hl

/-- That batch, with a lane step, a host read and the completion step to come. -/
theorem witness_StepKeepsTheBatchInvariant :
    let s := engine [laneAtUpc 0, laneAtUpc 63] [.lane 0, .host .readStatus, .complete]
    s.Batch [((Block.unpack 0x000102030405060708090a0b0c0d0e0f).toList,
        (Block.unpack 0x00112233445566778899aabbccddeeff).toList)] ∧
      ∀ e : Event, s.agenda.head? = some e → e.quiet s.lanes.length = true := by
  refine ⟨started_batch _, ?_⟩
  intro e he
  cases he
  decide

/-- The lane of a good pair that is `Done`: its ciphertext is that of spec/95_test_vectors.md V1. -/
def laneDone : Lane :=
  { laneWithRk 44 0 with
    outCt := Block.unpack 0x69c4e0d86a7b0430d8cdb78070b4c55a
    outCtWritten := .fill true
    outValid := true }

/-- A loaded engine; and a batch of a good and a bad pair that is over. -/
theorem witness_BatchInvariantBeginsAndEnds :
    let pairs := [((Block.unpack 0x000102030405060708090a0b0c0d0e0f).toList,
      (Block.unpack 0x00112233445566778899aabbccddeeff).toList), ([], [])]
    (let s := { quietEngine [laneAtUpc 63, Lane.reset 1] [.host .start] with count := 2 }
     s.ctrl = .rom ∧ s.busy = false ∧ s.Loaded pairs ∧ s.agenda = [.host .start]) ∧
    (let s := { quietEngine [laneDone, { Lane.reset 1 with upc := 62, err := 3 }, laneAtUpc 63] [] with done := true }
     s.Batch pairs ∧ s.done = true) := by
  refine ⟨⟨rfl, rfl, good_and_bad_loaded _, rfl⟩, ?_, rfl⟩
  refine ⟨rfl, by decide, rfl, .inr ⟨rfl, rfl, by decide⟩, ?_, ?_⟩
  · intro i key pt h
    match i, h with
    | 0, h =>
      cases h
      refine ⟨laneDone, rfl, laneAtUpc_holds 0, rfl, ?_⟩
      rw [if_pos (by decide)]
      exact ⟨by decide, rfl, by decide, fun _ => ⟨rfl, by decide +kernel⟩, fun _ h => absurd h (by decide),
        fun _ => by decide +kernel⟩
    | 1, h =>
      cases h
      refine ⟨_, rfl, reset_holds 1, rfl, ?_⟩
      rw [if_neg (by decide)]
      exact ⟨rfl, .inr ⟨rfl, by decide, by decide⟩⟩
  · intro i l hi hl
    match i, hl with
    | 0, _ => exact absurd hi (by decide)
    | 1, _ => exact absurd hi (by decide)
    | 2, hl => cases hl; exact ⟨rfl, rfl, rfl, rfl⟩
    | i + 3, hl => cases hl

end Sys2Proof.Tests
end

section
/-! PROOF. The invariant of a step, lane by lane and operation by operation. -/

namespace Sys2Proof.Machine

/-! ### Lanes that meet the invariant -/

/-- With the hardware's store such a lane has a step exactly while it is in `Run(u)`. -/
theorem Lane.Ok.running_iff {l : Lane} (h : l.Ok) : l.running .rom = true ↔ l.upc.toNat < 44 := by
  rw [running_rom h.noOverrun, decide_eq_true_iff]

/-- `Run(u)` is neither `Done` nor `Faulted`. -/
theorem upc_ne_of_lt {u : BitVec 6} (h : u.toNat < 44) : u ≠ upcDone ∧ u ≠ upcFaulted :=
  ⟨fun e => absurd (e ▸ h) (by decide), fun e => absurd (e ▸ h) (by decide)⟩

/-- A lane in `Run(u)` shows neither a result nor an error. -/
theorem Lane.Ok.clear_of_lt {l : Lane} (h : l.Ok) (hu : l.upc.toNat < 44) : l.outValid = false ∧ l.err = 0 := by
  obtain ⟨hd, hf⟩ := upc_ne_of_lt hu
  exact ⟨by simpa using mt h.validIffDone.1 hd, by simpa using mt h.errIffFaulted.1 hf⟩

/-- A lane in `Run(u)` meets the invariant when it shows neither a result nor an error and has what the micro-operations
before `u` leave behind (spec/10_state.md R45). -/
theorem Lane.ok_of_run {l : Lane} (ho : l.overrun = none) (hu : l.upc.toNat < 44) (hv : l.outValid = false)
    (he : l.err = 0) (hlen : 1 ≤ l.upc.toNat → l.inKlen = 16 ∧ l.inPlen = 16)
    (hrk : 2 ≤ l.upc.toNat → l.rkWritten = true) (hs : 3 ≤ l.upc.toNat → l.sWritten = true) : l.Ok where
  noOverrun := ho
  legalUpc := .inl (by omega)
  validIffDone := iff_of_false (by simp [hv]) (upc_ne_of_lt hu).1
  errIffFaulted := iff_of_false (by simp [he]) (upc_ne_of_lt hu).2
  lengths h _ := hlen h
  rkWritten h _ := hrk h
  sWritten h _ := hs h
  outWritten h := by simp [hv] at h

/-- A lane that is `Faulted` or `Idle` meets the invariant when it shows no result, and an error exactly where it is
`Faulted`. -/
theorem Lane.ok_of_stopped {l : Lane} (ho : l.overrun = none) (hv : l.outValid = false)
    (hu : l.upc = upcFaulted ∧ l.err ≠ 0 ∨ l.upc = upcIdle ∧ l.err = 0) : l.Ok := by
  have h62 : 62 ≤ l.upc.toNat := by rcases hu with ⟨e, -⟩ | ⟨e, -⟩ <;> rw [e] <;> decide
  exact
    { noOverrun := ho
      legalUpc := .inr (hu.imp And.left And.left)
      validIffDone := iff_of_false (by simp [hv]) fun e => absurd (e ▸ h62) (by decide)
      errIffFaulted := hu.elim (fun ⟨e, he⟩ => iff_of_true he e)
        fun ⟨e, he⟩ => iff_of_false (by simp [he]) (e ▸ by decide)
      lengths := fun _ h => by omega
      rkWritten := fun _ h => by omega
      sWritten := fun _ h => by omega
      outWritten := fun h => by simp [hv] at h }

theorem Lane.ok_reset (p : Nat) : (Lane.reset p).Ok := ok_of_stopped rfl rfl (.inr ⟨rfl, rfl⟩)

/-- START leaves a lane at the first place or idle (spec/44_batch_driver.md R184). -/
theorem Lane.ok_restart (l : Lane) {v : BitVec 6} (hv : v = upcStart ∨ v = upcIdle) : (l.restart v).Ok := by
  obtain rfl | rfl := hv
  · have h0 : (l.restart upcStart).upc.toNat = 0 := rfl
    exact ok_of_run rfl (by omega) rfl rfl (by omega) (by omega) (by omega)
  · exact ok_of_stopped rfl rfl (.inr ⟨rfl, rfl⟩)

/-- `l'` holds the registers of `l` but for its input slot, as after a host write (spec/44_batch_driver.md R183). -/
abbrev Lane.SameButSlot (l l' : Lane) : Prop :=
  l' = { l with inKlen := l'.inKlen, inKey := l'.inKey, inKeyWritten := l'.inKeyWritten,
                inPlen := l'.inPlen, inPt := l'.inPt, inPtWritten := l'.inPtWritten }

/-- A host write to the input slot of a lane that has no step. -/
theorem Lane.Ok.of_slot_write {l l' : Lane} (h : l.Ok) (hu : 44 ≤ l.upc.toNat) (e : l.SameButSlot l') : l'.Ok := by
  rw [e]
  exact { h with lengths := fun _ h43 => absurd (Nat.le_trans hu h43) (by decide) }

/-- The successor of a micro-operation without error, for a lane that holds what the places up to this one provide. -/
theorem Lane.ok_advance {l : Lane} (ho : l.overrun = none) (hu : l.upc.toNat < 43) (hv : l.outValid = false)
    (he : l.err = 0) (hlen : l.inKlen = 16 ∧ l.inPlen = 16) (hrk : 1 ≤ l.upc.toNat → l.rkWritten = true)
    (hs : 2 ≤ l.upc.toNat → l.sWritten = true) : l.advance.Ok := by
  have hsucc : l.advance.upc.toNat = l.upc.toNat + 1 := upc_succ_toNat (by omega)
  exact ok_of_run (nextOverrun_eq_none ho (by omega)) (by omega) hv he (fun _ => hlen) (fun _ => hrk (by omega))
    (fun _ => hs (by omega))

/-- A lane's step from the hardware's control store keeps the lane's part of the invariant: each place provides what the
later ones need (spec/10_state.md R45). -/
theorem Lane.Ok.laneExec_romInstr {l l' : Lane} (h : l.Ok) (hu : l.upc.toNat < 44)
    (he : laneExec (romInstr l.upc.toNat) l = .next l') : l'.Ok := by
  obtain ⟨hv, herr⟩ := h.clear_of_lt hu
  have ho := h.noOverrun
  rcases laneExec_romInstr_next hu he with
    ⟨h0, hk, hp, rfl⟩ | ⟨-, hne, rfl⟩ | ⟨h1, k, -, rfl⟩ | ⟨h2, p, -, rfl⟩ | ⟨h3, h42, x, rfl⟩ | ⟨h43, rfl⟩
  · exact ok_advance ho (by omega) hv herr ⟨hk, hp⟩ (by omega) (by omega)
  · exact ok_of_stopped rfl hv (.inl ⟨rfl, hne⟩)
  · exact ok_advance ho (show l.upc.toNat < 43 by omega) hv herr (h.lengths (by omega) (by omega)) (fun _ => rfl)
      fun (h2 : 2 ≤ l.upc.toNat) => by omega
  · exact ok_advance ho (show l.upc.toNat < 43 by omega) hv herr (h.lengths (by omega) (by omega))
      (fun _ => h.rkWritten (by omega) (by omega)) fun _ => rfl
  · exact ok_advance ho (show l.upc.toNat < 43 by omega) hv herr (h.lengths (by omega) (by omega))
      (fun _ => h.rkWritten (by omega) (by omega)) fun _ => rfl
  · exact
      { noOverrun := rfl
        legalUpc := .inl (Nat.le_refl 44)
        validIffDone := iff_of_true rfl rfl
        errIffFaulted := iff_of_false (not_not_intro herr) (by decide : upcDone ≠ upcFaulted)
        lengths := fun _ h43 => absurd h43 (by decide : ¬ upcDone.toNat ≤ 43)
        rkWritten := fun _ _ => h.rkWritten (by omega) (by omega)
        sWritten := fun _ _ => h.sWritten (by omega) (by omega)
        outWritten := fun _ => rfl }

/-! ### Operations that keep the invariant -/

/-- The invariant speaks of the lanes, the flags and the control store alone. -/
theorem State.Inv.congr {s t : State} (h : s.Inv) (hl : t.lanes = s.lanes) (hb : t.busy = s.busy) (hd : t.done = s.done)
    (he : t.berr = s.berr) (hc : t.ctrl = s.ctrl) : t.Inv where
  store := hc ▸ h.store
  laneCount := hl ▸ h.laneCount
  lanes := hl ▸ h.lanes
  busyOfRunning := by rw [hl, hb, hc]; exact h.busyOfRunning
  busyNotDone := by rw [hb, hd, he]; exact h.busyNotDone
  berrIdle := by rw [hl, hd, he]; exact h.berrIdle

/-- One lane replaced. -/
theorem State.Inv.putLane {s : State} (h : s.Inv) (i : Nat) {l : Lane} (hok : l.Ok)
    (hrun : l.running s.ctrl = true → s.busy = true) (hidle : s.berr = true → l.upc = upcIdle) : (s.putLane i l).Inv where
  store := h.store
  laneCount := by rw [putLane_length]; exact h.laneCount
  lanes m hm := (mem_putLane hm).elim (· ▸ hok) (h.lanes m)
  busyOfRunning m hm := (mem_putLane hm).elim (· ▸ hrun) (h.busyOfRunning m)
  busyNotDone := h.busyNotDone
  berrIdle he := ⟨(h.berrIdle he).1, fun m hm => (mem_putLane hm).elim (· ▸ hidle he) ((h.berrIdle he).2 m)⟩

/-- In an engine that is not busy no lane has a step. -/
theorem State.Inv.le_upc_of_not_busy {s : State} (h : s.Inv) (hb : s.busy = false) {l : Lane} (hl : l ∈ s.lanes) :
    44 ≤ l.upc.toNat := by
  have hr := mt (h.busyOfRunning l hl) (by simp [hb])
  rw [h.store, (h.lanes l hl).running_iff] at hr
  omega

/-- A host write to an input slot, which is made while the engine is not busy (spec/44_batch_driver.md R183). -/
theorem State.Inv.slot_write {s : State} (h : s.Inv) {i : Nat} {l l' : Lane} (hb : s.busy = false)
    (hl : s.lanes[i]? = some l) (e : l.SameButSlot l') : (s.putLane i l').Inv := by
  have hm := List.mem_of_getElem? hl
  have hu : l'.upc = l.upc := by rw [e]
  have h44 := h.le_upc_of_not_busy hb hm
  have hok := (h.lanes l hm).of_slot_write h44 e
  refine h.putLane i hok (fun hr => ?_) (fun he => hu.trans ((h.berrIdle he).2 l hm))
  rw [h.store, hok.running_iff, hu] at hr
  omega

/-- The step of a lane (spec/43_cipher_pipeline.md R155), which is taken only while the engine is busy. -/
theorem State.Inv.laneStep {s t : State} (h : s.Inv) {i : Nat} (hs : laneStep i s = .next t) : t.Inv := by
  obtain ⟨l, hl, ⟨-, rfl⟩ | ⟨l', hr, he, rfl⟩⟩ := laneStep_rom_next h.store hs
  · exact h
  · have hm := List.mem_of_getElem? hl
    have hok := h.lanes l hm
    have hb : s.busy = true := h.busyOfRunning l hm (h.store ▸ hr)
    have hnot : s.berr = false := (h.busyNotDone hb).2
    exact (h.congr (t := { s with cur := i }) rfl rfl rfl rfl rfl).putLane i
      (hok.laneExec_romInstr (hok.running_iff.1 hr) he) (fun _ => hb) (by simp [hnot])

/-- The completion step, which finds every lane settled (spec/44_batch_driver.md R186). -/
theorem State.Inv.completeBatch {s : State} (h : s.Inv) (hc : s.canComplete = true) : s.completeBatch.Inv := by
  simp only [canComplete, Bool.and_eq_true, List.all_eq_true] at hc
  obtain ⟨hb, hset⟩ := hc
  exact
    { store := h.store
      laneCount := h.laneCount
      lanes := h.lanes
      busyOfRunning := fun l hl hr => by
        obtain ⟨w, hw⟩ := Machine.running_iff.1 hr
        cases (fetch_of_settled (hset l hl) _).symm.trans hw
      busyNotDone := fun hf => absurd hf (by simp)
      berrIdle := fun he => absurd he (by simp [(h.busyNotDone hb).2]) }

/-- Lanes that are all as reset leaves them, in an engine that is neither busy nor in error (spec/10_state.md R43). -/
theorem State.inv_of_reset {s : State} (hc : s.ctrl = .rom)
    (hn : Config.minLanes ≤ s.lanes.length ∧ s.lanes.length ≤ Config.maxLanes)
    (hl : ∀ l ∈ s.lanes, ∃ p, l = Lane.reset p) (hb : s.busy = false) (he : s.berr = false) : s.Inv where
  store := hc
  laneCount := hn
  lanes l hm := by obtain ⟨p, rfl⟩ := hl l hm; exact Lane.ok_reset p
  busyOfRunning l hm hr := by
    obtain ⟨p, rfl⟩ := hl l hm
    exact absurd ((Lane.ok_reset p).running_iff.1 (hc ▸ hr)) (by simp)
  busyNotDone h := absurd h (by simp [hb])
  berrIdle h := absurd h (by simp [he])

/-- Reset as a host action (spec/70_reset_and_hazards.md R230). -/
theorem State.Inv.resetEngine {s : State} (h : s.Inv) : s.resetEngine.Inv :=
  inv_of_reset h.store (by simpa using h.laneCount)
    (fun l hl => by obtain ⟨m, -, rfl⟩ := List.mem_map.1 hl; exact ⟨_, rfl⟩) rfl rfl

/-! ### START -/

/-- What START does: a batch error where `COUNT` is above `N`, otherwise a batch of `COUNT` lanes
(spec/44_batch_driver.md R184). -/
theorem State.startBatch_cases (s : State) :
    (s.lanes.length < s.count.toNat ∧ s.startBatch = s.raiseLaneCountMismatch) ∨
    (s.count.toNat ≤ s.lanes.length ∧ s.startBatch.lanes = startLanes s.count.toNat s.lanes ∧
      s.startBatch.berr = false ∧ s.startBatch.done = decide (s.count.toNat = 0) ∧
      s.startBatch.busy = decide (s.count.toNat ≠ 0)) := by
  unfold startBatch
  split
  · next h => exact .inl ⟨h, rfl⟩
  · next h => exact .inr ⟨Nat.le_of_not_lt h, rfl, rfl, rfl, rfl⟩

/-- START keeps the lane count. -/
@[simp] theorem State.startBatch_length (s : State) : s.startBatch.lanes.length = s.lanes.length := by
  obtain ⟨-, e⟩ | ⟨-, e, -⟩ := s.startBatch_cases
  · simp [e]
  · rw [e, startLanes_length]

/-- START restarts every lane: at the first place only in an engine that is busy from then on, otherwise idle
(spec/44_batch_driver.md R184). -/
theorem State.startBatch_getElem? {s : State} {i : Nat} {m : Lane} (h : s.startBatch.lanes[i]? = some m) :
    ∃ (l : Lane) (v : BitVec 6), s.lanes[i]? = some l ∧ m = l.restart v ∧
      (v = upcStart ∧ s.startBatch.busy = true ∨ v = upcIdle) := by
  obtain ⟨-, e⟩ | ⟨-, e, -, -, hb⟩ := s.startBatch_cases
  · rw [e, raiseLaneCountMismatch_lanes, List.getElem?_map, Option.map_eq_some_iff] at h
    obtain ⟨l, hl, rfl⟩ := h
    exact ⟨l, _, hl, rfl, .inr rfl⟩
  · rw [e, startLanes_getElem?, Option.map_eq_some_iff] at h
    obtain ⟨l, hl, rfl⟩ := h
    refine ⟨l, _, hl, rfl, ?_⟩
    split
    · next hi => exact .inl ⟨rfl, by rw [hb, decide_eq_true_iff]; omega⟩
    · exact .inr rfl

/-- The same of a lane by membership. -/
theorem State.mem_startBatch {s : State} {m : Lane} (h : m ∈ s.startBatch.lanes) :
    ∃ (l : Lane) (v : BitVec 6), m = l.restart v ∧ (v = upcStart ∧ s.startBatch.busy = true ∨ v = upcIdle) := by
  obtain ⟨i, hi⟩ := List.mem_iff_getElem?.1 h
  obtain ⟨l, v, -, hm⟩ := startBatch_getElem? hi
  exact ⟨l, v, hm⟩

/-- START as the flags show it: a busy engine is not done and has no batch error, and a batch error comes with `DONE` and
idle lanes (spec/44_batch_driver.md R184, spec/60_exceptions.md R206). -/
theorem State.startBatch_flags (s : State) :
    (s.startBatch.busy = true → s.startBatch.done = false ∧ s.startBatch.berr = false) ∧
    (s.startBatch.berr = true → s.startBatch.done = true ∧ ∀ l ∈ s.startBatch.lanes, l.upc = upcIdle) := by
  obtain ⟨-, e⟩ | ⟨-, -, he, hd, hb⟩ := s.startBatch_cases
  · simp [e]
  · simp [he, hd, hb]

/-- START, whatever `COUNT` is (spec/44_batch_driver.md R184). -/
theorem State.Inv.startBatch {s : State} (h : s.Inv) : s.startBatch.Inv where
  store := by rw [startBatch_ctrl, h.store]
  laneCount := by rw [startBatch_length]; exact h.laneCount
  lanes m hm := by
    obtain ⟨l, v, rfl, hv⟩ := mem_startBatch hm
    exact l.ok_restart (hv.imp_left And.left)
  busyOfRunning m hm hr := by
    obtain ⟨l, v, rfl, ⟨-, hb⟩ | rfl⟩ := mem_startBatch hm
    · exact hb
    · rw [startBatch_ctrl, h.store, (l.ok_restart (.inr rfl)).running_iff] at hr
      exact absurd hr (by decide : ¬ upcIdle.toNat < 44)
  busyNotDone := s.startBatch_flags.1
  berrIdle := s.startBatch_flags.2

/-! ### Host actions and steps -/

/-- Every host action keeps the invariant. -/
theorem State.Inv.hostAct {s t : State} (h : s.Inv) {a : HostAction} (ha : hostAct a s = .next t) : t.Inv := by
  rcases hostAct_next ha with ⟨i, l, l', hb, hl, rfl, e⟩ | ⟨m, -, rfl⟩ | ⟨-, -, rfl⟩ | ⟨r, rfl⟩ | ⟨-, rfl⟩
  · exact h.slot_write hb hl e
  · exact h.congr rfl rfl rfl rfl rfl
  · exact h.startBatch
  · exact h.congr rfl rfl rfl rfl rfl
  · exact h.resetEngine

/-- Settles O45, by what a step can do: a host action, the step of a lane, or the completion step. -/
theorem stepKeepsTheInvariant : Obligations.StepKeepsTheInvariant := by
  intro s t h hs
  obtain ⟨s', ⟨c, rfl⟩, hcase⟩ := step_next hs
  have h' := h.congr (t := { s with agenda := s.agenda.tail, choices := c }) rfl rfl rfl rfl rfl
  rcases hcase with ⟨a, -, ha⟩ | ⟨i, hi⟩ | rfl
  · exact h'.hostAct ha
  · exact h'.laneStep hi
  · split
    · next hc => exact h'.completeBatch hc
    · exact h'

end Sys2Proof.Machine
end

section
/-! PROOF. Reset, the lane count and the views; the frames; what writes `OUT_VALID` and `ERR`. -/

namespace Sys2Proof.Machine

/-! ### Reset and the lane count -/

/-- Settles O46: every lane is as reset leaves it. -/
theorem resetMeetsTheInvariant : Obligations.ResetMeetsTheInvariant := by
  have inv (n : Nat) (h1 : 1 ≤ n) (h2 : n ≤ 65534) : (State.resetWith n).Inv :=
    State.inv_of_reset rfl (by simp [State.resetWith, Config.minLanes, Config.maxLanes, h1, h2])
      (fun l hl => by obtain ⟨p, -, rfl⟩ := List.mem_map.1 hl; exact ⟨p, rfl⟩) rfl rfl
  exact ⟨rfl, inv 24 (by decide) (by decide), inv⟩

/-- A host action keeps the lane count. -/
theorem hostAct_length {a : HostAction} {s t : State} (h : hostAct a s = .next t) : t.lanes.length = s.lanes.length := by
  rcases hostAct_next h with ⟨i, l, l', -, -, rfl, -⟩ | ⟨m, -, rfl⟩ | ⟨-, -, rfl⟩ | ⟨r, rfl⟩ | ⟨-, rfl⟩
  · exact State.putLane_length _ _ _
  · rfl
  · exact State.startBatch_length s
  · rfl
  · simp

/-- The step of a lane keeps the lane count. -/
theorem laneStep_length {i : Nat} {s t : State} (h : laneStep i s = .next t) : t.lanes.length = s.lanes.length := by
  obtain ⟨l, -, ⟨-, rfl⟩ | ⟨w, ins, l', -, -, -, rfl⟩⟩ := laneStep_next h
  · rfl
  · exact State.putLane_length _ _ _

/-- Settles O44: each kind of step keeps the lane count, and a count within the bounds of spec/00_scope.md R6 fits 16
bits. -/
theorem laneCountNeverChanges : Obligations.LaneCountNeverChanges := by
  refine ⟨fun s t h => ?_, fun s h => ⟨rfl, ?_⟩⟩
  · obtain ⟨s', ⟨c, rfl⟩, ⟨a, -, ha⟩ | ⟨i, hi⟩ | rfl⟩ := step_next h
    · exact (hostAct_length ha).trans rfl
    · exact (laneStep_length hi).trans rfl
    · split <;> rfl
  · have hmax : s.lanes.length ≤ 65534 := h.laneCount.2
    rw [State.cfgN, BitVec.toNat_ofNat]
    omega

/-- Settles O38, from the values of the reset lane and the reset engine. -/
theorem resetStateHoldsTheSpecsValues : Obligations.ResetStateHoldsTheSpecsValues := by
  refine fun n => ⟨by simp [State.resetWith], fun l hl => ?_, rfl, rfl, rfl, rfl, ControlStore.read_rom⟩
  obtain ⟨p, -, rfl⟩ := List.mem_map.1 hl
  simp

/-! ### The views -/

/-- The one bit of a flag. -/
theorem flagByte_getLsbD (b : Bool) (k : Nat) : (flagByte b).getLsbD k = (b && decide (k = 0)) := by
  cases b
  · simp [flagByte]
  · simp [flagByte, BitVec.getLsbD_one]

/-- The bits of `STATUS` (spec/10_state.md R36). -/
theorem State.status_getLsbD (s : State) (k : Nat) :
    s.status.getLsbD k = ((s.busy && decide (k = 0)) || (s.done && decide (k = 1)) || (s.berr && decide (k = 2))) := by
  simp only [status, BitVec.getLsbD_or, BitVec.getLsbD_shiftLeft, flagByte_getLsbD]
  match k with
  | 0 => simp
  | 1 => simp
  | 2 => simp
  | k + 3 => simp

/-- The bits of `LSTAT` (spec/10_state.md R37). -/
theorem Lane.lstat_getLsbD (l : Lane) (k : Nat) :
    l.lstat.getLsbD k = ((l.outValid && decide (k = 0)) || (decide (1 ≤ k) && l.err.getLsbD (k - 1))) := by
  simp only [lstat, BitVec.getLsbD_or, BitVec.getLsbD_shiftLeft, BitVec.getLsbD_setWidth, flagByte_getLsbD]
  match k with
  | 0 => simp
  | 1 => simp
  | 2 => simp
  | k + 3 => simp [BitVec.getLsbD_of_ge]

theorem Lane.lstat_bit0 (l : Lane) : l.lstat.getLsbD 0 = l.outValid := by rw [lstat_getLsbD]; simp
theorem Lane.lstat_bit1 (l : Lane) : l.lstat.getLsbD 1 = l.err.getLsbD 0 := by rw [lstat_getLsbD]; simp
theorem Lane.lstat_bit2 (l : Lane) : l.lstat.getLsbD 2 = l.err.getLsbD 1 := by rw [lstat_getLsbD]; simp

/-- Settles O39: the bits of `STATUS`, and the reply that alone changes. -/
theorem statusViewBits : Obligations.StatusViewBits := by
  refine fun s => ⟨?_, ?_, ?_, fun k hk => ?_, s.answer (.status s.status), rfl, ⟨rfl, rfl, rfl, rfl, rfl, rfl⟩, rfl⟩
  · rw [State.status_getLsbD]; simp
  · rw [State.status_getLsbD]; simp
  · rw [State.status_getLsbD]; simp
  · rw [State.status_getLsbD]
    simp [show k ≠ 0 by omega, show k ≠ 1 by omega, show k ≠ 2 by omega]

/-- Settles O40: the bits of `LSTAT`, and the reply that alone changes. -/
theorem laneStatusViewBits : Obligations.LaneStatusViewBits := by
  refine fun l => ⟨l.lstat_bit0, l.lstat_bit1, l.lstat_bit2, fun k hk => ?_, fun s i hl => ?_⟩
  · rw [Lane.lstat_getLsbD, BitVec.getLsbD_of_ge _ _ (by omega : 2 ≤ k - 1)]
    simp [show k ≠ 0 by omega]
  · exact ⟨s.answer (laneReply s i l), laneReply s i l, by simp [hostAct, hostReadLane, hl],
      ⟨rfl, rfl, rfl, rfl, rfl, rfl⟩, rfl, fun hd => ⟨_, by rw [laneReply, hd]; rfl⟩⟩

/-! ### Frames -/

/-- A micro-operation's frame from its lane's: `keep` says what the lane keeps of its registers, and every byte of a space
outside `wr` reads as before. -/
theorem exec_frame {i : Instr} {s t : State} (h : exec i s = .next t) {keep : Lane → Lane → Prop} {wr : Space → Prop}
    (hl : ∀ l l' : Lane, LaneEffect l l' i → keep l l' ∧ ∀ sp k, ¬ wr sp → l'.memRead sp k = l.memRead sp k) :
    s.SameEngine t ∧ (∀ j : Nat, j ≠ s.cur → t.lanes[j]? = s.lanes[j]?) ∧
    (∀ l l' : Lane, s.lanes[s.cur]? = some l → t.lanes[s.cur]? = some l' → keep l l') ∧
    (∀ (sp : Space) (j k : Nat), ¬ (wr sp ∧ j = s.cur) → memRead t sp j k = memRead s sp j k) := by
  obtain ⟨l, l', hcur, he, rfl⟩ := exec_next h
  obtain ⟨hkeep, hread⟩ := hl l l' (laneExec_next he)
  refine ⟨⟨State.putLane_length _ _ _, rfl, rfl, rfl, rfl, rfl, rfl, rfl, rfl, rfl⟩,
    fun j hj => State.putLane_getElem?_ne s hj l', fun m m' hm hm' => ?_, fun sp j k hw => ?_⟩
  · obtain rfl : l = m := Option.some.inj (hcur.symm.trans hm)
    obtain rfl : l' = m' := Option.some.inj ((State.putLane_getElem?_self hcur l').symm.trans hm')
    exact hkeep
  · by_cases hj : j = s.cur
    · subst hj
      by_cases hc : sp = .ctrl
      · subst hc; rfl
      · rw [memRead_putLane_self hcur l' hc, memRead_of hcur hc, hread sp k fun h => hw ⟨h, rfl⟩]
    · exact memRead_putLane_ne s hj l' sp k

/-- The writers of the State write it and go on. -/
theorem LaneEffect.writeS {i : Instr} {l l' : Lane} (h : LaneEffect l l' i)
    (hi : i = .loadpt ∨ (∃ r, i = .addroundkey r) ∨ i = .subbytes ∨ i = .shiftrows ∨ i = .mixcolumns) :
    ∃ x, l' = (l.writeS x).advance := by
  rcases hi with rfl | ⟨r, rfl⟩ | rfl | rfl | rfl
  · obtain ⟨p, -, e⟩ := h; exact ⟨p, e⟩
  · obtain ⟨j, -, e⟩ := h; exact ⟨_, e⟩
  · exact ⟨_, h⟩
  · exact ⟨_, h⟩
  · exact ⟨_, h⟩

/-- Settles O27: a writer of the State writes it and goes on. -/
theorem stateWritersFrame : Obligations.StateWritersFrame := by
  refine fun i s t hi h => exec_frame (wr := (· = .state)) h fun l l' he => ?_
  obtain ⟨x, rfl⟩ := he.writeS hi
  refine ⟨rfl, fun sp k hsp => ?_⟩
  cases sp with
  | state => exact absurd rfl hsp
  | _ => rfl

/-- Settles O28: KEYEXPAND writes the schedule and goes on. -/
theorem keyexpandFrame : Obligations.KeyexpandFrame := by
  refine fun s t h => exec_frame (wr := (· = .rk)) h fun l l' he => ?_
  obtain ⟨k, -, rfl⟩ := he
  refine ⟨rfl, fun sp k hsp => ?_⟩
  cases sp with
  | rk => exact absurd rfl hsp
  | _ => rfl

/-- Settles O29: VALIDATE goes on or raises its errors. -/
theorem validateFrame : Obligations.ValidateFrame := by
  refine fun s t h => exec_frame (wr := (· = .lstat)) h fun l l' he => ?_
  obtain ⟨-, -, rfl⟩ | ⟨-, rfl⟩ := he
  all_goals
    refine ⟨rfl, fun sp k hsp => ?_⟩
    cases sp with
    | lstat => exact absurd rfl hsp
    | _ => rfl

/-- Settles O30: STORECT writes the output slot and makes the lane `Done`. -/
theorem storectFrame : Obligations.StorectFrame := by
  refine fun s t h => exec_frame (wr := fun sp => sp = .ciphertext ∨ sp = .lstat) h fun l l' he => ?_
  obtain rfl := he
  refine ⟨rfl, fun sp k hsp => ?_⟩
  cases sp with
  | ciphertext => exact absurd (.inl rfl) hsp
  | lstat => exact absurd (.inr rfl) hsp
  | _ => rfl

/-- Settles O31: both answers are the lane function's, applied to the same registers. -/
theorem laneReadsOnlyItsOwnRegisters : Obligations.LaneReadsOnlyItsOwnRegisters := by
  intro i s s' l hl hl'
  rw [exec_eq_onLane, exec_eq_onLane, onLane_of hl, onLane_of hl']
  cases laneExec i l with
  | next m =>
    refine ⟨?_, nofun, nofun⟩
    rintro _ ⟨⟩
    exact ⟨_, rfl, by rw [State.putLane_getElem?_self hl', State.putLane_getElem?_self hl]⟩
  | fault f => exact ⟨nofun, fun _ h => h, nofun⟩
  | refused r => exact ⟨nofun, nofun, fun _ h => h⟩

/-! ### What writes `OUT_VALID` and `ERR` -/

/-- A micro-operation's effect by what it writes: VALIDATE, KEYEXPAND, STORECT, or a writer of the State. -/
theorem LaneEffect.cases {i : Instr} {l l' : Lane} (h : LaneEffect l l' i) :
    (i = .validate ∧ (l' = l.advance ∨ l' = l.raise (lengthErrors l.inKlen l.inPlen))) ∨
    (i = .keyexpand ∧ ∃ w, l' = (l.writeRk w).advance) ∨
    (i = .storect ∧ l' = (l.writeOut l.readS).setUpc upcDone) ∨
    ∃ x, l' = (l.writeS x).advance := by
  cases i with
  | validate => exact .inl ⟨rfl, h.imp (fun ⟨_, _, e⟩ => e) And.right⟩
  | keyexpand => obtain ⟨k, -, e⟩ := h; exact .inr (.inl ⟨rfl, _, e⟩)
  | storect => exact .inr (.inr (.inl ⟨rfl, h⟩))
  | _ => exact .inr (.inr (.inr (h.writeS (by simp))))

/-- Only STORECT writes an output slot (spec/43_cipher_pipeline.md R154). -/
theorem LaneEffect.out_eq {i : Instr} {l l' : Lane} (h : LaneEffect l l' i) (hi : i ≠ .storect) :
    l'.outCt = l.outCt ∧ l'.outCtWritten = l.outCtWritten ∧ l'.outValid = l.outValid := by
  obtain ⟨-, rfl | rfl⟩ | ⟨-, w, rfl⟩ | ⟨rfl, -⟩ | ⟨x, rfl⟩ := h.cases
  · exact ⟨rfl, rfl, rfl⟩
  · exact ⟨rfl, rfl, rfl⟩
  · exact ⟨rfl, rfl, rfl⟩
  · exact absurd rfl hi
  · exact ⟨rfl, rfl, rfl⟩

/-- A micro-operation that changes `ERR` is VALIDATE, which raises the errors of its two lengths
(spec/43_cipher_pipeline.md R150). -/
theorem LaneEffect.of_err_ne {i : Instr} {l l' : Lane} (h : LaneEffect l l' i) (he : l'.err ≠ l.err) :
    i = .validate ∧ l'.err = lengthErrors l.inKlen l.inPlen := by
  obtain ⟨rfl, rfl | rfl⟩ | ⟨-, w, rfl⟩ | ⟨-, rfl⟩ | ⟨x, rfl⟩ := h.cases
  · exact absurd rfl he
  · exact ⟨rfl, rfl⟩
  · exact absurd rfl he
  · exact absurd rfl he
  · exact absurd rfl he

/-- A lane of the state after `putLane` at its own index: the new one at `j`, elsewhere the one that was there. -/
theorem State.putLane_getElem?_cases {s : State} {i j : Nat} {l l' m : Lane} (hl : s.lanes[i]? = some l)
    (h : (s.putLane j m).lanes[i]? = some l') : i = j ∧ l' = m ∨ l' = l := by
  by_cases hij : i = j
  · subst hij
    exact .inl ⟨rfl, Option.some.inj (h.symm.trans (putLane_getElem?_self hl m))⟩
  · exact .inr (Option.some.inj (h.symm.trans ((putLane_getElem?_ne s hij m).trans hl)))

/-- What a step did to lane `i`: nothing but at most a write of its input slot, or it executed its word, or START restarted
it, or reset put it at its reset values. -/
inductive LaneChange (s t : State) (i : Nat) (l l' : Lane) : Prop where
  | kept (e : l.SameButSlot l')
  | executed (w : Byte) (ins : Instr) (hw : s.fetch l = some w) (hd : decode w = .ok ins) (he : LaneEffect l l' ins)
      (hcur : t.cur = i)
  | restarted (v : BitVec 6) (hag : s.agenda.head? = some (.host .start)) (e : l' = l.restart v)
  | reset (p : Nat) (hag : s.agenda.head? = some (.host .reset)) (e : l' = Lane.reset p)

/-- Everything a step that answers a next state can do to a lane. -/
theorem LaneChange.of_step {s t : State} {i : Nat} {l l' : Lane} (h : step s = .next t) (hl : s.lanes[i]? = some l)
    (hl' : t.lanes[i]? = some l') : LaneChange s t i l l' := by
  have same (e : t.lanes = s.lanes) : LaneChange s t i l l' := by
    obtain rfl : l = l' := Option.some.inj (hl.symm.trans (e ▸ hl'))
    exact .kept rfl
  obtain ⟨s', ⟨c, rfl⟩, ⟨a, hag, ha⟩ | ⟨j, hj⟩ | rfl⟩ := step_next h
  · rcases hostAct_next ha with ⟨j, m, m', -, hm, rfl, e⟩ | ⟨m, -, rfl⟩ | ⟨rfl, -, rfl⟩ | ⟨r, rfl⟩ | ⟨rfl, rfl⟩
    · obtain ⟨rfl, rfl⟩ | rfl := State.putLane_getElem?_cases (s := { s with agenda := _, choices := c }) hl hl'
      · obtain rfl : l = m := Option.some.inj (hl.symm.trans hm)
        exact .kept e
      · exact .kept rfl
    · exact same rfl
    · obtain ⟨m, v, hm, rfl, -⟩ := State.startBatch_getElem? hl'
      obtain rfl : l = m := Option.some.inj (hl.symm.trans hm)
      exact .restarted v hag rfl
    · exact same rfl
    · rw [State.resetEngine_lanes, List.getElem?_map, Option.map_eq_some_iff] at hl'
      obtain ⟨m, -, e⟩ := hl'
      exact .reset _ hag e.symm
  · obtain ⟨m, hm, ⟨-, rfl⟩ | ⟨w, ins, m', hw, hd, he, rfl⟩⟩ := laneStep_next hj
    · exact same rfl
    · obtain ⟨rfl, rfl⟩ | rfl := State.putLane_getElem?_cases (s := { s with agenda := _, choices := c, cur := j }) hl hl'
      · obtain rfl : l = m := Option.some.inj (hl.symm.trans hm)
        exact .executed w ins hw hd (laneExec_next he) rfl
      · exact .kept rfl
  · exact same (by split <;> rfl)

/-- A step whose event is the host's is the host's action. -/
theorem step_of_host {s : State} {a : HostAction} (h : s.agenda.head? = some (.host a)) :
    step s = hostAct a { s with agenda := s.agenda.tail } := by
  obtain ⟨rest, hr⟩ := List.head?_eq_some_iff.1 h
  simp [step, nextStep, hr, perform]

/-- START and reset clear `OUT_VALID` and `ERR` of every lane (spec/10_state.md R29, R30). -/
theorem clear_of_start_or_reset {s t : State} (h : step s = .next t)
    (hag : s.agenda.head? = some (.host .start) ∨ s.agenda.head? = some (.host .reset)) :
    ∀ l ∈ t.lanes, l.outValid = false ∧ l.err = 0 := by
  intro l hl
  obtain hag | hag := hag
  · rw [step_of_host hag] at h
    simp only [hostAct, hostStart] at h
    split at h
    · cases h
    · cases h
      obtain ⟨m, v, rfl, -⟩ := State.mem_startBatch hl
      exact ⟨rfl, rfl⟩
  · rw [step_of_host hag] at h
    cases h
    obtain ⟨m, -, rfl⟩ := List.mem_map.1 hl
    exact ⟨rfl, rfl⟩

/-- Settles O50: of all that a step can do to a lane, STORECT alone sets `OUT_VALID`, and START and reset alone clear
it. -/
theorem outValidSetByStorectOnly : Obligations.OutValidSetByStorectOnly := by
  refine ⟨fun s t i l l' h hl hl' => ?_, fun s t h hag l hl => (clear_of_start_or_reset h hag l hl).1⟩
  have unchanged (e : l'.outValid = l.outValid) {p q : Prop} :
      (l.outValid = false → l'.outValid = true → p) ∧ (l.outValid = true → l'.outValid = false → q) :=
    ⟨fun h0 h1 => by simp [e, h0] at h1, fun h1 h0 => by simp [e, h1] at h0⟩
  cases LaneChange.of_step h hl hl' with
  | kept e => exact unchanged (by rw [e])
  | executed w ins hw hd he hcur =>
    by_cases hi : ins = .storect
    · subst hi
      obtain rfl := he
      exact ⟨fun _ _ => ⟨w, hw, hd, hcur, rfl⟩, fun _ h => by simp at h⟩
    · exact unchanged (he.out_eq hi).2.2
  | restarted v hag e => subst e; exact ⟨fun _ h => by simp at h, fun _ _ => .inl hag⟩
  | reset p hag e => subst e; exact ⟨fun _ h => by simp at h, fun _ _ => .inr hag⟩

/-- Settles O51: of all that a step can do to a lane, VALIDATE, START and reset alone change `ERR`. -/
theorem errWrittenByValidateOnly : Obligations.ErrWrittenByValidateOnly := by
  refine ⟨fun s t i l l' h hl hl' hne => ?_, fun s t h hag l hl => (clear_of_start_or_reset h hag l hl).2,
    fun l => ⟨l.lstat_bit1, l.lstat_bit2⟩⟩
  cases LaneChange.of_step h hl hl' with
  | kept e => exact absurd (by rw [e]) hne
  | executed w ins hw hd he hcur =>
    obtain ⟨rfl, e⟩ := he.of_err_ne hne
    exact .inl ⟨w, hw, hd, hcur, by rw [e, lengthErrors_bit0, decide_eq_true_iff],
      by rw [e, lengthErrors_bit1, decide_eq_true_iff]⟩
  | restarted v hag => exact .inr (.inl hag)
  | reset p hag => exact .inr (.inr hag)

end Sys2Proof.Machine
end


section
/-! PROOF. The address spaces, the control store as data, and the order of the lanes' steps. -/

namespace Sys2Proof.Machine

/-! ### A byte of a lane after a write -/

theorem gridByte_put (g : Block) {k : Nat} (hk : k < 16) (v : Byte) (n : Nat) :
    gridByte (g.put ⟨k, hk⟩ v) n = if n = k then some v else gridByte g n := by
  unfold gridByte
  by_cases h : n = k
  · subst h; simp [hk]
  · simp [h]

/-- A written byte is marked as written, and no other mark changes. -/
theorem writtenByte_put (g : Block) (w : Grid Bool) {k : Nat} (hk : k < 16) (v : Byte) (n : Nat) :
    writtenByte (g.put ⟨k, hk⟩ v) (w.put ⟨k, hk⟩ true) n = if n = k then some v else writtenByte g w n := by
  unfold writtenByte
  by_cases h : n = k
  · subst h; simp [hk]
  · simp [h]

/-- The schedule's first write makes its free bytes values, so a read answers what it did before (log 7). -/
theorem Lane.memRead_writeRk_put (l : Lane) {k : Nat} (hk : k < 176) (v : Byte) (n : Nat) :
    (l.writeRk (l.readRk.put ⟨k, hk⟩ v)).memRead .rk n = if n = k then some v else l.memRead .rk n := by
  unfold Lane.memRead
  by_cases h : n = k
  · subst h; simp [hk]
  · simp [h]

/-- `MemRead` of a lane after `MemWrite` to it (spec/20_memory.md R51). -/
theorem Lane.memRead_memWrite {l l' : Lane} {sp : Space} {k : Nat} {v : Byte} (h : l.memWrite sp k v = some l')
    (sp' : Space) (n : Nat) : l'.memRead sp' n = if sp' = sp ∧ n = k then some v else l.memRead sp' n := by
  cases sp with
  | sbox => cases h
  | rcon => cases h
  | ctrl => cases h
  | lstat => cases h
  | rk =>
    obtain ⟨hk, ⟨⟩⟩ := Option.dite_none_right_eq_some.1 h
    cases sp' with
    | rk => simp only [true_and]; exact l.memRead_writeRk_put hk v n
    | _ => rfl
  | state =>
    obtain ⟨hk, ⟨⟩⟩ := Option.dite_none_right_eq_some.1 h
    cases sp' with
    | state => simp only [true_and]; exact gridByte_put l.readS hk v n
    | _ => rfl
  | keyLength =>
    obtain ⟨rfl, ⟨⟩⟩ := Option.ite_none_right_eq_some.1 h
    cases sp' with
    | keyLength => by_cases hn : n = 0 <;> simp [Lane.memRead, hn]
    | _ => rfl
  | key =>
    obtain ⟨hk, ⟨⟩⟩ := Option.dite_none_right_eq_some.1 h
    cases sp' with
    | key => simp only [true_and]; exact writtenByte_put l.inKey l.inKeyWritten hk v n
    | _ => rfl
  | blockLength =>
    obtain ⟨rfl, ⟨⟩⟩ := Option.ite_none_right_eq_some.1 h
    cases sp' with
    | blockLength => by_cases hn : n = 0 <;> simp [Lane.memRead, hn]
    | _ => rfl
  | block =>
    obtain ⟨hk, ⟨⟩⟩ := Option.dite_none_right_eq_some.1 h
    cases sp' with
    | block => simp only [true_and]; exact writtenByte_put l.inPt l.inPtWritten hk v n
    | _ => rfl
  | ciphertext =>
    obtain ⟨hk, ⟨⟩⟩ := Option.dite_none_right_eq_some.1 h
    cases sp' with
    | ciphertext => simp only [true_and]; exact writtenByte_put l.outCt l.outCtWritten hk v n
    | _ => rfl

/-- A `MemWrite` that answers a state wrote to a lane that is there. -/
theorem memWrite_eq_some {s t : State} {sp : Space} {i k : Nat} {v : Byte} (h : memWrite s sp i k v = some t) :
    ∃ l l', s.lanes[i]? = some l ∧ l.memWrite sp k v = some l' ∧ t = s.putLane i l' := by
  unfold memWrite at h
  split at h
  · cases h
  · next l hl =>
    split at h
    · cases h
    · next l' hw => cases h; exact ⟨l, l', hl, hw, rfl⟩

/-- `MemWrite` answers no state for a space that no lane's registers hold (spec/20_memory.md R69). -/
theorem memWrite_eq_none {sp : Space} {k : Nat} {v : Byte} (h : ∀ l : Lane, l.memWrite sp k v = none) {s : State}
    {i : Nat} : memWrite s sp i k v = none := by
  rw [Option.eq_none_iff_forall_ne_some]
  intro t ht
  obtain ⟨l, l', -, hw, -⟩ := memWrite_eq_some ht
  cases (h l).symm.trans hw

/-- A byte that reads alike from two lanes reads alike where one replaces the other. -/
theorem memRead_putLane_congr {s : State} {i : Nat} {l l' : Lane} (hl : s.lanes[i]? = some l) {sp : Space} {k : Nat}
    (h : l'.memRead sp k = l.memRead sp k) : memRead (s.putLane i l') sp i k = memRead s sp i k := by
  by_cases hc : sp = .ctrl
  · subst hc; rfl
  · rw [memRead_putLane_self hl l' hc, memRead_of hl hc, h]

/-- Settles O41: the lane written to reads as `Lane.memRead_memWrite` says, and every other lane is as before. -/
theorem memWriteThenMemRead : Obligations.MemWriteThenMemRead := by
  intro s t sp i k v h
  obtain ⟨l, l', hl, hw, rfl⟩ := memWrite_eq_some h
  have hc : sp ≠ .ctrl := by rintro rfl; cases hw
  refine ⟨?_, fun sp' j n hne => ?_⟩
  · rw [memRead_putLane_self hl l' hc, Lane.memRead_memWrite hw, if_pos ⟨rfl, rfl⟩]
  · by_cases hj : j = i
    · subst hj
      refine memRead_putLane_congr hl ?_
      rw [Lane.memRead_memWrite hw, if_neg]
      rintro ⟨rfl, rfl⟩
      exact hne rfl
    · exact memRead_putLane_ne s hj l' sp' n

/-! ### The control store as data -/

/-- The canonical form's rising addresses, as the library's sortedness. -/
theorem Memory.pairwise_of_rising {m : Memory} (h : m.rising = true) : m.Pairwise fun c d => c.1 < d.1 := by
  induction m with
  | nil => exact .nil
  | cons c m ih => exact .cons (Memory.lt_of_mem h) (ih (Memory.rising_tail h))

/-- Where addresses rise, the cells are the listed bytes. -/
theorem Memory.mem_iff_listed {m : Memory} (h : m.rising = true) (a : Nat) (b : Byte) :
    (a, b) ∈ m ↔ m.listed a = some b := by
  induction m with
  | nil => simp [Memory.listed]
  | cons c m ih =>
    obtain ⟨x, y⟩ := c
    rw [List.mem_cons, ih (Memory.rising_tail h), Memory.listed]
    by_cases hx : x = a
    · subst hx
      have none_listed : Memory.listed m x ≠ some b := fun hb =>
        absurd (Memory.lt_of_mem h _ ((ih (Memory.rising_tail h)).2 hb)) (Nat.lt_irrefl x)
      rw [if_pos rfl]
      simp [none_listed, eq_comm]
    · simp [hx, Ne.symm hx]

/-- What the canonical form of a store says of its cells. -/
theorem ControlStore.wf_iff (c : ControlStore) :
    c.wf = true ↔ c.cells.rising = true ∧ ∀ x ∈ c.cells, x.2 ≠ Memory.default x.1 ∧ x.1 < c.length := by
  simp [ControlStore.wf, Memory.wf, Memory.cellOk, and_assoc, forall_and]

theorem ControlStore.pairwise_cells {c : ControlStore} (h : c.wf = true) : c.cells.Pairwise fun x y => x.1 < y.1 :=
  Memory.pairwise_of_rising (c.wf_iff.1 h).1

/-- A canonical store's cells are the places that read as a byte other than what an unlisted place reads as. -/
theorem ControlStore.mem_cells_iff {c : ControlStore} (h : c.wf = true) (a : Nat) (b : Byte) :
    (a, b) ∈ c.cells ↔ c.read a = some b ∧ b ≠ Memory.default a := by
  obtain ⟨hrise, hcells⟩ := c.wf_iff.1 h
  rw [Memory.mem_iff_listed hrise]
  constructor
  · intro hl
    obtain ⟨hb, ha⟩ := hcells _ ((Memory.mem_iff_listed hrise a b).2 hl)
    exact ⟨by simp only [ControlStore.read, Memory.read, hl, if_pos ha, Option.getD_some], hb⟩
  · rintro ⟨hr, hb⟩
    obtain ⟨-, ⟨⟩⟩ := Option.ite_none_right_eq_some.1 hr
    unfold Memory.read at hb ⊢
    cases hl : c.cells.listed a with
    | none => exact absurd (by simp [hl]) hb
    | some y => rfl

theorem ControlStore.read_eq_none_iff (c : ControlStore) (a : Nat) : c.read a = none ↔ c.length ≤ a := by
  simp [ControlStore.read]

/-- Settles O43: the length is where reads end, and the cells are told by the reads and sorted by their addresses. -/
theorem equalReadsMeanEqualStores : Obligations.EqualReadsMeanEqualStores := by
  intro m n hm hn h
  have length_eq : m.length = n.length := by
    refine eq_of_forall_ge_iff fun a => ?_
    rw [← m.read_eq_none_iff, ← n.read_eq_none_iff, h]
  have cells_eq : m.cells = n.cells := by
    have : Std.Irrefl fun c d : Host.Cell => c.1 < d.1 := ⟨fun c => Nat.lt_irrefl c.1⟩
    refine (ControlStore.pairwise_cells hm).eq_of_mem_iff (ControlStore.pairwise_cells hn) fun (a, b) => ?_
    rw [ControlStore.mem_cells_iff hm, ControlStore.mem_cells_iff hn, h]
  show ControlStore.mk m.cells m.length = n
  rw [cells_eq, length_eq]

/-! ### The step of a lane, without the model's bookkeeping -/

/-- What one step makes of the registers of a lane, whatever its index and the other lanes (spec/20_memory.md R65). -/
inductive Lane.Moves (c : ControlStore) (l : Lane) : Lane → Prop where
  | still (hw : c.fetch l = none) : l.Moves c l
  | executed {w : Byte} {ins : Instr} {l' : Lane} (hw : c.fetch l = some w) (hd : decode w = .ok ins)
      (he : laneExec ins l = .next l') : l.Moves c l'

/-- A lane put where it is. -/
theorem State.putLane_same {s : State} {i : Nat} {l : Lane} (h : s.lanes[i]? = some l) : s.putLane i l = s := by
  obtain ⟨hi, rfl⟩ := List.getElem?_eq_some_iff.1 h
  simp [State.putLane]

/-- The step of a lane that answers a next state moves that lane and, at most, the model's own field `cur`. -/
theorem laneStep_moves {i : Nat} {s t : State} (h : laneStep i s = .next t) :
    ∃ l l' n, s.lanes[i]? = some l ∧ l.Moves s.ctrl l' ∧ t = { s.putLane i l' with cur := n } := by
  obtain ⟨l, hl, ⟨hw, rfl⟩ | ⟨w, ins, l', hw, hd, he, rfl⟩⟩ := laneStep_next h
  · exact ⟨l, l, t.cur, hl, .still hw, by rw [State.putLane_same hl]⟩
  · exact ⟨l, l', i, hl, .executed hw hd he, rfl⟩

/-- A lane that can move is moved by its step. -/
theorem exists_laneStep_of_moves {i : Nat} {s : State} {l l' : Lane} (hl : s.lanes[i]? = some l)
    (hm : l.Moves s.ctrl l') : ∃ n, laneStep i s = .next { s.putLane i l' with cur := n } := by
  cases hm with
  | still hw => exact ⟨s.cur, by simp only [laneStep, hl, hw, State.putLane_same hl]⟩
  | executed hw hd he => exact ⟨i, laneStep_of hl hw hd he⟩

/-- Settles O54: neither step reads or writes the other's lane. -/
theorem laneStepsCommute : Obligations.LaneStepsCommute := by
  intro s a b i j hij ha hb
  obtain ⟨l, l', na, hl, hl', rfl⟩ := laneStep_moves ha
  obtain ⟨m, m', nb, hm, hm', rfl⟩ := laneStep_moves hb
  have hm : s.lanes[j]? = some m := (State.putLane_getElem?_ne s hij.symm l').symm.trans hm
  obtain ⟨na', ha'⟩ := exists_laneStep_of_moves hm hm'
  obtain ⟨nb', hb'⟩ := exists_laneStep_of_moves (s := { s.putLane j m' with cur := na' })
    ((State.putLane_getElem?_ne s hij m').trans hl) hl'
  exact ⟨_, _, ha', hb', by simp [State.putLane, List.set_comm _ _ hij]⟩

/-! ### Every order of the same lane steps -/

/-- The steps of the lanes named by a list, one after another, as they change the lanes. -/
inductive LanesRun (c : ControlStore) : List Nat → List Lane → List Lane → Prop where
  | nil (ls : List Lane) : LanesRun c [] ls ls
  | cons {i : Nat} {p : List Nat} {ls ls' : List Lane} {l l' : Lane} (hl : ls[i]? = some l) (hm : l.Moves c l')
      (hr : LanesRun c p (ls.set i l') ls') : LanesRun c (i :: p) ls ls'

/-- Every order of the same steps ends in the same lanes: two neighbouring steps change places. -/
theorem LanesRun.perm {c : ControlStore} {p q : List Nat} (h : p.Perm q) {ls ls' : List Lane}
    (hr : LanesRun c p ls ls') : LanesRun c q ls ls' := by
  induction h generalizing ls with
  | nil => exact hr
  | cons i _ ih =>
    cases hr with
    | cons hl hm hr => exact .cons hl hm (ih hr)
  | swap i j p =>
    by_cases hij : j = i
    · subst hij; exact hr
    · cases hr with
      | cons hl hl' hr =>
        cases hr with
        | cons hm hm' hr =>
          rw [List.getElem?_set_ne hij] at hm
          rw [List.set_comm _ _ hij] at hr
          exact .cons hm hm' (.cons ((List.getElem?_set_ne (Ne.symm hij)).trans hl) hl' hr)
  | trans _ _ ih ih' => exact ih' (ih hr)

/-- A step whose event is lane `i`'s is that lane's step. -/
theorem step_of_lane {s : State} {i : Nat} {rest : List Event} (h : s.agenda = .lane i :: rest) :
    step s = laneStep i { s with agenda := rest } := by
  simp [step, nextStep, h, perform]

/-- A run of the lane steps on the agenda changes the lanes as `LanesRun` says, and no engine register. -/
theorem LanesRun.of_runFor {p : List Nat} {s t : State} (hag : s.agenda = p.map .lane)
    (h : runFor p.length s = .next t) :
    LanesRun s.ctrl p s.lanes t.lanes ∧ { s with lanes := t.lanes }.SameHardware t := by
  induction p generalizing s with
  | nil => cases h; exact ⟨.nil _, rfl, rfl, rfl, rfl, rfl, rfl⟩
  | cons i p ih =>
    obtain ⟨u, hu, hr⟩ := runFor_succ_next h
    rw [step_of_lane hag] at hu
    obtain ⟨l, l', n, hl, hm, rfl⟩ := laneStep_moves hu
    obtain ⟨hrun, hsame⟩ := ih rfl hr
    exact ⟨.cons hl hm hrun, hsame⟩

/-- Lanes that can take the steps on the agenda are run by it. -/
theorem LanesRun.exists_runFor {p : List Nat} {s : State} {ls : List Lane} (hag : s.agenda = p.map .lane)
    (h : LanesRun s.ctrl p s.lanes ls) :
    ∃ t, runFor p.length s = .next t ∧ { s with lanes := ls }.SameHardware t := by
  induction p generalizing s with
  | nil => cases h; exact ⟨s, rfl, rfl, rfl, rfl, rfl, rfl, rfl⟩
  | cons i p ih =>
    cases h with
    | cons hl hm hr =>
      obtain ⟨n, hn⟩ := exists_laneStep_of_moves (s := { s with agenda := p.map .lane }) hl hm
      obtain ⟨t, ht, hsame⟩ := ih (s := { { s with agenda := p.map .lane }.putLane _ _ with cur := n }) rfl hr
      exact ⟨t, (runFor_succ_of ((step_of_lane hag).trans hn) _).trans ht, hsame⟩

theorem State.SameHardware.of_common {r s t : State} (hs : r.SameHardware s) (ht : r.SameHardware t) :
    s.SameHardware t := by
  obtain ⟨h1, h2, h3, h4, h5, h6⟩ := hs
  obtain ⟨k1, k2, k3, k4, k5, k6⟩ := ht
  exact ⟨k1.trans h1.symm, k2.trans h2.symm, k3.trans h3.symm, k4.trans h4.symm, k5.trans h5.symm, k6.trans h6.symm⟩

/-- Settles O55: a run of lane steps is a run of the lanes, whose order does not matter. -/
theorem everyScheduleGivesTheSameLanes : Obligations.EveryScheduleGivesTheSameLanes := by
  intro s t p q hpq h
  obtain ⟨hrun, hsame⟩ := LanesRun.of_runFor rfl h
  obtain ⟨t', ht', hsame'⟩ := (hrun.perm hpq).exists_runFor (s := { s with agenda := q.map .lane }) rfl
  exact ⟨t', ht', hsame.of_common hsame'⟩

/-! ### Nothing writes the control store -/

theorem hostAct_ctrl {a : HostAction} {s t : State} (h : hostAct a s = .next t) : t.ctrl = s.ctrl := by
  rcases hostAct_next h with ⟨i, l, l', -, -, rfl, -⟩ | ⟨m, -, rfl⟩ | ⟨-, -, rfl⟩ | ⟨r, rfl⟩ | ⟨-, rfl⟩
  · rfl
  · rfl
  · exact s.startBatch_ctrl
  · rfl
  · rfl

theorem laneStep_ctrl {i : Nat} {s t : State} (h : laneStep i s = .next t) : t.ctrl = s.ctrl := by
  obtain ⟨l, l', n, -, -, rfl⟩ := laneStep_moves h
  rfl

/-- Settles O42: no kind of step and no `MemWrite` writes a table, and `CTRL_ROM` holds legal words at all its places. -/
theorem controlStoreNeverChanges : Obligations.ControlStoreNeverChanges := by
  refine ⟨fun s t h => ?_, fun s i k v => ?_, fun s l hc ho hu => ?_⟩
  · obtain ⟨s', ⟨c, rfl⟩, ⟨a, -, ha⟩ | ⟨i, hi⟩ | rfl⟩ := step_next h
    · exact (hostAct_ctrl ha).trans rfl
    · exact (laneStep_ctrl hi).trans rfl
    · split <;> rfl
  · exact ⟨memWrite_eq_none fun _ => rfl, memWrite_eq_none fun _ => rfl, memWrite_eq_none fun _ => rfl⟩
  · refine ⟨_, ?_, ctrlRom_eq hu, _, decode_romInstr hu⟩
    rw [State.fetch, hc, fetch_rom ho, ctrlRom_eq hu]

end Sys2Proof.Machine
end

section
/-! PROOF. The fields of a word, the decoder by its branches, the control ROM and the assembler text, and the step of a
lane for an arbitrary `prog`. -/

namespace Sys2Proof

/-! ### The fields of a word -/

@[simp] theorem opField_packWord (op r : BitVec 4) : opField (packWord op r) = op :=
  BitVec.extractLsb'_append_eq_left

@[simp] theorem rField_packWord (op r : BitVec 4) : rField (packWord op r) = r :=
  BitVec.extractLsb'_append_eq_right

/-- A word is its two fields (spec/30_encoding.md R80). -/
@[simp] theorem packWord_fields (w : Byte) : packWord (opField w) (rField w) = w :=
  (BitVec.extractLsb'_append_extractLsb'_eq_extractLsb' (start₁ := 0) (start₂ := 4) (x := w) rfl).trans
    BitVec.extractLsb'_eq_self

/-- The word of a micro-operation is its row's operation code and its operand (spec/30_encoding.md R81). -/
theorem encode_eq_packWord (i : Instr) : encode i = packWord (Laws.opOf i) (Laws.operandOf i) := by
  cases i <;> rfl

/-- A word is a micro-operation's exactly when its fields are. -/
theorem encode_eq_iff (i : Instr) (w : Byte) :
    encode i = w ↔ opField w = Laws.opOf i ∧ rField w = Laws.operandOf i := by
  rw [encode_eq_packWord]
  constructor
  · rintro rfl; simp
  · rintro ⟨hop, hr⟩; rw [← hop, ← hr, packWord_fields]

/-! ### The decoder, branch by branch -/

/-- ADDROUNDKEY apart, an operation code is assigned exactly where it is a row's (spec/30_encoding.md R81). -/
theorem plainOp_eq_some_iff {op : BitVec 4} (h4 : op ≠ 4) (i : Instr) : plainOp op = some i ↔ op = Laws.opOf i := by
  cases i with
  | addroundkey r => revert op r; decide
  | _ => revert op; decide

section
variable {w : Byte}

theorem decode_addroundkey (h4 : opField w = 4) (hr : (rField w).toNat ≤ 10) :
    decode w = .ok (.addroundkey (rField w)) := by
  rw [decode, if_pos h4, if_pos hr]

theorem decode_roundKeyIndex (h4 : opField w = 4) (hr : 11 ≤ (rField w).toNat) :
    decode w = .error (.roundKeyIndex (rField w)) := by
  rw [decode, if_pos h4, if_neg (by omega)]

theorem decode_unassignedOp (h4 : opField w ≠ 4) (hop : plainOp (opField w) = none) :
    decode w = .error (.unassignedOp (opField w)) := by
  simp only [decode, if_neg h4, hop]

theorem decode_plainOp {i : Instr} (h4 : opField w ≠ 4) (hop : plainOp (opField w) = some i) (hr : rField w = 0) :
    decode w = .ok i := by
  simp only [decode, if_neg h4, hop, if_pos hr]

theorem decode_nonzeroField {i : Instr} (h4 : opField w ≠ 4) (hop : plainOp (opField w) = some i) (hr : rField w ≠ 0) :
    decode w = .error (.nonzeroField (opField w) (rField w)) := by
  simp only [decode, if_neg h4, hop, if_neg hr]

end

/-- Operation code 4 is ADDROUNDKEY's, whose operand is at most 10 (spec/30_encoding.md R81, R82). -/
theorem fields_iff_addroundkey (r : BitVec 4) (i : Instr) :
    (WellFormed i ∧ 4 = Laws.opOf i ∧ r = Laws.operandOf i) ↔ .addroundkey r = i ∧ r.toNat ≤ 10 := by
  cases i with
  | addroundkey k =>
    simp only [Instr.addroundkey.injEq]
    constructor
    · rintro ⟨hwf, -, rfl⟩; exact ⟨rfl, of_decide_eq_true hwf⟩
    · rintro ⟨rfl, hr⟩; exact ⟨decide_eq_true hr, rfl, rfl⟩
  | _ => exact iff_of_false (fun ⟨_, hop, _⟩ => absurd hop (by decide)) (fun ⟨hi, _⟩ => nomatch hi)

/-- Every other operation code is a row's without an operand, and needs no check (spec/30_encoding.md R82). -/
theorem fields_iff_plainOp {op : BitVec 4} (h4 : op ≠ 4) (r : BitVec 4) (i : Instr) :
    (WellFormed i ∧ op = Laws.opOf i ∧ r = Laws.operandOf i) ↔ plainOp op = some i ∧ r = 0 := by
  rw [plainOp_eq_some_iff h4]
  cases i with
  | addroundkey k => exact iff_of_false (fun ⟨_, hop, _⟩ => h4 hop) fun ⟨hop, _⟩ => h4 hop
  | _ => exact and_iff_right rfl

/-- A word decodes to the well-formed micro-operation whose fields it has. -/
theorem decode_eq_ok_iff (w : Byte) (i : Instr) :
    decode w = .ok i ↔ WellFormed i ∧ opField w = Laws.opOf i ∧ rField w = Laws.operandOf i := by
  by_cases h4 : opField w = 4
  · rw [h4, fields_iff_addroundkey]
    by_cases hr : (rField w).toNat ≤ 10
    · simp [decode_addroundkey h4 hr, hr]
    · simp [decode_roundKeyIndex h4 (by omega), hr]
  · rw [fields_iff_plainOp h4]
    cases hop : plainOp (opField w) with
    | none => simp [decode_unassignedOp h4 hop]
    | some j =>
      by_cases hr : rField w = 0
      · simp [decode_plainOp h4 hop hr, hr]
      · rw [decode_nonzeroField h4 hop hr]; exact iff_of_false nofun fun h => hr h.2

/-- Settles O1: both sides say that the word's fields are the micro-operation's. -/
theorem decodeInvertsEncode : Obligations.DecodeInvertsEncode := by
  intro w i
  rw [decode_eq_ok_iff, encode_eq_iff]

/-! ### Legal and illegal words -/

/-- The 18 words of spec/30_encoding.md R83. -/
def legalWords : List Byte :=
  [0x10, 0x20, 0x30, 0x40, 0x41, 0x42, 0x43, 0x44, 0x45, 0x46, 0x47, 0x48, 0x49, 0x4a, 0x50, 0x60, 0x70, 0x80]

theorem encode_mem_legalWords {i : Instr} (h : WellFormed i) : encode i ∈ legalWords := by
  cases i with
  | addroundkey r => revert r; decide
  | _ => decide

theorem exists_decode_of_mem_legalWords {w : Byte} (h : w ∈ legalWords) : ∃ i, decode w = .ok i := by
  have legal : ∀ w ∈ legalWords, (decode w).isOk = true := by decide
  have hw := legal w h
  cases hd : decode w with
  | ok i => exact ⟨i, rfl⟩
  | error e => simp [hd, Except.isOk, Except.toBool] at hw

/-- Settles O2: the legal words are those of the well-formed micro-operations, and each kind of illegal word is one branch
of the decoder. -/
theorem legalWordsAndKindsOfIllegal : Obligations.LegalWordsAndKindsOfIllegal := by
  refine ⟨fun w => ⟨?_, exists_decode_of_mem_legalWords⟩, fun w hop => ?_, fun w h4 hr => decode_roundKeyIndex h4 hr,
    fun w hop hr => ?_⟩
  · rintro ⟨i, hd⟩
    obtain ⟨hwf, rfl⟩ := (decodeInvertsEncode w i).1 hd
    exact encode_mem_legalWords hwf
  · have unassigned : ∀ op : BitVec 4, op = 0 ∨ 9 ≤ op.toNat → op ≠ 4 ∧ plainOp op = none := by decide
    obtain ⟨h4, hnone⟩ := unassigned _ hop
    exact decode_unassignedOp h4 hnone
  · have assigned : ∀ op ∈ ([1, 2, 3, 5, 6, 7, 8] : List (BitVec 4)), op ≠ 4 ∧ (plainOp op).isSome = true := by decide
    obtain ⟨h4, hsome⟩ := assigned _ hop
    obtain ⟨i, hi⟩ := Option.isSome_iff_exists.1 hsome
    exact decode_nonzeroField h4 hi hr

/-- Settles O3, by running the decoder on the twelve words. -/
theorem tableWordsDecodeToTheirRows : Obligations.TableWordsDecodeToTheirRows := by
  unfold Obligations.TableWordsDecodeToTheirRows
  decide

/-! ### The control ROM and the pseudo-operations -/

/-- Settles O4: `CTRL_ROM` is a literal table, so each clause is a computation; the clause of the full rounds is one for
each of the nine. -/
theorem controlRomHoldsTheSequence : Obligations.ControlRomHoldsTheSequence := by
  have fullRound : ∀ r < 10, 1 ≤ r → [4 * r, 4 * r + 1, 4 * r + 2, 4 * r + 3].map Machine.ctrlRom =
      [some 0x50, some 0x60, some 0x70, some (0x40 + BitVec.ofNat 8 r)] := by decide
  exact ⟨rfl, rfl, fun r h1 h9 => fullRound r (by omega) h1, rfl, by decide, by decide⟩

theorem AsmOp.expand_round {r : Nat} (h1 : 1 ≤ r) (h9 : r ≤ 9) : AsmOp.expand (.round r) = some (roundOps r) :=
  if_pos ⟨h1, h9⟩

/-- Outside 1 to 9 there is no ROUND (spec/30_encoding.md R91). -/
theorem AsmOp.expand_round_eq_none {r : Nat} (h : r = 0 ∨ 9 < r) : AsmOp.expand (.round r) = none :=
  if_neg (by omega)

/-- Settles O5: ROUND by its bounds, ENCRYPT by comparing its words with the table. -/
theorem pseudoOperationsExpandAsWritten : Obligations.PseudoOperationsExpandAsWritten :=
  ⟨fun _ => AsmOp.expand_round, fun _ => AsmOp.expand_round_eq_none, rfl, rfl, by decide⟩

/-! ### Assembler text -/

/-- Spaces at neither end leave nothing to trim. -/
theorem trim_eq_self {l : List Char} (hl : trimLeft l = l) (hr : trimLeft l.reverse = l.reverse) : trim l = l := by
  rw [trim, hr, List.reverse_reverse, hl]

/-- A text in front that begins with no space stays. -/
theorem trimLeft_append {l : List Char} (hl : trimLeft l = l) (hne : l ≠ []) (m : List Char) :
    trimLeft (l ++ m) = l ++ m := by
  rw [trimLeft, List.dropWhile_append, ← trimLeft, hl, if_neg (by simpa using hne)]

theorem trim_append_spaces (l : List Char) : trim (l ++ [' ', ' ']) = trim l := by
  simp [trim, trimLeft]

theorem dropComment_eq_self_iff (l : List Char) : dropComment l = l ↔ ∀ c ∈ l, c ≠ ';' := by
  simp [dropComment, List.takeWhile_eq_self_iff]

/-- A comment behind a text is dropped, but not the spaces before it (spec/30_encoding.md R90). -/
theorem dropComment_append_comment {l : List Char} (h : dropComment l = l) :
    dropComment (l ++ [' ', ' ', ';', ' ', 'x']) = l ++ [' ', ' '] := by
  rw [dropComment, List.takeWhile_append_of_pos (by simpa using (dropComment_eq_self_iff l).1 h)]
  rfl

/-- A line that begins with no digit has no index. -/
theorem splitIndex_eq_none {l : List Char} (h : l.takeWhile Char.isDigit = []) : splitIndex l = (none, l) := by
  simp [splitIndex, h]

/-- A numeral and a colon at the beginning are the index. -/
theorem splitIndex_digits {ds : List Char} (hd : ∀ c ∈ ds, c.isDigit = true) (hne : ds ≠ []) (rest : List Char) :
    splitIndex (ds ++ ':' :: rest) = (some (number ds), trimLeft rest) := by
  have hcolon : Char.isDigit ':' = false := by decide
  rw [splitIndex, List.takeWhile_append_of_pos hd, List.dropWhile_append_of_pos hd]
  cases ds with
  | nil => exact absurd rfl hne
  | cons d ds => simp [hcolon]

theorem isDigit_of_mem_decimal {u : Nat} {c : Char} (h : c ∈ decimal u) : c.isDigit = true :=
  Nat.isDigit_of_mem_toDigits (by decide) (by decide) h

/-- A decimal numeral holds no space. -/
theorem trimLeft_decimal (u : Nat) : trimLeft (decimal u) = decimal u := by
  refine List.dropWhile_eq_self_iff.2 fun hl hspace => ?_
  have hdigit := isDigit_of_mem_decimal (List.getElem_mem hl)
  rw [eq_of_beq hspace] at hdigit
  exact absurd hdigit (by decide)

/-- A decimal numeral reads as its number. -/
theorem number_decimal (u : Nat) : number (decimal u) = u :=
  Nat.ofDigitChars_toDigits (by decide) (by decide)

/-- The index before an operation (spec/30_encoding.md R90). -/
theorem splitIndex_decimal (u : Nat) (rest : List Char) :
    splitIndex (decimal u ++ ':' :: rest) = (some u, trimLeft rest) := by
  rw [splitIndex_digits (fun _ => isDigit_of_mem_decimal) Nat.toDigits_ne_nil, number_decimal]

/-- A line with an operation, by its parts. -/
theorem parseLine_of_splitIndex {l body : List Char} {ix : Option Nat} {o : AsmOp}
    (hs : splitIndex (trim (dropComment l)) = (ix, body)) (hb : body ≠ []) (ho : parseOp body = some o) :
    parseLine l = some ⟨ix, some o⟩ := by
  unfold parseLine
  rw [hs]
  cases body with
  | nil => exact absurd rfl hb
  | cons c body => simp [ho]

/-- An operation's text holds no comment and no index, and has no space at either end. -/
theorem text_plain {o : AsmOp} (h : o ∈ asmOps) :
    o.text ≠ [] ∧ dropComment o.text = o.text ∧ o.text.takeWhile Char.isDigit = [] ∧ trimLeft o.text = o.text ∧
      trimLeft o.text.reverse = o.text.reverse := by
  revert o; decide

/-- No two operations have the same text. -/
theorem parseOp_text {o : AsmOp} (h : o ∈ asmOps) : parseOp o.text = some o := by
  revert o; decide

theorem parseLine_text {o : AsmOp} (h : o ∈ asmOps) : parseLine o.text = some ⟨none, some o⟩ := by
  obtain ⟨hne, hcomment, hdigit, hleft, hright⟩ := text_plain h
  refine parseLine_of_splitIndex ?_ hne (parseOp_text h)
  rw [hcomment, trim_eq_self hleft hright, splitIndex_eq_none hdigit]

/-- An index adds no comment. -/
theorem dropComment_indexed {t : List Char} (h : dropComment t = t) (u : Nat) :
    dropComment (decimal u ++ ':' :: ' ' :: t) = decimal u ++ ':' :: ' ' :: t := by
  simp only [dropComment_eq_self_iff, List.mem_append, List.mem_cons] at h ⊢
  rintro c (hc | rfl | rfl | hc)
  · rintro rfl; exact absurd (isDigit_of_mem_decimal hc) (by decide)
  · decide
  · decide
  · exact h c hc

/-- An index adds no space at either end. -/
theorem trim_indexed {t : List Char} (h : trimLeft t.reverse = t.reverse) (hne : t ≠ []) (u : Nat) :
    trim (decimal u ++ ':' :: ' ' :: t) = decimal u ++ ':' :: ' ' :: t := by
  refine trim_eq_self (trimLeft_append (trimLeft_decimal u) Nat.toDigits_ne_nil _) ?_
  simpa using trimLeft_append h (by simpa using hne) (' ' :: ':' :: (decimal u).reverse)

theorem parseLine_indexed {o : AsmOp} (h : o ∈ asmOps) (u : Nat) :
    parseLine (decimal u ++ ':' :: ' ' :: (o.text ++ [' ', ' ', ';', ' ', 'x'])) = some ⟨some u, some o⟩ := by
  obtain ⟨hne, hcomment, -, hleft, hright⟩ := text_plain h
  have hdrop := dropComment_append_comment (dropComment_indexed hcomment u)
  rw [List.append_assoc] at hdrop
  refine parseLine_of_splitIndex (body := o.text) ?_ hne (parseOp_text h)
  calc splitIndex (trim (dropComment (decimal u ++ ':' :: ' ' :: (o.text ++ [' ', ' ', ';', ' ', 'x']))))
      = splitIndex (trim ((decimal u ++ ':' :: ' ' :: o.text) ++ [' ', ' '])) := congrArg (splitIndex <| trim ·) hdrop
    _ = (some u, trimLeft (' ' :: o.text)) := by
      rw [trim_append_spaces, trim_indexed hright hne, splitIndex_decimal]
    _ = (some u, o.text) := congrArg (some u, ·) hleft

/-- Settles O6, for every index. -/
theorem assemblerTextReadsBack : Obligations.AssemblerTextReadsBack :=
  fun _ h => ⟨parseLine_text h, fun u _ => parseLine_indexed h u⟩

end Sys2Proof

namespace Sys2Proof.Machine

/-! ### Illegal words -/

/-- A lane that fetches an illegal word is refused (spec/30_encoding.md R84). -/
theorem laneStep_illegalWord {i : Nat} {s : State} {l : Lane} {w : Byte} {e : DecodeError} (hl : s.lanes[i]? = some l)
    (hw : s.fetch l = some w) (hd : decode w = .error e) : laneStep i s = .refused (.illegalWord w) := by
  simp only [laneStep, hl, hw, runWord, hd]

/-- Settles O9: the agenda's lane takes the step, and what it fetches is refused. -/
theorem illegalWordIsRefused : Obligations.IllegalWordIsRefused := by
  intro s i rest l w e hag hl hw hd
  rw [step_of_lane hag]
  exact laneStep_illegalWord hl hw hd

/-! ### The step of a lane for an arbitrary `prog` -/

/-- A lane at a place fetches the word there (spec/30_encoding.md R93). -/
theorem fetch_of_place {c : ControlStore} {l : Lane} {u : Nat} (h : l.place = some u) : c.fetch l = c.read u := by
  rw [ControlStore.fetch, h]

/-- A lane at a place is not settled. -/
theorem settled_of_place {l : Lane} {u : Nat} (h : l.place = some u) : l.settled = false := by
  cases hs : l.settled with
  | false => rfl
  | true => cases (place_of_settled hs).symm.trans h

/-- A lane that is not settled keeps the batch from completing (spec/44_batch_driver.md R186). -/
theorem canComplete_of_not_settled {s : State} {l : Lane} (hl : l ∈ s.lanes) (h : l.settled = false) :
    s.canComplete = false := by
  have : s.lanes.all Lane.settled = false := List.all_eq_false.2 ⟨l, hl, by simp [h]⟩
  rw [State.canComplete, this, Bool.and_false]

/-- A lane without a word to fetch has no step (log 4). -/
theorem laneStep_of_fetch_none {i : Nat} {s : State} {l : Lane} (hl : s.lanes[i]? = some l) (hw : s.fetch l = none) :
    laneStep i s = .next s := by
  simp only [laneStep, hl, hw]

/-- The step of a lane that fetches a micro-operation's word executes it, when it answers a next state. -/
theorem laneStep_next_of_decode {i : Nat} {s t : State} {l : Lane} {w : Byte} {ins : Instr} (hl : s.lanes[i]? = some l)
    (hw : s.fetch l = some w) (hd : decode w = .ok ins) (h : laneStep i s = .next t) :
    ∃ l', laneExec ins l = .next l' ∧ t = { s with cur := i }.putLane i l' := by
  simp only [laneStep, hl, hw, runWord, hd] at h
  obtain ⟨m, l', hm, he, rfl⟩ := exec_next h
  obtain rfl : l = m := Option.some.inj (hl.symm.trans hm)
  exact ⟨l', he, rfl⟩

/-- `Done` is the code 44 of `UPC` (spec/10_state.md R27, spec/43_cipher_pipeline.md R158). -/
theorem Lane.phase_eq_done_iff (l : Lane) : l.phase = some .done ↔ l.overrun = none ∧ l.upc = upcDone := by
  have code : ∀ u : BitVec 6, Machine.phase u = some .done ↔ u = upcDone := by decide
  cases ho : l.overrun <;> simp [Lane.phase, ho, code]

theorem Lane.settled_iff (l : Lane) :
    l.settled = true ↔ l.overrun = none ∧ (l.upc = upcDone ∨ l.upc = upcFaulted ∨ l.upc = upcIdle) :=
  decide_eq_true_iff

/-- Where a micro-operation leaves a lane that was at place `u`: `Done` after STORECT, `Faulted` after a VALIDATE with a
wrong length, at the next place otherwise (spec/30_encoding.md R93). -/
theorem LaneEffect.place_cases {i : Instr} {l l' : Lane} {u : Nat} (h : LaneEffect l l' i) (hp : l.place = some u) :
    (i = .storect ∧ l'.overrun = none ∧ l'.upc = upcDone) ∨
    (i = .validate ∧ ¬ (l.inKlen = 16 ∧ l.inPlen = 16) ∧ l'.overrun = none ∧ l'.upc = upcFaulted) ∨
    (i ≠ .storect ∧ (i = .validate → l.inKlen = 16 ∧ l.inPlen = 16) ∧ l'.place = some (u + 1)) := by
  cases i with
  | storect => obtain rfl := h; exact .inl ⟨rfl, rfl, rfl⟩
  | validate =>
    obtain ⟨hk, hb, rfl⟩ | ⟨he, rfl⟩ := h
    · exact .inr (.inr ⟨nofun, fun _ => ⟨hk, hb⟩, place_advance hp⟩)
    · exact .inr (.inl ⟨rfl, mt (lengthErrors_eq_zero_iff _ _).2 he, rfl, rfl⟩)
  | keyexpand =>
    obtain ⟨k, -, rfl⟩ := h
    exact .inr (.inr ⟨nofun, nofun, place_advance (l := l.writeRk _) hp⟩)
  | _ =>
    obtain ⟨x, rfl⟩ := h.writeS (by simp)
    exact .inr (.inr ⟨nofun, nofun, place_advance (l := l.writeS x) hp⟩)

/-- The same, in the words of spec/30_encoding.md R93. -/
theorem LaneEffect.prog_step {i : Instr} {l l' : Lane} {u : Nat} (h : LaneEffect l l' i) (hp : l.place = some u) :
    (l'.phase = some .done ↔ i = .storect) ∧
    (l'.settled = true ↔ i = .storect ∨ i = .validate ∧ ¬ (l.inKlen = 16 ∧ l.inPlen = 16)) ∧
    (l'.settled = false → l'.place = some (u + 1)) := by
  rw [l'.phase_eq_done_iff]
  obtain ⟨rfl, ho, hu⟩ | ⟨rfl, hlen, ho, hu⟩ | ⟨hi, hlen, hp'⟩ := h.place_cases hp
  · have hs : l'.settled = true := l'.settled_iff.2 ⟨ho, .inl hu⟩
    simp [hs, ho, hu]
  · have hs : l'.settled = true := l'.settled_iff.2 ⟨ho, .inr (.inl hu)⟩
    have hne : upcFaulted ≠ upcDone := by decide
    exact ⟨iff_of_false (fun ⟨_, hd⟩ => hne (hu.symm.trans hd)) nofun, iff_of_true hs (.inr ⟨rfl, hlen⟩),
      fun h => by simp [hs] at h⟩
  · have hs := settled_of_place hp'
    refine ⟨iff_of_false (fun ⟨ho, hu⟩ => ?_) hi, iff_of_false (by simp [hs]) ?_, fun _ => hp'⟩
    · simp [l'.settled_iff.2 ⟨ho, .inl hu⟩] at hs
    · rintro (hi' | ⟨hi', hne⟩)
      · exact hi hi'
      · exact hne (hlen hi')

/-- Settles O58: the store of a list reads as the list, a lane past its end has no step and is not settled, and what a
micro-operation does to its lane says where the lane is next. -/
theorem laneRunsAnArbitraryProg : Obligations.LaneRunsAnArbitraryProg := by
  refine ⟨ControlStore.read_ofList, ControlStore.ofList_ctrlRomTable, fun s prog i u l hc hl hp => ?_,
    fun s t i u l l' w ins hl hp hw hd h hl' => ?_⟩
  · have hf : s.fetch l = prog[u]? := by rw [State.fetch, fetch_of_place hp, hc, ControlStore.read_ofList]
    have hs := settled_of_place hp
    exact ⟨hf, fun hu => ⟨laneStep_of_fetch_none hl (hf.trans (List.getElem?_eq_none hu)), hs,
      canComplete_of_not_settled (List.mem_of_getElem? hl) hs⟩⟩
  · obtain ⟨m, he, rfl⟩ := laneStep_next_of_decode hl hw hd h
    obtain rfl : m = l' :=
      Option.some.inj ((State.putLane_getElem?_self (s := { s with cur := i }) hl m).symm.trans hl')
    exact (laneExec_next he).prog_step hp

end Sys2Proof.Machine
end

section
/-! PROOF. The S-box against its algebraic definition, spec/40_substitution_table.md R104 and R105. -/

namespace Sys2Proof.Machine

/-- The map that undoes `affine`; it is affine too. -/
def affineInv (b : Byte) : Byte := rotl8 b 1 ^^^ rotl8 b 3 ^^^ rotl8 b 6 ^^^ 0x05

/-- `inv` of spec/40_substitution_table.md R104, read off the table by undoing the affine map. -/
def ginv (n : Byte) : Byte := affineInv (substitute n)

theorem affine_affineInv : ∀ b : Byte, affine (affineInv b) = b := by decide +kernel

theorem substitute_eq_affine_ginv (n : Byte) : substitute n = affine (ginv n) := (affine_affineInv _).symm

theorem ginv_zero : ginv 0 = 0 := by decide

theorem gmul_ginv : ∀ n : Byte, n ≠ 0 → gmul n (ginv n) = 1 := by decide +kernel

theorem ginv_ginv : ∀ n : Byte, ginv (ginv n) = n := by decide +kernel

theorem substitute_injective : Function.Injective substitute :=
  .of_comp (f := affineInv) (Function.LeftInverse.injective ginv_ginv)

theorem substitute_ne_self : ∀ n : Byte, substitute n ≠ n := by decide +kernel

theorem substitute_ne_complement : ∀ n : Byte, substitute n ≠ n ^^^ 0xff := by decide +kernel

/-- Settles O14: undoing the affine map at entry `n` of the table gives the inverse of `n`, and 0 at 0; inverting twice
gives `n` again, so no two entries are the same. -/
theorem sboxIsTheAlgebraicBijection : Obligations.SboxIsTheAlgebraicBijection :=
  ⟨(substitute_eq_affine_ginv 0).trans (congrArg affine ginv_zero),
    fun n hn => ⟨ginv n, gmul_ginv n hn, substitute_eq_affine_ginv n⟩,
    fun _ _ h => substitute_injective h,
    fun n => ⟨substitute_ne_self n, substitute_ne_complement n⟩⟩

end Sys2Proof.Machine
end

section
/-! PROOF. The round constants, the key expansion word by word and byte by byte, and KEYEXPAND, spec/41_key_scheduler.md. -/

namespace Sys2Proof

/-- XOR of two words is byte by byte (spec/00_scope.md R10). -/
@[simp] theorem Word.get_xor (a b : Word) (k : Fin 4) : (Word.xor a b).get k = a.get k ^^^ b.get k := by
  fin_cases k <;> rfl

/-- A mark is missing exactly when one of the sixteen is. -/
theorem Grid.allSet_eq_false_iff (g : Grid Bool) : g.allSet = false ↔ ∃ k, g.get k = false := by
  simpa using not_congr g.allSet_iff

end Sys2Proof

namespace Sys2Proof.Machine

/-! ### The round constants -/

/-- Settles O15: the ten entries are literals of the table, so each clause is a computation; entry 0 is not read. -/
theorem roundConstantsDouble : Obligations.RoundConstantsDouble := by
  have double : ∀ j : Fin 9, rcon ⟨j.val + 2, by omega⟩ = xtime (rcon ⟨j.val + 1, by omega⟩) := by decide
  refine ⟨rfl, fun j h1 h9 => ?_⟩
  obtain ⟨i, rfl⟩ := Nat.exists_eq_add_of_le' h1
  exact double ⟨i, by omega⟩

/-! ### The expansion, word by word -/

/-- Within a round key each word after the first is the previous one XOR the one four back (spec/41_key_scheduler.md
R115). -/
theorem nextRoundKey_col_succ (p : Block) (k : Byte) (c : Fin 3) :
    (nextRoundKey p k).col c.succ = Word.xor ((nextRoundKey p k).col c.castSucc) (p.col c.succ) :=
  match c with
  | 0 => nextRoundKey_col_one p k
  | 1 => nextRoundKey_col_two p k
  | 2 => nextRoundKey_col_three p k

/-- The first four words are the key's (spec/41_key_scheduler.md R115, R117). -/
theorem expandKey_word_of_lt (key : Block) (c : Fin 4) : (expandKey key).word ⟨c.val, by omega⟩ = key.col c :=
  (expandKey key).word_eq _ 0 c (Nat.zero_add _).symm

/-- The first word of a round key: the previous word through `G`, XOR the one four back (spec/41_key_scheduler.md R115). -/
theorem expandKey_word_first (key : Block) {j : Nat} (h4 : 4 ≤ j) (h : j < 44) (hm : j % 4 = 0) :
    (expandKey key).word ⟨j, h⟩ =
      Word.xor (gWord ((expandKey key).word ⟨j - 1, by omega⟩) (rcon ⟨j / 4, by omega⟩))
        ((expandKey key).word ⟨j - 4, by omega⟩) := by
  obtain ⟨r, hr⟩ : ∃ r : Fin 10, j = 4 * (r.val + 1) := ⟨⟨j / 4 - 1, by omega⟩, by simp only; omega⟩
  have hc : (⟨j / 4, by omega⟩ : Fin 11) = r.succ := Fin.ext (by simp only [Fin.val_succ]; omega)
  rw [hc, Schedule.word_eq _ h r.succ 0 hr, expandKey_key_succ, nextRoundKey_col_zero,
    Schedule.word_eq _ _ r.castSucc 3 (by simp; omega), Schedule.word_eq _ _ r.castSucc 0 (by simp; omega)]

/-- Any other word: the previous word XOR the one four back (spec/41_key_scheduler.md R115). -/
theorem expandKey_word_later (key : Block) {j : Nat} (h4 : 4 ≤ j) (h : j < 44) (hm : j % 4 ≠ 0) :
    (expandKey key).word ⟨j, h⟩ =
      Word.xor ((expandKey key).word ⟨j - 1, by omega⟩) ((expandKey key).word ⟨j - 4, by omega⟩) := by
  obtain ⟨r, c, hj⟩ : ∃ (r : Fin 10) (c : Fin 3), j = 4 * (r.val + 1) + (c.val + 1) :=
    ⟨⟨j / 4 - 1, by omega⟩, ⟨j % 4 - 1, by omega⟩, by simp only; omega⟩
  rw [Schedule.word_eq _ h r.succ c.succ hj, Schedule.word_eq _ _ r.succ c.castSucc (by simp; omega),
    Schedule.word_eq _ _ r.castSucc c.succ (by simp; omega), expandKey_key_succ, nextRoundKey_col_succ]

/-- Settles O16: the helpers are their definitions, and the loop is its two kinds of pass. -/
theorem expandKeyFollowsTheLoop : Obligations.ExpandKeyFollowsTheLoop := by
  refine ⟨fun _ => rfl, fun _ => rfl, fun _ _ => rfl, fun key => ⟨expandKey_word_of_lt key, fun j h4 h => ?_⟩⟩
  by_cases hm : j % 4 = 0
  · rw [if_pos hm, expandKey_word_first key h4 h hm]
  · rw [if_neg hm, expandKey_word_later key h4 h hm]

/-! ### The expansion, byte by byte -/

/-- Settles O17: byte `4j + b` is byte `b` of word `j`, so each clause is a byte of one pass of the loop. -/
theorem expandKeyByteByByte : Obligations.ExpandKeyByteByByte := by
  intro key j h4 h w
  have byte (i : Nat) (hi : i < 44) (b : Fin 4) :
      w ⟨4 * i + b.val, by omega⟩ = ((expandKey key).word ⟨i, hi⟩).get b :=
    (expandKey key).byte_word _ ⟨i, hi⟩ b rfl
  refine ⟨fun hm b => ?_, fun hm => ?_⟩
  · rw [byte j h, byte (j - 1) (by omega), byte (j - 4) (by omega), expandKey_word_later key h4 h hm, Word.get_xor]
  · have pass (b : Fin 4) : w ⟨4 * j + b.val, by omega⟩ =
        (gWord ((expandKey key).word ⟨j - 1, by omega⟩) (rcon ⟨j / 4, by omega⟩)).get b ^^^
          w ⟨4 * (j - 4) + b.val, by omega⟩ := by
      rw [byte j h, byte (j - 4) (by omega), expandKey_word_first key h4 h hm, Word.get_xor]
    have prev := byte (j - 1) (by omega)
    refine ⟨(pass 0).trans ?_, (pass 1).trans ?_, (pass 2).trans ?_, (pass 3).trans ?_⟩
    · exact congrArg (substitute · ^^^ _ ^^^ _) (prev 1).symm
    · exact congrArg (substitute · ^^^ _) (prev 2).symm
    · exact congrArg (substitute · ^^^ _) (prev 3).symm
    · exact congrArg (substitute · ^^^ _) (prev 0).symm

/-- Settles O18: a place below 16 is in round key 0. -/
theorem expandedKeyBeginsWithTheKey : Obligations.ExpandedKeyBeginsWithTheKey :=
  fun key => ⟨fun k => (expandKey key).byte_eq _ 0 k (Nat.zero_add _).symm, expandKey_key_zero key⟩

/-! ### KEYEXPAND -/

/-- A place that holds a word is one of the 44 (spec/30_encoding.md R88). -/
theorem lt_of_ctrlRom_eq_some {u : Nat} {w : Byte} (h : ctrlRom u = some w) : u < 44 :=
  (List.getElem?_eq_some_iff.1 h).1

/-- KEYEXPAND with a key in each of its bytes (spec/41_key_scheduler.md R118). -/
theorem exec_keyexpand_of_readKey {s : State} {l : Lane} {key : Block} (hl : s.lanes[s.cur]? = some l)
    (hk : l.readKey = some key) : exec .keyexpand s = .next (s.putLane s.cur (l.writeRk (expandKey key)).advance) :=
  exec_of hl (by simp only [laneExec, laneKeyexpand, hk])

/-- KEYEXPAND where the key has no value is the fault of the launch (spec/41_key_scheduler.md R118). -/
theorem exec_keyexpand_of_readKey_eq_none {s : State} {l : Lane} (hl : s.lanes[s.cur]? = some l)
    (hk : l.readKey = none) : exec .keyexpand s = .fault .unwrittenKey := by
  rw [exec_eq_onLane, onLane_of hl]
  simp only [laneExec, laneKeyexpand, hk]

/-- The key reads as no value exactly when one of its bytes has not been written. -/
theorem Lane.readKey_eq_none_iff (l : Lane) : l.readKey = none ↔ ∃ k, l.inKeyWritten.get k = false := by
  rw [← Grid.allSet_eq_false_iff, Lane.readKey]
  cases l.inKeyWritten.allSet <;> simp

/-- KEYEXPAND's word is at place 1 alone (spec/41_key_scheduler.md R118). -/
theorem ctrlRom_eq_keyexpand_iff (u : Nat) : ctrlRom u = some 0x20 ↔ u = 1 := by
  have places : ∀ u < 44, ctrlRom u = some 0x20 → u = 1 := by decide
  exact ⟨fun h => places u (lt_of_ctrlRom_eq_some h) h, by rintro rfl; rfl⟩

/-- The schedule of spec/95_test_vectors.md V3. -/
theorem expandKey_workedExample :
    let w := expandKey (Block.unpack 0x000102030405060708090a0b0c0d0e0f)
    w.key 1 = Block.unpack 0xd6aa74fdd2af72fadaa678f1d6ab76fe ∧
      w.key 10 = Block.unpack 0x13111d7fe3944a17f307a78b4d2b30c5 := by decide +kernel

/-- The schedule of spec/95_test_vectors.md V4. -/
theorem expandKey_zeroKey :
    (expandKey (.fill 0)).key 1 = Block.unpack 0x62636363626363636263636362636363 ∧
      (expandKey (.fill 0)).key 10 = Block.unpack 0xb4ef5bcb3e92e21123e951cf6f8f188e := by decide +kernel

/-- Settles O20: completion and fault by whether the key reads as a value; the length by the invariant, since place 1 is
past VALIDATE; the rest by running the model on the rule's examples. -/
theorem keyexpandWritesTheSchedule : Obligations.KeyexpandWritesTheSchedule := by
  obtain ⟨key1, key10⟩ := expandKey_workedExample
  refine ⟨fun s l hl hw => ?_, fun s l hl hw => ?_, fun s l hs hl hu => ?_, rfl, ctrlRom_eq_keyexpand_iff,
    ⟨by decide, rfl, by decide, by decide, key1, key10⟩, expandKey_zeroKey⟩
  · exact exec_keyexpand_of_readKey hl ((l.readKey_eq_some_iff _).2 ⟨(Grid.allSet_iff _).2 hw, rfl⟩)
  · exact exec_keyexpand_of_readKey_eq_none hl (l.readKey_eq_none_iff.2 hw)
  · exact ((hs.lanes l hl).lengths (by simp [hu]) (by simp [hu])).1

end Sys2Proof.Machine
end

section
/-! PROOF. The arithmetic of bytes and the RoundTransform: `xtime`, `MixColumn` in its two forms, SUBBYTES, SHIFTROWS,
MIXCOLUMNS and ADDROUNDKEY, spec/42_round_transform.md. -/

namespace Sys2Proof

/-- Column `c` is the four entries from `4c` on (spec/42_round_transform.md R134). -/
theorem Grid.get_eq_col_get {α : Type} (g : Grid α) (c r : Fin 4) {k : Nat} (h : k < 16) (e : k = 4 * c.val + r.val) :
    g.get ⟨k, h⟩ = (g.col c).get r := by
  have hk : (⟨k, h⟩ : Fin 16) = ⟨r.val + 4 * c.val, by omega⟩ := Fin.ext (by simp only; omega)
  rw [hk]
  exact (Grid.at_eq_get g r c).symm

end Sys2Proof

namespace Sys2Proof.Machine

/-! ### `xtime` -/

/-- The high bit of a byte says whether doubling it overflows. -/
theorem getLsbD_seven (x : Byte) : x.getLsbD 7 = decide (128 ≤ x.toNat) :=
  x.msb_eq_getLsbD_last.symm.trans x.msb_eq_decide

/-- The formula of spec/42_round_transform.md R130 on integers, truncated before the XOR. -/
theorem toNat_xtime (x : Byte) :
    (xtime x).toNat = (2 * x.toNat % 256) ^^^ (if x.toNat < 128 then 0 else 0x1b) := by
  rw [xtime, BitVec.toNat_xor, BitVec.toNat_shiftLeft, getLsbD_seven, Nat.shiftLeft_eq, mul_comm]
  by_cases h : x.toNat < 128
  · simp [h, Nat.not_le.2 h]
  · simp [h, Nat.not_lt.1 h, poly]

/-- The constant is below 256, so truncating after the XOR gives the same byte (spec/42_round_transform.md R130). -/
theorem toNat_xtime_truncated_after (x : Byte) :
    (xtime x).toNat = (2 * x.toNat ^^^ (if x.toNat < 128 then 0 else 0x1b)) % 256 := by
  have hconst : (if x.toNat < 128 then 0 else 0x1b) % 256 = if x.toNat < 128 then 0 else 0x1b := by split <;> rfl
  exact (toNat_xtime x).trans ((Nat.xor_mod_two_pow (n := 8)).trans (congrArg (_ ^^^ ·) hconst)).symm

/-- Doubling reduced by the polynomial 0x11b, whose leading bit takes away the bit that overflows
(spec/42_round_transform.md R130). -/
theorem toNat_xtime_reduced (x : Byte) :
    (xtime x).toNat = if 2 * x.toNat < 256 then 2 * x.toNat else 2 * x.toNat ^^^ 0x11b := by
  rw [toNat_xtime]
  by_cases h : x.toNat < 128
  · rw [if_pos h, if_pos (by omega), Nat.xor_zero, Nat.mod_eq_of_lt (by omega)]
  · have hlow : (2 * x.toNat ^^^ 0x11b) % 256 = 2 * x.toNat % 256 ^^^ 0x1b := Nat.xor_mod_two_pow (n := 8)
    have hhigh : (2 * x.toNat ^^^ 0x11b) / 256 = 0 := by
      have hbit : 2 * x.toNat / 2 ^ 8 = 1 := by omega
      rw [show 256 = 2 ^ 8 from rfl, Nat.xor_div_two_pow, hbit]
      rfl
    rw [if_neg h, if_neg (by omega), ← hlow]
    omega

/-- Settles O12: the formula by the high bit of the byte, the other forms from it. -/
theorem xtimeDoublesModuloThePolynomial : Obligations.XtimeDoublesModuloThePolynomial :=
  ⟨toNat_xtime, toNat_xtime_truncated_after, toNat_xtime_reduced, by decide⟩

/-- `xtime` is linear over XOR, on which R136 and R137 of spec/42_round_transform.md rest. -/
theorem xtime_xor (x y : Byte) : xtime (x ^^^ y) = xtime x ^^^ xtime y := by
  have hconst : (if (x ^^^ y).getLsbD 7 then poly else 0) =
      (if x.getLsbD 7 then poly else 0) ^^^ (if y.getLsbD 7 then poly else 0) := by
    rw [BitVec.getLsbD_xor]
    cases x.getLsbD 7 <;> cases y.getLsbD 7 <;> rfl
  rw [xtime, xtime, xtime, BitVec.shiftLeft_xor_distrib, hconst]
  ac_rfl

/-! ### `MixColumn` -/

/-- Row 0 of the matrix of spec/42_round_transform.md R135 times a column. -/
def mixRow (a b c d : Byte) : Byte := mul2 a ^^^ mul3 b ^^^ c ^^^ d

/-- Row `r` of the matrix is row 0 rotated right by `r` (spec/42_round_transform.md R135). -/
theorem mixColumn_eq_mixRow (a : Word) :
    mixColumn a = ⟨mixRow a.b0 a.b1 a.b2 a.b3, mixRow a.b1 a.b2 a.b3 a.b0, mixRow a.b2 a.b3 a.b0 a.b1,
      mixRow a.b3 a.b0 a.b1 a.b2⟩ := by
  simp only [mixColumn, mixRow, Quad.mk.injEq]
  refine ⟨trivial, ?_, ?_, ?_⟩ <;> ac_rfl

/-- One row in the two forms of spec/42_round_transform.md R137. -/
theorem mixRow_eq_xtime_once (a b c d : Byte) :
    mixRow a b c d = a ^^^ (a ^^^ b ^^^ c ^^^ d) ^^^ xtime (a ^^^ b) := by
  have hcancel : a ^^^ (a ^^^ b ^^^ c ^^^ d) = b ^^^ c ^^^ d := by simp [xor_assoc]
  rw [hcancel, xtime_xor, mixRow, mul2, mul3]
  ac_rfl

/-- The entries of a row sum to 1 (spec/42_round_transform.md R136). -/
theorem mixRow_self (b : Byte) : mixRow b b b b = b := by
  simp [mixRow, mul2, mul3]

theorem mixRow_xor (a b c d a' b' c' d' : Byte) :
    mixRow (a ^^^ a') (b ^^^ b') (c ^^^ c') (d ^^^ d') = mixRow a b c d ^^^ mixRow a' b' c' d' := by
  simp only [mixRow, mul2, mul3, xtime_xor]
  ac_rfl

/-- A column of four equal bytes is unchanged (spec/42_round_transform.md R136). -/
theorem mixColumn_fill (b : Byte) : mixColumn (.fill b) = .fill b := by
  simp only [mixColumn_eq_mixRow, Quad.fill, mixRow_self]

theorem mixColumn_xor (a b : Word) : mixColumn (Word.xor a b) = Word.xor (mixColumn a) (mixColumn b) := by
  simp only [mixColumn_eq_mixRow, Word.xor, mixRow_xor]

/-- Settles O13: row by row, by linearity of `xtime`; the sum `t` is the same in whichever order a row takes it. -/
theorem mixColumnTwoFormsAgree : Obligations.MixColumnTwoFormsAgree := by
  intro a t
  have h1 : a.b1 ^^^ a.b2 ^^^ a.b3 ^^^ a.b0 = t := by unfold t; ac_rfl
  have h2 : a.b2 ^^^ a.b3 ^^^ a.b0 ^^^ a.b1 = t := by unfold t; ac_rfl
  have h3 : a.b3 ^^^ a.b0 ^^^ a.b1 ^^^ a.b2 = t := by unfold t; ac_rfl
  simp only [mixColumn_eq_mixRow, mixRow_eq_xtime_once, h1, h2, h3]
  rfl

/-! ### The four operations on a block -/

@[simp] theorem get_subBytesF (x : Block) (k : Fin 16) : (subBytesF x).get k = substitute (x.get k) :=
  Grid.get_map substitute x k

@[simp] theorem get_shiftRowsF (x : Block) (k : Fin 16) :
    (shiftRowsF x).get k = x.get ⟨5 * k.val % 16, by omega⟩ :=
  Grid.get_ofFn _ k

/-- Row `r` is rotated left by `r` (spec/42_round_transform.md R133). -/
theorem at_shiftRowsF (x : Block) (r c : Fin 4) : (shiftRowsF x).at r c = x.at r (c + r) := by
  rw [Grid.at_eq_get, Grid.at_eq_get, get_shiftRowsF]
  refine congrArg x.get (Fin.ext ?_)
  simp only [Fin.val_add]
  omega

/-- Four rotations bring every entry back, as `5^4 = 1` modulo 16 (spec/42_round_transform.md R133). -/
theorem shiftRowsF_four_times (x : Block) : shiftRowsF (shiftRowsF (shiftRowsF (shiftRowsF x))) = x := by
  refine Grid.ext_get fun k => ?_
  simp only [get_shiftRowsF]
  exact congrArg x.get (Fin.ext (by simp only; omega))

theorem shiftRowsF_fill (b : Byte) : shiftRowsF (.fill b) = .fill b :=
  Grid.ext_get fun k => by simp

@[simp] theorem col_mixColumnsF (x : Block) (c : Fin 4) : (mixColumnsF x).col c = mixColumn (x.col c) :=
  match c with
  | 0 => rfl
  | 1 => rfl
  | 2 => rfl
  | 3 => rfl

@[simp] theorem get_addRoundKeyF (x : Block) (w : Schedule) (r : Fin 11) (k : Fin 16) :
    (addRoundKeyF x w r).get k = x.get k ^^^ (w.key r).get k :=
  Block.get_xor x (w.key r) k

/-- ADDROUNDKEY is its own inverse (spec/42_round_transform.md R138). -/
theorem addRoundKeyF_twice (x : Block) (w : Schedule) (r : Fin 11) : addRoundKeyF (addRoundKeyF x w r) w r = x :=
  Grid.ext_get fun k => by simp

/-- An all-zero round key leaves the State as it is (spec/42_round_transform.md R138). -/
theorem addRoundKeyF_of_zero_key (x : Block) {w : Schedule} {r : Fin 11} (h : w.key r = .fill 0) :
    addRoundKeyF x w r = x :=
  Grid.ext_get fun k => by simp [h]

/-! ### Completion -/

/-- A micro-operation that transforms the State completes: the lane goes on and nothing else changes. -/
theorem exec_transform {i : Instr} {s : State} {l : Lane} {f : Block → Block} (hl : s.lanes[s.cur]? = some l)
    (hi : laneExec i l = .next (l.transform f)) :
    ∃ l' : Lane, exec i s = .next (s.putLane s.cur l') ∧
      l' = { l with s := l'.s, sWritten := true, upc := l.upc + 1, overrun := l.nextOverrun } ∧ l'.s = f l.readS :=
  ⟨l.transform f, exec_of hl hi, rfl, rfl⟩

/-- ADDROUNDKEY with an index of a legal word (spec/42_round_transform.md R138). -/
theorem laneExec_addroundkey_of_le {r : BitVec 4} (h : r.toNat ≤ 10) (l : Lane) :
    laneExec (.addroundkey r) l = .next (l.transform fun x => addRoundKeyF x l.readRk ⟨r.toNat, by omega⟩) := by
  simp only [laneExec, laneAddroundkey, roundKeyIndex_of_le h]

/-- ADDROUNDKEY with an index above 10, given to exec without the decoder (log 17). -/
theorem exec_addroundkey_of_gt {s : State} {l : Lane} {r : BitVec 4} (hl : s.lanes[s.cur]? = some l)
    (h : 10 < r.toNat) : exec (.addroundkey r) s = .refused (.roundKeyIndex r) := by
  rw [exec_eq_onLane, onLane_of hl]
  simp only [laneExec, laneAddroundkey, roundKeyIndex_of_gt h]

/-! ### Places in the control ROM -/

/-- A word that stands in `CTRL_ROM` once in each of rounds 1 to `n`, at offset `o`, from a look at the 44 places
(spec/30_encoding.md R88). -/
theorem ctrlRom_eq_iff_of_places {w : Byte} {n o : Nat}
    (places : ∀ u < 44, ctrlRom u = some w ↔ 1 ≤ u / 4 ∧ u / 4 ≤ n ∧ u % 4 = o) (hn : 4 * n + o < 44) (ho : o < 4)
    (u : Nat) : ctrlRom u = some w ↔ ∃ r, 1 ≤ r ∧ r ≤ n ∧ u = 4 * r + o := by
  constructor
  · intro h
    obtain ⟨h1, hr, hm⟩ := (places u (lt_of_ctrlRom_eq_some h)).1 h
    exact ⟨u / 4, h1, hr, by omega⟩
  · rintro ⟨r, h1, hr, rfl⟩
    exact (places _ (by omega)).2 (by omega)

theorem ctrlRom_eq_subbytes_iff (u : Nat) : ctrlRom u = some 0x50 ↔ ∃ r, 1 ≤ r ∧ r ≤ 10 ∧ u = 4 * r :=
  ctrlRom_eq_iff_of_places (o := 0) (by decide) (by decide) (by decide) u

theorem ctrlRom_eq_shiftrows_iff (u : Nat) : ctrlRom u = some 0x60 ↔ ∃ r, 1 ≤ r ∧ r ≤ 10 ∧ u = 4 * r + 1 :=
  ctrlRom_eq_iff_of_places (by decide) (by decide) (by decide) u

/-- Round 10 has no MIXCOLUMNS (spec/42_round_transform.md R136). -/
theorem ctrlRom_eq_mixcolumns_iff (u : Nat) : ctrlRom u = some 0x70 ↔ ∃ r, 1 ≤ r ∧ r ≤ 9 ∧ u = 4 * r + 2 :=
  ctrlRom_eq_iff_of_places (by decide) (by decide) (by decide) u

/-- ADDROUNDKEY of a full round (spec/42_round_transform.md R138). -/
theorem ctrlRom_addroundkey {r : Nat} (h1 : 1 ≤ r) (h9 : r ≤ 9) :
    ctrlRom (4 * r + 3) = some (0x40 + BitVec.ofNat 8 r) := by
  have places : ∀ r < 10, 1 ≤ r → ctrlRom (4 * r + 3) = some (0x40 + BitVec.ofNat 8 r) := by decide
  exact places r (by omega) h1

/-- The word of ADDROUNDKEY is `0x40 + r` (spec/42_round_transform.md R138). -/
theorem encode_addroundkey : ∀ r : BitVec 4, encode (.addroundkey r) = 0x40 + r.setWidth 8 := by decide

/-! ### The micro-operations -/

/-- Settles O22: SUBBYTES transforms the State byte by byte; the rest by running the model on the rule's examples. -/
theorem subbytesSubstitutesEveryByte : Obligations.SubbytesSubstitutesEveryByte := by
  refine ⟨fun s l hl => ?_, rfl, ctrlRom_eq_subbytes_iff, by decide, by decide⟩
  obtain ⟨l', hexec, hframe, hs⟩ := exec_transform (i := .subbytes) hl rfl
  exact ⟨l', hexec, hframe, fun k => by rw [hs, get_subBytesF]⟩

/-- Settles O23: SHIFTROWS permutes the State by `5k` modulo 16, which is a rotation of each row. -/
theorem shiftrowsRotatesTheRows : Obligations.ShiftrowsRotatesTheRows := by
  refine ⟨fun s l hl => ?_, rfl, ctrlRom_eq_shiftrows_iff, fun k => by omega, fun x c => ⟨?_, ?_⟩,
    shiftRowsF_four_times, shiftRowsF_fill, by decide, by decide⟩
  · obtain ⟨l', hexec, hframe, hs⟩ := exec_transform (i := .shiftrows) hl rfl
    exact ⟨l', hexec, hframe, fun r c => by rw [hs, at_shiftRowsF], fun k => by rw [hs, get_shiftRowsF]⟩
  · rw [at_shiftRowsF, add_zero]
  · have htwo : c + 2 = c - 2 := by revert c; decide
    rw [at_shiftRowsF, htwo]

/-- Settles O24: MIXCOLUMNS transforms each column alone; the examples by running the model. -/
theorem mixcolumnsMultipliesEachColumn : Obligations.MixcolumnsMultipliesEachColumn := by
  refine ⟨fun s l hl => ?_, rfl, ctrlRom_eq_mixcolumns_iff, mixColumn_fill, mixColumn_xor, by decide⟩
  obtain ⟨l', hexec, hframe, hs⟩ := exec_transform (i := .mixcolumns) hl rfl
  refine ⟨l', hexec, hframe, fun c => ?_⟩
  intro a
  have ha (r : Fin 4) : a r = (l.readS.col c).get r := Grid.get_eq_col_get _ c r _ rfl
  have hrow (r : Fin 4) {k : Nat} (h : k < 16) (e : k = 4 * c.val + r.val) :
      l'.s.get ⟨k, h⟩ = (mixColumn (l.readS.col c)).get r := by
    rw [Grid.get_eq_col_get _ c r h e, hs, col_mixColumnsF]
  simp only [ha]
  exact ⟨hrow 0 _ rfl, hrow 1 _ rfl, hrow 2 _ rfl, hrow 3 _ rfl⟩

/-- Settles O25: ADDROUNDKEY by whether its index is one of a legal word; byte `16r + k` of the schedule is byte `k` of
round key `r`. -/
theorem addroundkeyXorsARoundKey : Obligations.AddroundkeyXorsARoundKey := by
  refine ⟨fun s l r h hl => ?_, fun w r b c => ?_, fun s l r h hl => exec_addroundkey_of_gt hl h, fun w r hd => ?_, rfl,
    fun r => ctrlRom_addroundkey, rfl, fun x key => rfl, addRoundKeyF_twice, fun x w r => addRoundKeyF_of_zero_key x, ?_⟩
  · obtain ⟨l', hexec, hframe, hs⟩ := exec_transform hl (laneExec_addroundkey_of_le h l)
    refine ⟨l', hexec, hframe, fun k => ?_⟩
    rw [hs, get_addRoundKeyF, Schedule.byte_eq _ _ ⟨r.toNat, by omega⟩ k rfl]
  · exact w.byte_word _ ⟨4 * r.val + c.val, by omega⟩ b (by simp only; omega)
  · obtain ⟨hwf, rfl⟩ := (decodeInvertsEncode w _).1 hd
    exact ⟨of_decide_eq_true hwf, encode_addroundkey r⟩
  · decide

end Sys2Proof.Machine
end

section
/-! PROOF. The sequence of the hardware's control store (spec/43_cipher_pipeline.md): VALIDATE, LOADPT and STORECT, the
step of a lane, where it leads, and `Encrypt` at its end. -/

namespace Sys2Proof.Machine

/-! ### The step of a lane -/

/-- The step of a lane that fetches a micro-operation's word is that micro-operation (spec/43_cipher_pipeline.md R155). -/
theorem laneStep_of_decode {i : Nat} {s : State} {l : Lane} {w : Byte} {ins : Instr} (hl : s.lanes[i]? = some l)
    (hw : s.fetch l = some w) (hd : decode w = .ok ins) : laneStep i s = exec ins { s with cur := i } := by
  simp only [laneStep, hl, hw, runWord, hd]

/-- With nothing on the agenda a step is the engine's own move (spec/44_batch_driver.md R185). -/
theorem step_of_empty_agenda {s : State} (h : s.agenda = []) : step s = engineMove s := by
  simp only [step, nextStep, h]

/-- Otherwise it is the event at the agenda's head, on the state without it (log 3). -/
theorem step_of_agenda {s : State} {e : Event} {rest : List Event} (h : s.agenda = e :: rest) :
    step s = perform e { s with agenda := rest } := by
  simp only [step, nextStep, h]

/-- The lanes that have a step are listed in rising order. -/
theorem runningFrom_pairwise (c : ControlStore) (k : Nat) (ls : List Lane) :
    (runningFrom c k ls).Pairwise (· < ·) := by
  induction ls generalizing k with
  | nil => exact .nil
  | cons l ls ih =>
    unfold runningFrom
    split
    · refine .cons (fun j hj => ?_) (ih (k + 1))
      obtain ⟨m, hk, -⟩ := mem_runningFrom.1 hj
      exact hk
    · exact ih (k + 1)

/-- The one lane with a step is the whole list. -/
theorem runningFrom_eq_singleton {s : State} {i : Nat} {l : Lane} (hl : s.lanes[i]? = some l)
    (hr : l.running s.ctrl = true)
    (hone : ∀ (j : Nat) (m : Lane), s.lanes[j]? = some m → m.running s.ctrl = true → j = i) :
    runningFrom s.ctrl 0 s.lanes = [i] := by
  have hnodup : (runningFrom s.ctrl 0 s.lanes).Nodup := (runningFrom_pairwise _ _ _).imp Nat.ne_of_lt
  refine List.perm_singleton.1 ((List.perm_ext_iff_of_nodup hnodup (List.nodup_singleton i)).2 fun j => ?_)
  rw [mem_runningFrom, List.mem_singleton]
  constructor
  · rintro ⟨m, -, hm, hrun⟩
    exact hone j m hm hrun
  · rintro rfl
    exact ⟨l, Nat.zero_le _, hl, hr⟩

/-- Settles O7: the agenda's lane, or the one lane with a step, executes the word it fetches. -/
theorem laneStepRunsTheDecodedWord : Obligations.LaneStepRunsTheDecodedWord := by
  refine ⟨fun s i rest l w ins hl hw hd => ⟨fun hag => ?_, fun hag hone => ?_⟩, fun s l hc ho => ?_⟩
  · rw [step_of_lane hag]
    exact laneStep_of_decode hl hw hd
  · rw [step_of_empty_agenda hag, engineMove, runningFrom_eq_singleton hl (running_iff.2 ⟨w, hw⟩) hone]
    exact laneStep_of_decode hl hw hd
  · rw [State.fetch, hc, fetch_rom ho]

/-- Settles O8: a lane without a word to fetch leaves the state as it is; with `CTRL_ROM` it is one at 44 or above. -/
theorem laneWithoutStepChangesNothing : Obligations.LaneWithoutStepChangesNothing := by
  refine ⟨fun s i rest l hag hl hw => ?_, fun s l hc ho => ?_⟩
  · rw [step_of_lane hag]
    exact laneStep_of_fetch_none hl hw
  · rw [State.fetch, hc, ← not_running_iff, running_rom ho, decide_eq_false_iff_not, Nat.not_lt]

/-! ### VALIDATE, LOADPT and STORECT -/

/-- A word that stands in `CTRL_ROM` once, from a look at the 44 places (spec/30_encoding.md R88). -/
theorem ctrlRom_eq_iff_of_place {w : Byte} {p : Nat} (places : ∀ u < 44, ctrlRom u = some w ↔ u = p) (hp : p < 44)
    (u : Nat) : ctrlRom u = some w ↔ u = p :=
  ⟨fun h => (places u (lt_of_ctrlRom_eq_some h)).1 h, fun h => (places u (h ▸ hp)).2 h⟩

/-- VALIDATE with two lengths of 16 goes on (spec/43_cipher_pipeline.md R150). -/
theorem laneExec_validate_of_good {l : Lane} (hk : l.inKlen = 16) (hp : l.inPlen = 16) :
    laneExec .validate l = .next l.advance :=
  if_pos ((lengthErrors_eq_zero_iff _ _).2 ⟨hk, hp⟩)

/-- VALIDATE with a wrong length raises the errors of the two lengths (spec/43_cipher_pipeline.md R150). -/
theorem laneExec_validate_of_bad {l : Lane} (h : ¬ (l.inKlen = 16 ∧ l.inPlen = 16)) :
    laneExec .validate l = .next (l.raise (lengthErrors l.inKlen l.inPlen)) :=
  if_neg (mt (lengthErrors_eq_zero_iff _ _).1 h)

/-- The errors of two lengths of which at least one is wrong (spec/43_cipher_pipeline.md R150). -/
theorem lengthErrors_values (a b : BitVec 8) :
    (a ≠ 16 → b = 16 → lengthErrors a b = 1) ∧ (a = 16 → b ≠ 16 → lengthErrors a b = 2) ∧
      (a ≠ 16 → b ≠ 16 → lengthErrors a b = 3) := by
  refine ⟨fun ha hb => ?_, fun ha hb => ?_, fun ha hb => ?_⟩
  all_goals
    simp only [lengthErrors, ha, hb, if_true, if_false]
    rfl

/-- VALIDATE with a wrong length leaves its lane `Faulted`, with the errors in `ERR`, and changes nothing else
(spec/43_cipher_pipeline.md R150). -/
theorem exec_validate_of_errors {s : State} {l : Lane} {e : BitVec 2} (hl : s.lanes[s.cur]? = some l)
    (h : ¬ (l.inKlen = 16 ∧ l.inPlen = 16)) (he : lengthErrors l.inKlen l.inPlen = e) :
    exec .validate s = .next (s.putLane s.cur { l with err := e, upc := 62, overrun := none }) :=
  he ▸ exec_of hl (laneExec_validate_of_bad h)

/-- Settles O19: the four cases are the four values of the length errors; a slot after reset has two lengths of 0. -/
theorem validateChecksBothLengths : Obligations.ValidateChecksBothLengths := by
  refine ⟨fun s l hl => ?_, fun s p hl => ?_, rfl, ctrlRom_eq_iff_of_place (by decide) (by decide)⟩
  · obtain ⟨key, block, both⟩ := lengthErrors_values l.inKlen l.inPlen
    exact ⟨fun hk hp => exec_of hl (laneExec_validate_of_good hk hp),
      fun hk hp => exec_validate_of_errors hl (fun h => hk h.1) (key hk hp),
      fun hk hp => exec_validate_of_errors hl (fun h => hp h.2) (block hk hp),
      fun hk hp => exec_validate_of_errors hl (fun h => hk h.1) (both hk hp)⟩
  · exact exec_validate_of_errors hl (by simp) (by decide : lengthErrors 0 0 = 3)

/-- LOADPT with a plaintext in each of its bytes (spec/43_cipher_pipeline.md R152). -/
theorem laneExec_loadpt_of_readPt {l : Lane} {pt : Block} (hp : l.readPt = some pt) :
    laneExec .loadpt l = .next (l.writeS pt).advance := by
  simp only [laneExec, laneLoadpt, hp]

/-- LOADPT where the plaintext has no value is the fault of the launch (spec/43_cipher_pipeline.md R152). -/
theorem exec_loadpt_of_readPt_eq_none {s : State} {l : Lane} (hl : s.lanes[s.cur]? = some l)
    (hp : l.readPt = none) : exec .loadpt s = .fault .unwrittenPlaintext := by
  rw [exec_eq_onLane, onLane_of hl]
  simp only [laneExec, laneLoadpt, hp]

/-- The plaintext reads as no value exactly when one of its bytes has not been written. -/
theorem Lane.readPt_eq_none_iff (l : Lane) : l.readPt = none ↔ ∃ k, l.inPtWritten.get k = false := by
  rw [← Grid.allSet_eq_false_iff, Lane.readPt]
  cases l.inPtWritten.allSet <;> simp

/-- Settles O21: completion and fault by whether the plaintext reads as a value; the example by running the model. -/
theorem loadptLoadsThePlaintext : Obligations.LoadptLoadsThePlaintext := by
  refine ⟨fun s l hl hw => ?_, fun s l hl hw => ?_, rfl, ctrlRom_eq_iff_of_place (by decide) (by decide), rfl,
    fun x k => rfl, by decide⟩
  · exact exec_of hl (laneExec_loadpt_of_readPt ((l.readPt_eq_some_iff _).2 ⟨(Grid.allSet_iff _).2 hw, rfl⟩))
  · exact exec_loadpt_of_readPt_eq_none hl (l.readPt_eq_none_iff.2 hw)

/-- Settles O26: STORECT's effect is its lane function's, no other micro-operation writes an output slot, and a lane that
is `Done` is settled, so it has no step. -/
theorem storectDeliversTheCiphertext : Obligations.StorectDeliversTheCiphertext := by
  refine ⟨fun s l hl => exec_of hl rfl, rfl, ctrlRom_eq_iff_of_place (by decide) (by decide), rfl,
    fun i s t h hi j l l' hl hl' => ?_, fun s i l hl hu ho => ?_⟩
  · obtain ⟨m, m', hm, he, rfl⟩ := exec_next h
    obtain ⟨rfl, rfl⟩ | rfl := State.putLane_getElem?_cases hl hl'
    · obtain rfl : l = m := Option.some.inj (hl.symm.trans hm)
      exact (laneExec_next he).out_eq hi
    · exact ⟨rfl, rfl, rfl⟩
  · exact laneStep_of_fetch_none hl (fetch_of_settled (l.settled_iff.2 ⟨ho, .inl hu⟩) s.ctrl)

/-! ### Where a lane's step leads -/

/-- A place below 44 is named by `UPC` (spec/10_state.md R27). -/
theorem Lane.place_eq_some_iff {l : Lane} {u : Nat} (hu : u < 44) :
    l.place = some u ↔ l.overrun = none ∧ l.upc.toNat = u := by
  cases ho : l.overrun with
  | some n => simp [Lane.place, ho]; omega
  | none => simp [Lane.place, ho]; omega

/-- VALIDATE is at place 0 alone and STORECT at place 43 alone (spec/30_encoding.md R88). -/
theorem romInstr_eq_iff {u : Nat} (hu : u < 44) :
    (romInstr u = .validate ↔ u = 0) ∧ (romInstr u = .storect ↔ u = 43) := by
  revert u; decide

/-- Where a lane's step leads from the hardware's control store: VALIDATE with a wrong length to `Faulted`, every other
step to the next place, which after STORECT is `Done` (spec/43_cipher_pipeline.md R156). -/
theorem LaneEffect.romInstr_successor {l l' : Lane} (ho : l.overrun = none) (hu : l.upc.toNat < 44)
    (h : LaneEffect l l' (romInstr l.upc.toNat)) :
    l'.overrun = none ∧
      l'.upc = if l.upc = 0 ∧ ¬ (l.inKlen = 16 ∧ l.inPlen = 16) then upcFaulted else l.upc + 1 := by
  obtain ⟨hval, hsto⟩ := romInstr_eq_iff hu
  have hzero : l.upc = 0 ↔ l.upc.toNat = 0 := BitVec.toNat_inj.symm
  obtain ⟨hi, ho', hu'⟩ | ⟨hi, hlen, ho', hu'⟩ | ⟨hi, hlen, hp'⟩ := h.place_cases ((l.place_eq_some_iff hu).2 ⟨ho, rfl⟩)
  · have h43 : l.upc = 43 := BitVec.eq_of_toNat_eq (hsto.1 hi)
    exact ⟨ho', by rw [hu', h43]; rfl⟩
  · exact ⟨ho', by rw [hu', if_pos ⟨hzero.2 (hval.1 hi), hlen⟩]⟩
  · have hne : l.upc.toNat ≠ 43 := mt hsto.2 hi
    obtain ⟨ho', hu'⟩ := (Lane.place_eq_some_iff (by omega)).1 hp'
    refine ⟨ho', ?_⟩
    rw [if_neg fun ⟨h0, hbad⟩ => hbad (hlen (hval.2 (hzero.1 h0)))]
    exact BitVec.eq_of_toNat_eq (hu'.trans (upc_succ_toNat hu).symm)

/-- The word that a lane fetches from the hardware's control store decodes to the micro-operation at its place. -/
theorem eq_romInstr_of_fetch {s : State} {l : Lane} {w : Byte} {ins : Instr} (hc : s.ctrl = .rom)
    (hw : s.fetch l = some w) (hd : decode w = .ok ins) :
    l.overrun = none ∧ l.upc.toNat < 44 ∧ ins = romInstr l.upc.toNat := by
  rw [State.fetch, hc] at hw
  have hr := running_iff.2 ⟨w, hw⟩
  obtain ⟨ho, hu⟩ := place_of_running_rom hr
  obtain rfl : encode (romInstr l.upc.toNat) = w := by simpa [fetch_of_running hr] using hw
  exact ⟨ho, hu, Except.ok.inj (hd.symm.trans (decode_romInstr hu))⟩

/-- START puts every lane at 0 or 63 (spec/44_batch_driver.md R184). -/
theorem upc_of_start {s t : State} {i : Nat} {l' : Lane} (h : step s = .next t)
    (hag : s.agenda.head? = some (.host .start)) (hl' : t.lanes[i]? = some l') : l'.upc = 0 ∨ l'.upc = 63 := by
  rw [step_of_host hag] at h
  simp only [hostAct, hostStart] at h
  split at h
  · cases h
  · cases h
    obtain ⟨l, v, -, rfl, ⟨rfl, -⟩ | rfl⟩ := State.startBatch_getElem? hl'
    · exact .inl rfl
    · exact .inr rfl

/-- Settles O47: of all that a step can do to a lane, executing its word moves `UPC` to the successor, START to 0 or 63,
reset to 63, and nothing else moves it. -/
theorem upcMovesOnlyForward : Obligations.UpcMovesOnlyForward := by
  intro s t i l l' hc h hl hl'
  cases LaneChange.of_step h hl hl' with
  | kept e => exact .inl (by rw [e])
  | executed w ins hw hd he hcur =>
    obtain ⟨ho, hu, rfl⟩ := eq_romInstr_of_fetch hc hw hd
    have hnext := (he.romInstr_successor ho hu).2
    split at hnext
    · next h0 => exact .inr (.inr (.inl ⟨h0.1, hnext⟩))
    · exact .inr (.inl ⟨hu, hnext⟩)
  | restarted v hag e => exact .inr (.inr (.inr (.inl ⟨hag, upc_of_start h hag hl'⟩)))
  | reset p hag e => exact .inr (.inr (.inr (.inr ⟨hag, by rw [e]; rfl⟩)))

/-- Whether a lane has a step depends on its place alone. -/
theorem running_congr {l m : Lane} (hu : l.upc = m.upc) (ho : l.overrun = m.overrun) (c : ControlStore) :
    l.running c = m.running c := by
  simp only [Lane.running, ControlStore.fetch, Lane.place, hu, ho]

/-- Where the step of a lane leaves it, from the hardware's control store (spec/43_cipher_pipeline.md R156). -/
theorem laneStep_rom_successor {i : Nat} {s t : State} {l l' : Lane} (hc : s.ctrl = .rom) (hl : s.lanes[i]? = some l)
    (h : laneStep i s = .next t) (hl' : t.lanes[i]? = some l') :
    if l.running .rom then l'.overrun = none ∧
      l'.upc = if l.upc = 0 ∧ ¬ (l.inKlen = 16 ∧ l.inPlen = 16) then upcFaulted else l.upc + 1
    else l' = l := by
  obtain ⟨m, hm, ⟨hr, rfl⟩ | ⟨m', hr, he, rfl⟩⟩ := laneStep_rom_next hc h
  · obtain rfl : l = m := Option.some.inj (hl.symm.trans hm)
    rw [hr]
    exact Option.some.inj (hl'.symm.trans hl)
  · obtain rfl : l = m := Option.some.inj (hl.symm.trans hm)
    obtain rfl : m' = l' :=
      Option.some.inj ((State.putLane_getElem?_self (s := { s with cur := i }) hl m').symm.trans hl')
    rw [if_pos hr]
    obtain ⟨ho, hu⟩ := place_of_running_rom hr
    exact (laneExec_next he).romInstr_successor ho hu

/-- Settles O48: the successor reads `UPC` and the test of the two lengths, and nothing else. -/
theorem sequenceIgnoresTheData : Obligations.SequenceIgnoresTheData := by
  intro s s' t t' i i' l m l' m' hc hc' hl hm hu ho hlen h h' hl' hm'
  have hls := laneStep_rom_successor hc hl h hl'
  have hms := laneStep_rom_successor hc' hm h' hm'
  simp only [← running_congr hu ho, ← hu, ← hlen] at hms
  split at hls
  · next hr =>
    rw [if_pos hr] at hms
    exact ⟨hls.2.trans hms.2.symm, hls.1.trans hms.1.symm⟩
  · next hr =>
    rw [if_neg hr] at hms
    rw [hls, hms]
    exact ⟨hu, ho⟩


/-- The document's state of a lane that `UPC` places (spec/43_cipher_pipeline.md R158). -/
theorem Lane.phase_of_no_overrun (l : Lane) (ho : l.overrun = none) : l.phase = Machine.phase l.upc := by
  rw [Lane.phase, ho]

/-- The document's state that a micro-operation without error enters (the table of spec/43_cipher_pipeline.md R158). -/
def phaseAfter : Instr → Option Phase
  | .loadpt => some .initialized
  | .addroundkey r => some (if r = 0 then .roundKeyAdded0 else .round r.toNat)
  | .storect => some .done
  | .validate => none
  | .keyexpand => none
  | .subbytes => none
  | .shiftrows => none
  | .mixcolumns => none

/-- The place after each one of `CTRL_ROM` has the name that its micro-operation enters (spec/43_cipher_pipeline.md R158). -/
theorem phase_succ : ∀ u : BitVec 6, u.toNat < 44 → phase (u + 1) = phaseAfter (romInstr u.toNat) := by decide

/-- Settles O49: the step leads to the next place, whose name is the micro-operation's, or to `Faulted`, which has none as
VALIDATE has none. -/
theorem phasesAreEnteredAsTheDocumentSays : Obligations.PhasesAreEnteredAsTheDocumentSays := by
  refine ⟨fun s t i l l' w ins hc hl hw hd h hl' => ?_, by decide, by decide, by decide⟩
  obtain ⟨ho, hu, rfl⟩ := eq_romInstr_of_fetch hc hw hd
  have hnext := laneStep_rom_successor hc hl h hl'
  rw [running_rom ho, decide_eq_true hu, if_pos rfl] at hnext
  have hphase : l'.phase = phaseAfter (romInstr l.upc.toNat) := by
    rw [l'.phase_of_no_overrun hnext.1, hnext.2]
    split
    · next h0 => rw [h0.1]; decide
    · exact phase_succ l.upc hu
  exact hphase

end Sys2Proof.Machine
end

section
/-! PROOF. The State at each place of the sequence and a lane that encrypts, spec/43_cipher_pipeline.md R158 to R161; and
the known answers of `Encrypt`. -/

namespace Sys2Proof.Machine

/-! ### Known answers -/

/-- Settles O52, by running `encrypt` in the kernel on each of the four pairs. -/
theorem encryptKnownAnswers : Obligations.EncryptKnownAnswers :=
  ⟨by decide +kernel, by decide +kernel, by decide +kernel, by decide +kernel⟩

/-! ### The State, place by place -/

/-- The micro-operations of round `r` in `CTRL_ROM` (spec/30_encoding.md R88). -/
theorem romInstr_round {r : Nat} (h1 : 1 ≤ r) (h10 : r ≤ 10) :
    romInstr (4 * r) = .subbytes ∧ romInstr (4 * r + 1) = .shiftrows ∧
      (r ≤ 9 → romInstr (4 * r + 2) = .mixcolumns ∧ romInstr (4 * r + 3) = .addroundkey (BitVec.ofNat 4 r)) := by
  have rounds : ∀ r < 11, 1 ≤ r → romInstr (4 * r) = .subbytes ∧ romInstr (4 * r + 1) = .shiftrows ∧
      (r ≤ 9 → romInstr (4 * r + 2) = .mixcolumns ∧ romInstr (4 * r + 3) = .addroundkey (BitVec.ofNat 4 r)) := by decide
  exact rounds r (by omega) h1

/-- After the last operation of round `r` the State is that at the first place of the next round. -/
theorem stateAt_round_end (w : Schedule) (pt : Block) {r : Nat} (h1 : 1 ≤ r) (h9 : r ≤ 9) :
    stateAt w pt (4 * r + 3 + 1) = addRoundKeyF (stateAt w pt (4 * r + 3)) w ⟨r, by omega⟩ := by
  obtain ⟨-, -, -, hmix⟩ := stateAt_ops w pt h1 (by omega : r ≤ 10)
  obtain ⟨hnext, -⟩ := stateAt_ops w pt (by omega : 1 ≤ r + 1) (by omega)
  obtain ⟨k, rfl⟩ := Nat.exists_eq_add_of_le' h1
  rw [hmix h9]
  exact hnext.trans (afterRounds_succ w pt (by omega))

/-- After the last operation of round 10 the State is that at the last place. -/
theorem stateAt_last_round (w : Schedule) (pt : Block) : stateAt w pt 43 = addRoundKeyF (stateAt w pt 42) w 10 := by
  obtain ⟨-, -, hshift, -⟩ := stateAt_ops w pt (by omega : 1 ≤ 10) (by omega)
  rw [show stateAt w pt 42 = _ from hshift, stateAt, if_neg (by omega), if_pos rfl, lastRound]

/-- The places between LOADPT and STORECT: in round 0, inside a full round or at its end, and in round 10. -/
theorem round_place_cases {u : Nat} (h3 : 3 ≤ u) (h42 : u ≤ 42) :
    u = 3 ∨ u = 42 ∨ ∃ r, 1 ≤ r ∧ r ≤ 10 ∧
      (u = 4 * r ∨ u = 4 * r + 1 ∨ r ≤ 9 ∧ u = 4 * r + 2 ∨ r ≤ 9 ∧ u = 4 * r + 3) := by
  by_cases h : u = 3 ∨ u = 42
  · exact h.imp_right .inl
  · exact .inr (.inr ⟨u / 4, by omega⟩)

section
variable {l : Lane} {w : Schedule} {pt : Block} {u : Nat}

/-- ADDROUNDKEY gives the State of the next place where that is the State XOR its round key. -/
theorem laneExec_addroundkey_stateAt {r : BitVec 4} {j : Fin 11} (hr : r.toNat = j.val) (hrk : l.readRk = w)
    (hs : l.readS = stateAt w pt u) (hnext : stateAt w pt (u + 1) = addRoundKeyF (stateAt w pt u) w j) :
    laneExec (.addroundkey r) l = .next (l.writeS (stateAt w pt (u + 1))).advance := by
  have hj : (⟨r.toNat, by omega⟩ : Fin 11) = j := Fin.ext hr
  rw [laneExec_addroundkey_of_le (by omega), hnext, ← hs, ← hrk, hj]
  rfl

/-- A lane with the schedule, at a place between LOADPT and STORECT with the State of that place, has the State of the next
place after its step (spec/43_cipher_pipeline.md R160, R161). -/
theorem laneExec_romInstr_stateAt (h3 : 3 ≤ u) (h42 : u ≤ 42) (hrk : l.readRk = w) (hs : l.readS = stateAt w pt u) :
    laneExec (romInstr u) l = .next (l.writeS (stateAt w pt (u + 1))).advance := by
  obtain rfl | rfl | ⟨r, h1, h10, hu⟩ := round_place_cases h3 h42
  · refine laneExec_addroundkey_stateAt (r := 0) (j := 0) rfl hrk hs ?_
    rw [stateAt_three]
    exact (stateAt_ops w pt (Nat.le_refl 1) (by omega)).1
  · exact laneExec_addroundkey_stateAt (r := 10) (j := 10) rfl hrk hs (stateAt_last_round w pt)
  · obtain ⟨hstart, hsub, hshift, hmix⟩ := stateAt_ops w pt h1 h10
    obtain ⟨isub, ishift, ilast⟩ := romInstr_round h1 h10
    obtain rfl | rfl | ⟨h9, rfl⟩ | ⟨h9, rfl⟩ := hu
    · rw [isub, hsub, ← hstart, ← hs]; rfl
    · rw [ishift, hshift, ← hsub, ← hs]; rfl
    · rw [(ilast h9).1, hmix h9, ← hshift, ← hs]; rfl
    · have hr : (BitVec.ofNat 4 r).toNat = r := by simp only [BitVec.toNat_ofNat]; omega
      rw [(ilast h9).2]
      exact laneExec_addroundkey_stateAt hr hrk hs (stateAt_round_end w pt h1 h9)

end

/-! ### A lane that encrypts -/

/-- A lane with two lengths of 16 that holds a key and a plaintext, between its steps: at a place of the sequence, with what
the micro-operations before that place compute (spec/43_cipher_pipeline.md R161). -/
structure Lane.Encrypts (l : Lane) (key pt : Block) : Prop where
  keyLength : l.inKlen = 16
  blockLength : l.inPlen = 16
  holdsKey : l.readKey = some key
  holdsPt : l.readPt = some pt
  noOverrun : l.overrun = none
  place : l.upc.toNat ≤ 44
  noError : l.err = 0
  validIffDone : l.outValid = true ↔ l.upc = upcDone
  schedule : 2 ≤ l.upc.toNat → l.rkWritten = true ∧ l.rk = expandKey key
  state : 3 ≤ l.upc.toNat → l.upc.toNat ≤ 43 → l.sWritten = true ∧ l.s = stateAt (expandKey key) pt l.upc.toNat
  result : l.upc = upcDone → l.outCt = encrypt key pt

/-- KEYEXPAND with a key in each of its bytes (spec/41_key_scheduler.md R118). -/
theorem laneExec_keyexpand_of_readKey {l : Lane} {key : Block} (hk : l.readKey = some key) :
    laneExec .keyexpand l = .next (l.writeRk (expandKey key)).advance := by
  simp only [laneExec, laneKeyexpand, hk]

theorem Lane.readS_of_written {l : Lane} (h : l.sWritten = true) : l.readS = l.s := if_pos h

theorem Lane.readRk_of_written {l : Lane} (h : l.rkWritten = true) : l.readRk = l.rk := if_pos h

/-- Before STORECT such a lane shows no result. -/
theorem Lane.Encrypts.not_valid {l : Lane} {key pt : Block} (h : l.Encrypts key pt) (hu : l.upc.toNat < 44) :
    l.outValid = false := by
  simpa using mt h.validIffDone.1 (upc_ne_of_lt hu).1

/-- The successor of a micro-operation without error, which has given such a lane what the next place needs in its working
registers. -/
theorem Lane.Encrypts.advance {l m : Lane} {key pt : Block} (h : l.Encrypts key pt) (hu : l.upc.toNat < 43)
    (e : m = { l with s := m.s, sWritten := m.sWritten, rk := m.rk, rkWritten := m.rkWritten })
    (hrk : 1 ≤ l.upc.toNat → m.rkWritten = true ∧ m.rk = expandKey key)
    (hs : 2 ≤ l.upc.toNat → m.sWritten = true ∧ m.s = stateAt (expandKey key) pt (l.upc.toNat + 1)) :
    m.advance.Encrypts key pt := by
  have hsucc : (l.upc + 1).toNat = l.upc.toNat + 1 := upc_succ_toNat (by omega)
  have hdone : l.upc + 1 ≠ upcDone := (upc_ne_of_lt (by omega)).1
  rw [e]
  exact
    { keyLength := h.keyLength
      blockLength := h.blockLength
      holdsKey := h.holdsKey
      holdsPt := h.holdsPt
      noOverrun := nextOverrun_eq_none h.noOverrun (show l.upc.toNat ≠ 43 by omega)
      place := show (l.upc + 1).toNat ≤ 44 by omega
      noError := h.noError
      validIffDone := iff_of_false (by simp [h.not_valid (by omega)]) hdone
      schedule := fun (h2 : 2 ≤ (l.upc + 1).toNat) => hrk (by omega)
      state := fun (h3 : 3 ≤ (l.upc + 1).toNat) _ => hsucc ▸ hs (by omega)
      result := fun h => absurd h hdone }

/-- Such a lane takes the step at its place and is such a lane again: each micro-operation provides what the next place
needs, and STORECT delivers the State of the last one (spec/43_cipher_pipeline.md R161). -/
theorem Lane.Encrypts.exists_laneExec {l : Lane} {key pt : Block} (h : l.Encrypts key pt) (hu : l.upc.toNat < 44) :
    ∃ l', laneExec (romInstr l.upc.toNat) l = .next l' ∧ l'.Encrypts key pt := by
  obtain h0 | h1 | h2 | ⟨h3, h42⟩ | h43 : l.upc.toNat = 0 ∨ l.upc.toNat = 1 ∨ l.upc.toNat = 2 ∨
      (3 ≤ l.upc.toNat ∧ l.upc.toNat ≤ 42) ∨ l.upc.toNat = 43 := by omega
  · refine ⟨l.advance, h0 ▸ laneExec_validate_of_good h.keyLength h.blockLength, ?_⟩
    exact h.advance (by omega) rfl (by omega) (by omega)
  · refine ⟨(l.writeRk (expandKey key)).advance, h1 ▸ laneExec_keyexpand_of_readKey h.holdsKey, ?_⟩
    exact h.advance (by omega) rfl (fun _ => ⟨rfl, rfl⟩) (by omega)
  · refine ⟨(l.writeS pt).advance, h2 ▸ laneExec_loadpt_of_readPt h.holdsPt, ?_⟩
    exact h.advance (by omega) rfl (fun _ => h.schedule (by omega)) fun _ => ⟨rfl, by rw [h2, stateAt_three]; rfl⟩
  · obtain ⟨hrkw, hrk⟩ := h.schedule (by omega)
    obtain ⟨hsw, hs⟩ := h.state h3 (by omega)
    refine ⟨_, laneExec_romInstr_stateAt h3 h42 ((readRk_of_written hrkw).trans hrk) ((readS_of_written hsw).trans hs), ?_⟩
    exact h.advance (by omega) rfl (fun _ => h.schedule (by omega)) fun _ => ⟨rfl, rfl⟩
  · obtain ⟨hsw, hs⟩ := h.state (by omega) (by omega)
    refine ⟨(l.writeOut l.readS).setUpc upcDone, by rw [h43]; rfl, ?_⟩
    exact
      { h with
        noOverrun := rfl
        place := Nat.le_refl 44
        validIffDone := iff_of_true rfl rfl
        schedule := fun _ => h.schedule (by omega)
        state := fun _ h => absurd h (by decide : ¬ upcDone.toNat ≤ 43)
        result := fun _ => by
          rw [setUpc_outCt, writeOut_outCt, readS_of_written hsw, hs, h43, stateAt_last] }

/-- A step of the agenda for such a lane: it is at the next place, and no other lane has changed. -/
theorem Lane.Encrypts.step {s : State} {i : Nat} {l : Lane} {key pt : Block} {rest : List Event}
    (h : l.Encrypts key pt) (hu : l.upc.toNat < 44) (hc : s.ctrl = .rom) (hl : s.lanes[i]? = some l)
    (hag : s.agenda = .lane i :: rest) :
    ∃ (t : State) (l' : Lane), step s = .next t ∧ t.lanes[i]? = some l' ∧ l'.Encrypts key pt ∧
      l'.upc.toNat = l.upc.toNat + 1 ∧ t.ctrl = .rom ∧ t.agenda = rest ∧ t.lanes.length = s.lanes.length ∧
      ∀ j : Nat, j ≠ i → t.lanes[j]? = s.lanes[j]? := by
  obtain ⟨l', he, hl'⟩ := h.exists_laneExec hu
  have hr : l.running .rom = true := by rw [running_rom h.noOverrun, decide_eq_true hu]
  refine ⟨{ s with agenda := rest, cur := i }.putLane i l', l', ?_, State.putLane_getElem?_self hl l', hl', ?_, hc, rfl,
    State.putLane_length _ _ _, fun j hj => State.putLane_getElem?_ne _ hj l'⟩
  · rw [step_of_lane hag, laneStep_rom (s := { s with agenda := rest }) hc hl, if_pos hr, he]
  · rw [((laneExec_next he).romInstr_successor h.noOverrun hu).2, if_neg fun hb => hb.2 ⟨h.keyLength, h.blockLength⟩,
      upc_succ_toNat hu]

/-- A run of the agenda's steps of such a lane, up to the end of the sequence. -/
theorem Lane.Encrypts.run {n : Nat} {s : State} {i : Nat} {l : Lane} {key pt : Block} {rest : List Event}
    (h : l.Encrypts key pt) (hn : l.upc.toNat + n ≤ 44) (hc : s.ctrl = .rom) (hl : s.lanes[i]? = some l)
    (hag : s.agenda = List.replicate n (.lane i) ++ rest) :
    ∃ (t : State) (l' : Lane), runFor n s = .next t ∧ t.lanes[i]? = some l' ∧ l'.Encrypts key pt ∧
      l'.upc.toNat = l.upc.toNat + n ∧ t.agenda = rest ∧ t.lanes.length = s.lanes.length ∧
      ∀ j : Nat, j ≠ i → t.lanes[j]? = s.lanes[j]? := by
  induction n generalizing s l with
  | zero => exact ⟨s, l, rfl, hl, h, rfl, hag, rfl, fun _ _ => rfl⟩
  | succ n ih =>
    obtain ⟨u, m, hstep, hm, hme, hmu, huc, hua, hulen, huother⟩ := h.step (by omega) hc hl hag
    obtain ⟨t, l', hrun, hl', he, hu, hta, hlen, hother⟩ := ih hme (by omega) huc hm hua
    exact ⟨t, l', (runFor_succ_of hstep n).trans hrun, hl', he, by omega, hta, hlen.trans hulen,
      fun j hj => (hother j hj).trans (huother j hj)⟩

/-- Settles O53: a started lane encrypts, and `n` of its steps take it to place `n`. -/
theorem laneEncryptsIn44Steps : Obligations.LaneEncryptsIn44Steps := by
  intro s i l key pt rest hc hl hu ho hv he hk hp hkey hpt hag
  have hzero : l.upc.toNat = 0 := by rw [hu]; rfl
  have hdone : l.upc ≠ upcDone := (upc_ne_of_lt (by omega)).1
  have h : l.Encrypts key pt :=
    ⟨hk, hp, hkey, hpt, ho, by omega, he, iff_of_false (by simp [hv]) hdone, by omega, by omega, fun h => absurd h hdone⟩
  constructor
  · obtain ⟨t, l', hrun, hl', hle, hlu, hta, hlen, hother⟩ := h.run (n := 44) (by omega) hc hl hag
    have h44 : l'.upc = upcDone := BitVec.eq_of_toNat_eq (hlu.trans (by rw [hzero]; rfl))
    exact ⟨t, l', hrun, hl', h44, hle.noOverrun, hle.validIffDone.2 h44, hle.noError, hle.result h44, hta, hlen, hother⟩
  · intro n hn
    have hcut : s.agenda = List.replicate n (.lane i) ++ (List.replicate (44 - n) (.lane i) ++ rest) := by
      rw [hag, ← List.append_assoc, List.replicate_append_replicate, Nat.add_sub_cancel' (Nat.le_of_lt hn)]
    obtain ⟨t, l', hrun, hl', hle, hlu, -⟩ := h.run (n := n) (by omega) hc hl hcut
    exact ⟨t, l', hrun, hl', by omega, hle.not_valid (by omega)⟩

end Sys2Proof.Machine
end

section
/-! PROOF. The batch invariant, lane by lane and event by event (spec/44_batch_driver.md R185, R186, R188). -/

namespace Sys2Proof.Machine

/-! ### A selected lane -/

/-- A lane of a pair of two good lengths encrypts the pair. -/
theorem Lane.runs_iff_encrypts {l : Lane} {key pt : List Byte} (hg : key.length = 16 ∧ pt.length = 16) :
    l.Runs key pt ↔ l.Encrypts (Block.ofBytes key) (Block.ofBytes pt) := by
  obtain ⟨hk, hp⟩ := hg
  have h16 : storedLength 16 = 16 := (storedLength_eq_16_iff 16).2 rfl
  simp only [Runs, HoldsPair, hk, hp, h16, and_self, if_true, forall_const]
  constructor
  · rintro ⟨⟨hkl, hpl, hkey, hpt⟩, ho, hu, he, hv, hrk, hs, hout⟩
    exact ⟨hkl, hpl, hkey, hpt, ho, hu, he, hv, hrk, hs, hout⟩
  · rintro ⟨hkl, hpl, hkey, hpt, ho, hu, he, hv, hrk, hs, hout⟩
    exact ⟨⟨hkl, hpl, hkey, hpt⟩, ho, hu, he, hv, hrk, hs, hout⟩

/-- The lengths that a slot holds are both 16 exactly when the pair's are (spec/44_batch_driver.md R183). -/
theorem Lane.HoldsPair.length_iff {l : Lane} {key pt : List Byte} (h : l.HoldsPair key pt) :
    (l.inKlen = 16 ↔ key.length = 16) ∧ (l.inPlen = 16 ↔ pt.length = 16) := by
  obtain ⟨hk, hp, -⟩ := h
  rw [hk, hp, storedLength_eq_16_iff, storedLength_eq_16_iff]
  exact ⟨.rfl, .rfl⟩

/-- A selected lane that has a step takes it and is such a lane again (spec/43_cipher_pipeline.md R161, R150). -/
theorem Lane.Runs.exists_laneExec {l : Lane} {key pt : List Byte} (h : l.Runs key pt) (hr : l.running .rom = true) :
    ∃ l', laneExec (romInstr l.upc.toNat) l = .next l' ∧ l'.Runs key pt := by
  obtain ⟨-, hu⟩ := place_of_running_rom hr
  by_cases hg : key.length = 16 ∧ pt.length = 16
  · rw [runs_iff_encrypts hg] at h
    obtain ⟨l', he, hl'⟩ := h.exists_laneExec hu
    exact ⟨l', he, (runs_iff_encrypts hg).2 hl'⟩
  · rw [Runs, if_neg hg] at h
    obtain ⟨hpair, -, hv, ⟨h0, -⟩ | ⟨h62, -⟩⟩ := h
    · obtain ⟨hk, hp⟩ := hpair.length_iff
      have hbad : ¬ (l.inKlen = 16 ∧ l.inPlen = 16) := by rwa [hk, hp]
      refine ⟨l.raise (lengthErrors l.inKlen l.inPlen), h0 ▸ laneExec_validate_of_bad hbad, ?_⟩
      rw [Runs, if_neg hg]
      refine ⟨hpair, rfl, hv, .inr ⟨rfl, ?_, ?_⟩⟩
      · rw [raise_err, lengthErrors_bit0, decide_eq_true_iff, ne_eq, hk]
      · rw [raise_err, lengthErrors_bit1, decide_eq_true_iff, ne_eq, hp]
    · exact absurd h62 (upc_ne_of_lt hu).2

/-! ### Operations that keep the batch invariant -/

section
variable {s : State} {pairs : List (List Byte × List Byte)}

/-- The invariant speaks of the lanes, the flags and the control store alone. -/
theorem State.Batch.congr {t : State} (h : s.Batch pairs) (hl : t.lanes = s.lanes) (hb : t.busy = s.busy)
    (hd : t.done = s.done) (he : t.berr = s.berr) (hc : t.ctrl = s.ctrl) : t.Batch pairs where
  store := hc ▸ h.store
  fits := hl ▸ h.fits
  noError := he ▸ h.noError
  flags := by rw [hl, hb, hd]; exact h.flags
  runs := hl ▸ h.runs
  unselected := hl ▸ h.unselected

/-- A lane that has a step was selected: it works on its pair. -/
theorem State.Batch.runs_of_running (h : s.Batch pairs) {i : Nat} {l : Lane} (hl : s.lanes[i]? = some l)
    (hr : l.running .rom = true) : ∃ key pt, pairs[i]? = some (key, pt) ∧ l.Runs key pt := by
  by_cases hi : i < pairs.length
  · obtain ⟨m, hm, hruns⟩ := h.runs i _ _ (List.getElem?_eq_getElem hi)
    obtain rfl : l = m := Option.some.inj (hl.symm.trans hm)
    exact ⟨_, _, List.getElem?_eq_getElem hi, hruns⟩
  · obtain ⟨-, hidle, -⟩ := h.unselected i l (Nat.le_of_not_lt hi) hl
    exact absurd (hidle ▸ (place_of_running_rom hr).2) (by decide)

/-- While a lane has a step the batch runs (spec/44_batch_driver.md R186). -/
theorem State.Batch.busy_of_running (h : s.Batch pairs) {i : Nat} {l : Lane} (hl : s.lanes[i]? = some l)
    (hr : l.running .rom = true) : s.busy = true ∧ s.done = false := by
  refine h.flags.resolve_right fun ⟨_, _, hset⟩ => ?_
  rw [Lane.running, fetch_of_settled (hset l (List.mem_of_getElem? hl))] at hr
  cases hr

/-- The lane of a pair replaced, while the batch runs. -/
theorem State.Batch.putLane (h : s.Batch pairs) (hb : s.busy = true ∧ s.done = false) {i : Nat} {key pt : List Byte}
    {l l' : Lane} (hp : pairs[i]? = some (key, pt)) (hl : s.lanes[i]? = some l) (hl' : l'.Runs key pt) :
    (s.putLane i l').Batch pairs where
  store := h.store
  fits := by rw [putLane_length]; exact h.fits
  noError := h.noError
  flags := .inl hb
  runs j k p hj := by
    by_cases hij : j = i
    · subst hij
      obtain ⟨rfl, rfl⟩ := Prod.mk.inj (Option.some.inj (hp.symm.trans hj))
      exact ⟨l', putLane_getElem?_self hl l', hl'⟩
    · rw [putLane_getElem?_ne s hij]
      exact h.runs j k p hj
  unselected j m hj hm := by
    have hi : i < pairs.length := (List.getElem?_eq_some_iff.1 hp).1
    rw [putLane_getElem?_ne s (by omega)] at hm
    exact h.unselected j m hj hm

/-- The step of a lane is taken and keeps the invariant (spec/43_cipher_pipeline.md R155). -/
theorem State.Batch.laneStep (h : s.Batch pairs) {i : Nat} (hi : i < s.lanes.length) :
    ∃ t, laneStep i s = .next t ∧ t.Batch pairs ∧ t.agenda = s.agenda := by
  have hl : s.lanes[i]? = some s.lanes[i] := List.getElem?_eq_getElem hi
  rw [laneStep_rom h.store hl]
  split
  · next hr =>
    obtain ⟨key, pt, hp, hruns⟩ := h.runs_of_running hl hr
    obtain ⟨l', he, hl'⟩ := hruns.exists_laneExec hr
    rw [he]
    exact ⟨_, rfl, (h.congr (t := { s with cur := i }) rfl rfl rfl rfl rfl).putLane (h.busy_of_running hl hr) hp hl hl',
      rfl⟩
  · exact ⟨s, rfl, h, rfl⟩

/-- The completion step, where it is enabled, ends the batch with every lane settled (spec/44_batch_driver.md R186). -/
theorem State.Batch.completeStep (h : s.Batch pairs) :
    ∃ t, completeStep s = .next t ∧ t.Batch pairs ∧ t.agenda = s.agenda := by
  refine ⟨_, rfl, ?_⟩
  split
  · next hc =>
    simp only [canComplete, Bool.and_eq_true, List.all_eq_true] at hc
    exact ⟨{ h with flags := .inr ⟨rfl, rfl, hc.2⟩ }, rfl⟩
  · exact ⟨h, rfl⟩

/-- The engine's own move is a lane's step or the completion step (spec/44_batch_driver.md R185). -/
theorem State.Batch.engineMove (h : s.Batch pairs) :
    ∃ t, engineMove s = .next t ∧ t.Batch pairs ∧ t.agenda = s.agenda := by
  obtain ⟨i, l, c, hl, -, he⟩ | ⟨-, he⟩ := engineMove_cases s
  · rw [he]
    exact (h.congr (t := { s with choices := c }) rfl rfl rfl rfl rfl).laneStep (List.getElem?_eq_some_iff.1 hl).1
  · rw [he]
    exact h.completeStep

/-- What a host that keeps its obligations does while a batch runs is a read, which is answered
(spec/70_reset_and_hazards.md R233, R235). -/
theorem hostAct_of_quiet {a : HostAction} (hq : Event.quiet s.lanes.length (.host a) = true) :
    ∃ r, hostAct a s = .next (s.answer r) := by
  cases a with
  | readLane i =>
    have hi : i < s.lanes.length := of_decide_eq_true hq
    exact ⟨_, by simp only [hostAct, hostReadLane, List.getElem?_eq_getElem hi]; rfl⟩
  | readStatus => exact ⟨_, rfl⟩
  | readN => exact ⟨_, rfl⟩
  | readCount => exact ⟨_, rfl⟩
  | _ => cases hq

/-- Every event that keeps the host's obligations happens and keeps the invariant. -/
theorem State.Batch.perform (h : s.Batch pairs) {e : Event} (hq : e.quiet s.lanes.length = true) :
    ∃ t, perform e s = .next t ∧ t.Batch pairs ∧ t.agenda = s.agenda := by
  cases e with
  | host a =>
    obtain ⟨r, hr⟩ := hostAct_of_quiet hq
    exact ⟨_, hr, h.congr rfl rfl rfl rfl rfl, rfl⟩
  | lane i => exact h.laneStep (of_decide_eq_true hq)
  | complete => exact h.completeStep
  | engine => exact h.engineMove

end

/-- Settles O59: the step is the event at the agenda's head, on the state without it, or the engine's own move. -/
theorem stepKeepsTheBatchInvariant : Obligations.StepKeepsTheBatchInvariant := by
  intro s pairs h hq
  cases hag : s.agenda with
  | nil =>
    rw [step_of_empty_agenda hag, List.tail_nil, ← hag]
    exact h.engineMove
  | cons e rest =>
    rw [step_of_agenda hag]
    exact (h.congr (t := { s with agenda := rest }) rfl rfl rfl rfl rfl).perform (hq e (by rw [hag]; rfl))

end Sys2Proof.Machine
end

section
/-! PROOF. The batch driver and the host: START, the completion step, host reads and slot writes, and the engine's own move
(spec/44_batch_driver.md R183 to R187, R196). -/

namespace Sys2Proof.Machine

/-! ### The engine's own move -/

/-- Settles O11: the engine's own move is the step of a lane that has one, unless no lane has. -/
theorem engineMoveStepsSomeRunningLane : Obligations.EngineMoveStepsSomeRunningLane := by
  intro s hag ⟨l, hl, hr⟩
  rw [step_of_empty_agenda hag]
  obtain ⟨i, m, c, hm, hmr, he⟩ | ⟨hnone, -⟩ := engineMove_cases s
  · exact ⟨i, m, c, hm, hmr, he⟩
  · rw [State.fetch, not_running_iff.1 (hnone l hl)] at hr
    cases hr

/-! ### The completion step -/

/-- A lane that the completion step waits for. -/
theorem Lane.settled_eq_false_iff (l : Lane) :
    l.settled = false ↔ l.overrun ≠ none ∨ l.upc ≠ 44 ∧ l.upc ≠ 62 ∧ l.upc ≠ 63 := by
  rw [← Bool.not_eq_true, l.settled_iff, not_and_or, not_or, not_or]
  rfl

/-- The completion step is enabled in a busy engine with every lane settled (spec/44_batch_driver.md R186). -/
theorem State.canComplete_iff (s : State) : s.canComplete = true ↔ s.busy = true ∧ ∀ l ∈ s.lanes, l.settled = true := by
  rw [canComplete, Bool.and_eq_true, List.all_eq_true]

/-- It is not enabled exactly in an engine that is not busy or has a lane to wait for. -/
theorem State.canComplete_eq_false_iff (s : State) :
    s.canComplete = false ↔
      s.busy = false ∨ ∃ l ∈ s.lanes, l.overrun ≠ none ∨ l.upc ≠ 44 ∧ l.upc ≠ 62 ∧ l.upc ≠ 63 := by
  simp only [← Lane.settled_eq_false_iff, canComplete, Bool.and_eq_false_iff, List.all_eq_false, Bool.not_eq_true]

/-- The completion step where it is enabled. -/
theorem completeStep_of_canComplete {s : State} (h : s.canComplete = true) : completeStep s = .next s.completeBatch := by
  rw [completeStep, if_pos h]

/-- The completion step where it is not enabled changes nothing (log 4). -/
theorem completeStep_of_not_canComplete {s : State} (h : s.canComplete = false) : completeStep s = .next s := by
  rw [completeStep, h]
  rfl

/-- Settles O33: the step is the completion step, which is enabled in the first case and not in the second. -/
theorem completionStepJoinsTheLanes : Obligations.CompletionStepJoinsTheLanes := by
  intro s rest hag
  rw [step_of_agenda hag]
  refine ⟨fun hb hset => ?_, fun h => ?_⟩
  · exact completeStep_of_canComplete (s := { s with agenda := rest })
      ((State.canComplete_iff _).2 ⟨hb, fun l hl => l.settled_iff.2 (hset l hl)⟩)
  · exact completeStep_of_not_canComplete (s := { s with agenda := rest }) ((State.canComplete_eq_false_iff _).2 h)

/-- Settles O10: with no lane's step the engine's own move is the completion step, which is not enabled. -/
theorem quietEngineStandsStill : Obligations.QuietEngineStandsStill := by
  intro s hag hnone hwait
  rw [step_of_empty_agenda hag]
  obtain ⟨i, l, c, hl, hr, -⟩ | ⟨-, he⟩ := engineMove_cases s
  · rw [not_running_iff.2 (hnone l (List.mem_of_getElem? hl))] at hr
    cases hr
  · rw [he, completeStep_of_not_canComplete (s.canComplete_eq_false_iff.2 hwait)]

/-! ### Host reads -/

/-- A read of a lane that is there is answered (spec/44_batch_driver.md R187). -/
theorem hostReadLane_of {s : State} {i : Nat} {l : Lane} (hl : s.lanes[i]? = some l) :
    hostReadLane i s = .next (s.answer (laneReply s i l)) := by
  simp only [hostReadLane, hl]

/-- Settles O35: each read adds its answer to the replies; for a lane that is `laneReply`, by `DONE` and `OUT_VALID`. -/
theorem hostReadsChangeNothing : Obligations.HostReadsChangeNothing := by
  intro s rest
  refine ⟨step_of_agenda, step_of_agenda, step_of_agenda, fun i l hag hl => ?_⟩
  have hread : step s = .next { s with agenda := rest, replies := s.replies ++ [laneReply s i l] } :=
    (step_of_agenda hag).trans (hostReadLane_of (s := { s with agenda := rest }) hl)
  refine ⟨fun hd hv => ?_, fun hd hv => ?_, fun hd => ?_⟩
  · rw [hread, laneReply, if_pos hd, if_pos hv]
  · rw [hread, laneReply, if_pos hd, if_neg (by simp [hv])]
  · rw [hread, laneReply, if_neg (by simp [hd])]

/-! ### SetCount and START -/

/-- START in an idle engine (spec/44_batch_driver.md R184). -/
theorem hostStart_of_idle {s : State} (h : s.busy = false) : hostStart s = .next s.startBatch := by
  simp [hostStart, h]

/-- The step that takes START from the agenda of an idle engine. -/
theorem step_of_start {s : State} {rest : List Event} (hag : s.agenda = .host .start :: rest) (hb : s.busy = false) :
    step s = .next ({ s with agenda := rest }).startBatch :=
  (step_of_agenda hag).trans (hostStart_of_idle (s := { s with agenda := rest }) hb)

/-- START with `COUNT` above `N` raises `LaneCountMismatch` (spec/60_exceptions.md R206). -/
theorem State.startBatch_of_gt {s : State} (h : s.lanes.length < s.count.toNat) :
    s.startBatch = s.raiseLaneCountMismatch :=
  if_pos h

/-- The flags after a START with `COUNT` at most `N` (spec/44_batch_driver.md R184). -/
theorem State.startBatch_flags_of_le {s : State} (h : s.count.toNat ≤ s.lanes.length) :
    s.startBatch.berr = false ∧ s.startBatch.done = decide (s.count.toNat = 0) ∧
      s.startBatch.busy = decide (s.count.toNat ≠ 0) := by
  obtain ⟨hgt, -⟩ | ⟨-, -, hflags⟩ := s.startBatch_cases
  · exact absurd h (Nat.not_le.2 hgt)
  · exact hflags

/-- The lanes after a START with `COUNT` at most `N` (spec/44_batch_driver.md R184). -/
theorem State.startBatch_getElem?_of_le {s : State} (h : s.count.toNat ≤ s.lanes.length) {i : Nat} {l : Lane}
    (hl : s.lanes[i]? = some l) :
    s.startBatch.lanes[i]? = some (l.restart (if i < s.count.toNat then upcStart else upcIdle)) := by
  obtain ⟨hgt, -⟩ | ⟨-, hlanes, -⟩ := s.startBatch_cases
  · exact absurd h (Nat.not_le.2 hgt)
  · rw [hlanes, startLanes_getElem?, hl]
    rfl

/-- Settles O32: START by the two outcomes of comparing `COUNT` with `N`, the flags of the second by whether `COUNT` is
0. -/
theorem setCountAndStart : Obligations.SetCountAndStart := by
  refine fun s rest => ⟨fun m hag => ⟨fun hb => ?_, fun hb => ?_⟩, fun hag => ⟨fun hb => ?_, fun hb => ?_⟩⟩
  · simp [step_of_agenda hag, perform, hostAct, hostSetCount, hb]
  · simp [step_of_agenda hag, perform, hostAct, hostSetCount, hb]
  · simp [step_of_agenda hag, perform, hostAct, hostStart, hb]
  · refine ⟨_, step_of_start hag hb, State.startBatch_length _, State.startBatch_count _, State.startBatch_ctrl _,
      State.startBatch_agenda _, State.startBatch_cur _, State.startBatch_choices _, State.startBatch_replies _,
      fun hgt => ?_, fun hle => ?_⟩
    · rw [State.startBatch_of_gt (s := { s with agenda := rest }) hgt]
      refine ⟨rfl, rfl, rfl, fun i l hl => ?_⟩
      rw [State.raiseLaneCountMismatch_lanes, List.getElem?_map, hl]
      rfl
    · obtain ⟨he, hd, hbu⟩ := State.startBatch_flags_of_le (s := { s with agenda := rest }) hle
      have hzero : s.count = 0 ↔ s.count.toNat = 0 := BitVec.toNat_inj.symm
      rw [hd, hbu, decide_eq_true_iff, decide_eq_true_iff, decide_eq_false_iff_not, decide_eq_false_iff_not]
      exact ⟨he, fun i l hl => State.startBatch_getElem?_of_le (s := { s with agenda := rest }) hle hl,
        fun h0 => ⟨hzero.1 h0, not_not_intro (hzero.1 h0)⟩, fun h0 => ⟨mt hzero.2 h0, mt hzero.2 h0⟩⟩

end Sys2Proof.Machine
end

section
/-! PROOF. `LoadPair` and the single writes of an input slot (spec/44_batch_driver.md R183). -/

namespace Sys2Proof

/-! ### Entries written one at a time -/

/-- The first 16 entries of a list, each with its index. -/
def slotEntries {α : Type} (xs : List α) : List (Fin 16 × α) :=
  (List.finRange 16).filterMap fun k => (xs[k.val]?).map (Prod.mk k)

/-- A grid with the given entries written one after the other. -/
def Grid.putEntries {α : Type} (g : Grid α) (es : List (Fin 16 × α)) : Grid α :=
  es.foldl (fun g e => g.put e.1 e.2) g

/-- Entry `j` after the entries of a list have been written at the indices `ks`, in their order. -/
theorem Grid.get_putEntries {α : Type} (g : Grid α) (xs : List α) (ks : List (Fin 16)) (j : Fin 16) :
    (g.putEntries (ks.filterMap fun k => (xs[k.val]?).map (Prod.mk k))).get j =
      if j ∈ ks then (xs[j.val]?).getD (g.get j) else g.get j := by
  induction ks generalizing g with
  | nil => rfl
  | cons k ks ih =>
    cases hx : xs[k.val]? with
    | none =>
      rw [List.filterMap_cons_none (by simp [hx]), ih]
      by_cases hjk : j = k
      · subst hjk; simp [hx]
      · simp [hjk]
    | some v =>
      rw [List.filterMap_cons_some (by rw [hx]; rfl)]
      show ((g.put k v).putEntries _).get j = _
      rw [ih, Grid.get_put]
      by_cases hjk : j = k
      · subst hjk; simp [hx]
      · simp [hjk]

/-- Written at every index, the entries of a list lie over those of the grid. -/
theorem Grid.putEntries_slotEntries {α : Type} (g : Grid α) (xs : List α) : g.putEntries (slotEntries xs) = g.overlay xs :=
  Grid.ext_get fun j => by rw [slotEntries, get_putEntries, if_pos (List.mem_finRange j), get_overlay]

/-- The entries of a mapped list. -/
theorem slotEntries_map {α β : Type} (f : α → β) (xs : List α) :
    slotEntries (xs.map f) = (slotEntries xs).map fun e => (e.1, f e.2) := by
  simp only [slotEntries, List.map_filterMap, List.getElem?_map, Option.map_map]
  rfl

/-- The marks of the entries of a list lie over those of the grid. -/
theorem Grid.putEntries_marks {α : Type} (w : Grid Bool) (xs : List α) :
    w.putEntries ((slotEntries xs).map fun e => (e.1, true)) = w.overlay (xs.map fun _ => true) := by
  rw [← putEntries_slotEntries, slotEntries_map (fun _ => true) xs]

end Sys2Proof

namespace Sys2Proof.Machine

/-! ### Host writes of one slot -/

/-- What a host write of an input slot makes of the slot's lane (spec/44_batch_driver.md R183). -/
def HostAction.slotEffect : HostAction → Lane → Lane
  | .loadPair _ key pt, l => (l.loadKey key).loadPt pt
  | .writeKeyLength _ n, l => { l with inKlen := storedLength n }
  | .writeKeyByte _ k v, l => l.putKeyByte k v
  | .writeBlockLength _ n, l => { l with inPlen := storedLength n }
  | .writeBlockByte _ k v, l => l.putPtByte k v
  | _, l => l

/-- The lane after host writes of its slot, done one after the other. -/
def Lane.afterWrites (l : Lane) (as : List HostAction) : Lane := as.foldl (fun l a => a.slotEffect l) l

/-- The action is a host write of input slot `i`. -/
def HostAction.WritesSlot (i : Nat) (a : HostAction) : Prop :=
  ∀ s : State, hostAct a s = hostWriteLane s i a.slotEffect

/-- A write of a slot in an idle engine (spec/44_batch_driver.md R183). -/
theorem hostWriteLane_of {s : State} {i : Nat} {l : Lane} (hb : s.busy = false) (hl : s.lanes[i]? = some l)
    (f : Lane → Lane) : hostWriteLane s i f = .next (s.putLane i (f l)) := by
  simp [hostWriteLane, hb, hl]

/-- The step that takes a write of a slot from the agenda of an idle engine. -/
theorem step_of_slotWrite {s : State} {a : HostAction} {i : Nat} {l : Lane} {rest : List Event} (ha : a.WritesSlot i)
    (hag : s.agenda = .host a :: rest) (hb : s.busy = false) (hl : s.lanes[i]? = some l) :
    step s = .next ({ s with agenda := rest }.putLane i (a.slotEffect l)) := by
  rw [step_of_agenda hag]
  exact (ha _).trans (hostWriteLane_of (s := { s with agenda := rest }) hb hl _)

/-- A write of a slot in a busy engine (log 11). -/
theorem hostWriteLane_of_busy {s : State} (hb : s.busy = true) (i : Nat) (f : Lane → Lane) :
    hostWriteLane s i f = .refused .hostWriteWhileBusy :=
  if_pos hb

theorem State.putLane_self {s : State} {i : Nat} {l : Lane} (hl : s.lanes[i]? = some l) : s.putLane i l = s := by
  obtain ⟨hi, rfl⟩ := List.getElem?_eq_some_iff.1 hl
  simp [putLane]

theorem State.putLane_putLane (s : State) (i : Nat) (l m : Lane) : (s.putLane i l).putLane i m = s.putLane i m := by
  simp [putLane]

/-- A run of the agenda's writes of one slot of an idle engine. -/
theorem runFor_slotWrites {i : Nat} {as : List HostAction} (has : ∀ a ∈ as, a.WritesSlot i) {s : State} {l : Lane}
    {rest : List Event} (hag : s.agenda = as.map .host ++ rest) (hb : s.busy = false) (hl : s.lanes[i]? = some l) :
    runFor as.length s = .next ({ s with agenda := rest }.putLane i (l.afterWrites as)) := by
  induction as generalizing s l with
  | nil =>
    obtain rfl : s.agenda = rest := hag
    exact congrArg Host.Outcome.next (State.putLane_self hl).symm
  | cons a as ih =>
    rw [List.length_cons, runFor_succ_of (step_of_slotWrite (has a List.mem_cons_self) hag hb hl)]
    refine (ih (s := ({ s with agenda := as.map .host ++ rest } : State).putLane i (a.slotEffect l))
      (fun b hb => has b (List.mem_cons_of_mem a hb)) rfl hb (State.putLane_getElem?_self hl _)).trans ?_
    exact congrArg Host.Outcome.next (State.putLane_putLane { s with agenda := rest } i _ _)

/-! ### The single writes of a slot -/

/-- The writes of a slot are the key's length and bytes and then the plaintext's. -/
theorem slotWrites_eq (i : Nat) (key pt : List Byte) :
    slotWrites i key pt =
      (.writeKeyLength i key.length :: (slotEntries key).map fun e => .writeKeyByte i e.1 e.2) ++
      (.writeBlockLength i pt.length :: (slotEntries pt).map fun e => .writeBlockByte i e.1 e.2) := by
  simp [slotWrites, slotEntries, List.map_filterMap, Function.comp_def]

theorem slotWrites_writesSlot (i : Nat) (key pt : List Byte) : ∀ a ∈ slotWrites i key pt, a.WritesSlot i := by
  intro a ha
  rw [slotWrites_eq, List.mem_append, List.mem_cons, List.mem_cons, List.mem_map, List.mem_map] at ha
  obtain (rfl | ⟨e, -, rfl⟩) | (rfl | ⟨e, -, rfl⟩) := ha <;> exact fun s => rfl

theorem Lane.afterWrites_append (l : Lane) (as bs : List HostAction) :
    l.afterWrites (as ++ bs) = (l.afterWrites as).afterWrites bs :=
  List.foldl_append

theorem Lane.afterWrites_keyBytes (l : Lane) (i : Nat) (es : List (Fin 16 × Byte)) :
    l.afterWrites (es.map fun e => .writeKeyByte i e.1 e.2) =
      { l with inKey := l.inKey.putEntries es
               inKeyWritten := l.inKeyWritten.putEntries (es.map fun e => (e.1, true)) } := by
  induction es generalizing l with
  | nil => rfl
  | cons e es ih => exact ih (l.putKeyByte e.1 e.2)

theorem Lane.afterWrites_blockBytes (l : Lane) (i : Nat) (es : List (Fin 16 × Byte)) :
    l.afterWrites (es.map fun e => .writeBlockByte i e.1 e.2) =
      { l with inPt := l.inPt.putEntries es
               inPtWritten := l.inPtWritten.putEntries (es.map fun e => (e.1, true)) } := by
  induction es generalizing l with
  | nil => rfl
  | cons e es ih => exact ih (l.putPtByte e.1 e.2)

/-- The writes of a key's length and bytes are the key half of `LoadPair`. -/
theorem Lane.afterWrites_key (l : Lane) (i : Nat) (key : List Byte) :
    l.afterWrites (.writeKeyLength i key.length :: (slotEntries key).map fun e => .writeKeyByte i e.1 e.2) =
      l.loadKey key := by
  refine (afterWrites_keyBytes { l with inKlen := storedLength key.length } i (slotEntries key)).trans ?_
  rw [Grid.putEntries_slotEntries, Grid.putEntries_marks]
  rfl

/-- The writes of a plaintext's length and bytes are the plaintext half of `LoadPair`. -/
theorem Lane.afterWrites_block (l : Lane) (i : Nat) (pt : List Byte) :
    l.afterWrites (.writeBlockLength i pt.length :: (slotEntries pt).map fun e => .writeBlockByte i e.1 e.2) =
      l.loadPt pt := by
  refine (afterWrites_blockBytes { l with inPlen := storedLength pt.length } i (slotEntries pt)).trans ?_
  rw [Grid.putEntries_slotEntries, Grid.putEntries_marks]
  rfl

/-- The single writes make of the lane what `LoadPair` makes of it (spec/44_batch_driver.md R183). -/
theorem Lane.afterWrites_slotWrites (l : Lane) (i : Nat) (key pt : List Byte) :
    l.afterWrites (slotWrites i key pt) = (l.loadKey key).loadPt pt := by
  rw [slotWrites_eq, afterWrites_append, afterWrites_key, afterWrites_block]

/-! ### `LoadPair` -/

theorem toNat_storedLength (n : Nat) : (storedLength n).toNat = min n 255 := by
  simp only [storedLength, BitVec.toNat_ofNat]
  omega

/-- A string laid over a register and its marks: the bytes of the string are there and marked, the others are kept
(spec/44_batch_driver.md R183). -/
theorem overlay_bytes (g : Block) (w : Grid Bool) (xs : List Byte) :
    (∀ k : Fin 16, ∀ h : k.val < xs.length,
      (g.overlay xs).get k = xs[k.val] ∧ (w.overlay (xs.map fun _ => true)).get k = true) ∧
    ∀ k : Fin 16, xs.length ≤ k.val →
      (g.overlay xs).get k = g.get k ∧ (w.overlay (xs.map fun _ => true)).get k = w.get k := by
  constructor
  · intro k h
    simp [h]
  · intro k h
    simp [h]

/-- Settles O34: `LoadPair` is a write of one slot, and so is each single write; their effects on the lane compose to its
own. -/
theorem loadPairStoresTheSlot : Obligations.LoadPairStoresTheSlot := by
  refine ⟨fun s i key pt rest l hag hl => ⟨fun hb => ?_, fun hb => ?_⟩, fun s i key pt rest hb hi => ?_⟩
  · rw [step_of_agenda hag]
    exact hostWriteLane_of_busy (s := { s with agenda := rest }) hb i _
  · obtain ⟨hkey, hkeyKept⟩ := overlay_bytes l.inKey l.inKeyWritten key
    obtain ⟨hpt, hptKept⟩ := overlay_bytes l.inPt l.inPtWritten pt
    refine ⟨(l.loadKey key).loadPt pt, ?_, rfl, toNat_storedLength _, toNat_storedLength _, hkey, hkeyKept, hpt, hptKept⟩
    exact step_of_slotWrite (fun _ => rfl) hag hb hl
  · have hl : s.lanes[i]? = some s.lanes[i] := List.getElem?_eq_getElem hi
    have hload : ∀ a ∈ [HostAction.loadPair i key pt], a.WritesSlot i := by
      intro a ha
      rw [List.mem_singleton.1 ha]
      exact fun s => rfl
    refine ⟨_, runFor_slotWrites (s := { s with agenda := _ }) hload rfl hb hl, ?_⟩
    rw [runFor_slotWrites (s := { s with agenda := _ }) (slotWrites_writesSlot i key pt) rfl hb hl,
      Lane.afterWrites_slotWrites]
    rfl

end Sys2Proof.Machine
end

section
/-! PROOF. A batch from its START to its results, and that it ends (spec/44_batch_driver.md R184, R185, R188). -/

namespace Sys2Proof.Machine

/-! ### The batch invariant begins and ends -/

/-- A loaded lane that START selects begins its pair. -/
theorem Lane.HoldsPair.runs_restart {l : Lane} {key pt : List Byte} (h : l.HoldsPair key pt) :
    (l.restart upcStart).Runs key pt := by
  refine ⟨h, rfl, ?_⟩
  split
  · exact ⟨Nat.zero_le 44, rfl, iff_of_false nofun (by decide : upcStart ≠ upcDone), nofun, nofun, nofun⟩
  · exact ⟨rfl, .inl ⟨rfl, rfl⟩⟩

/-- START on loaded pairs begins the batch invariant (spec/44_batch_driver.md R184). -/
theorem State.Loaded.batch_startBatch {s : State} {pairs : List (List Byte × List Byte)} (h : s.Loaded pairs)
    (hc : s.ctrl = .rom) : s.startBatch.Batch pairs := by
  obtain ⟨hcount, hfits, hslots⟩ := h
  have hle : s.count.toNat ≤ s.lanes.length := hcount ▸ hfits
  obtain ⟨he, hd, hb⟩ := startBatch_flags_of_le hle
  refine
    { store := s.startBatch_ctrl.trans hc
      fits := s.startBatch_length ▸ hfits
      noError := he
      flags := ?_
      runs := fun i key pt hp => ?_
      unselected := fun i m hi hm => ?_ }
  · rw [hb, hd, decide_eq_true_iff, decide_eq_true_iff, decide_eq_false_iff_not, decide_eq_false_iff_not]
    by_cases h0 : s.count.toNat = 0
    · refine .inr ⟨not_not_intro h0, h0, fun m hm => ?_⟩
      obtain ⟨l, v, rfl, ⟨-, hbusy⟩ | rfl⟩ := mem_startBatch hm
      · rw [hb, decide_eq_true_iff] at hbusy
        exact absurd h0 hbusy
      · rfl
    · exact .inl ⟨h0, h0⟩
  · obtain ⟨l, hl, hpair⟩ := hslots i key pt hp
    have hi : i < s.count.toNat := hcount ▸ (List.getElem?_eq_some_iff.1 hp).1
    refine ⟨l.restart upcStart, ?_, hpair.runs_restart⟩
    rw [startBatch_getElem?_of_le hle hl, if_pos hi]
  · have hi' : i < s.lanes.length := s.startBatch_length ▸ (List.getElem?_eq_some_iff.1 hm).1
    rw [startBatch_getElem?_of_le hle (List.getElem?_eq_getElem hi'), if_neg (by omega), Option.some.injEq] at hm
    subst hm
    exact ⟨rfl, rfl, rfl, rfl⟩

/-- A settled lane that works on a pair shows its result (spec/44_batch_driver.md R188). -/
theorem Lane.Runs.hasResult {l : Lane} {key pt : List Byte} (h : l.Runs key pt) (hs : l.settled = true) :
    l.HasResult key pt := by
  obtain ⟨-, hplace⟩ := l.settled_iff.1 hs
  unfold HasResult
  by_cases hg : key.length = 16 ∧ pt.length = 16
  · rw [if_pos hg]
    rw [runs_iff_encrypts hg] at h
    have hdone : l.upc = upcDone := by
      obtain hu | hu | hu := hplace
      · exact hu
      · exact absurd (hu ▸ h.place) (by decide)
      · exact absurd (hu ▸ h.place) (by decide)
    exact ⟨h.validIffDone.2 hdone, h.noError, h.result hdone⟩
  · rw [if_neg hg]
    rw [Runs, if_neg hg] at h
    obtain ⟨-, -, hv, ⟨h0, -⟩ | ⟨-, herr⟩⟩ := h
    · rw [h0] at hplace
      exact absurd hplace (by decide)
    · exact ⟨hv, herr⟩

/-- At `DONE` the batch invariant gives the results of the batch (spec/44_batch_driver.md R188). -/
theorem State.Batch.hasResults {s : State} {pairs : List (List Byte × List Byte)} (h : s.Batch pairs)
    (hd : s.done = true) : s.HasResults pairs := by
  obtain ⟨-, hnd⟩ | ⟨hb, -, hset⟩ := h.flags
  · simp [hd] at hnd
  · refine ⟨h.noError, hb, fun i key pt hp => ?_, fun i l hi hl => ?_⟩
    · obtain ⟨l, hl, hruns⟩ := h.runs i key pt hp
      exact ⟨l, hl, hruns.hasResult (hset l (List.mem_of_getElem? hl))⟩
    · obtain ⟨-, -, hv, he⟩ := h.unselected i l hi hl
      exact ⟨hv, he⟩

/-- Settles O60: START begins the invariant, and a done engine that meets it has every lane settled with its result. -/
theorem batchInvariantBeginsAndEnds : Obligations.BatchInvariantBeginsAndEnds := by
  refine ⟨fun s pairs rest hc hb hload hag => ?_, fun s pairs h hd => h.hasResults hd⟩
  exact ⟨_, step_of_start hag hb, State.Loaded.batch_startBatch (s := { s with agenda := rest }) hload hc,
    State.startBatch_agenda _⟩

/-! ### Every step of a batch is taken -/

/-- A run of any length from the batch invariant is taken and keeps it, as long as the agenda keeps the host's
obligations. -/
theorem State.Batch.run {s : State} {pairs : List (List Byte × List Byte)} (h : s.Batch pairs)
    (hq : ∀ e ∈ s.agenda, e.quiet s.lanes.length = true) (n : Nat) :
    ∃ t : State, runFor n s = .next t ∧ t.Batch pairs ∧ t.agenda = s.agenda.drop n := by
  induction n generalizing s with
  | zero => exact ⟨s, rfl, h, rfl⟩
  | succ n ih =>
    obtain ⟨u, hstep, hu, hua⟩ := stepKeepsTheBatchInvariant s pairs h fun e he => hq e (List.mem_of_head? he)
    have hlen : u.lanes.length = s.lanes.length := laneCountNeverChanges.1 s u hstep
    obtain ⟨t, hrun, ht, hta⟩ := ih hu fun e he => hlen ▸ hq e (List.mem_of_mem_tail (hua ▸ he))
    exact ⟨t, (runFor_succ_of hstep n).trans hrun, ht, by rw [hta, hua, List.drop_tail]⟩

/-- A run of a batch from before its START: after at least one step the batch invariant holds. -/
theorem State.Loaded.run {s : State} {pairs : List (List Byte × List Byte)} {sched : List Event} (h : s.Loaded pairs)
    (hc : s.ctrl = .rom) (hb : s.busy = false) (hq : ∀ e ∈ sched, Event.quiet s.lanes.length e = true)
    (hag : s.agenda = .host .start :: sched) (n : Nat) :
    ∃ t : State, runFor (n + 1) s = .next t ∧ t.Batch pairs ∧ t.agenda = sched.drop n := by
  obtain ⟨u, hstep, hu, hua⟩ := batchInvariantBeginsAndEnds.1 s pairs sched hc hb h hag
  have hlen : u.lanes.length = s.lanes.length := laneCountNeverChanges.1 s u hstep
  obtain ⟨t, hrun, ht, hta⟩ := hu.run (fun e he => hlen ▸ hq e (hua ▸ he)) n
  exact ⟨t, (runFor_succ_of hstep n).trans hrun, ht, hua ▸ hta⟩

/-- Settles O56: every state of the run after START meets the batch invariant, which gives the results at `DONE`. -/
theorem batchResultsUnderEverySchedule : Obligations.BatchResultsUnderEverySchedule := by
  intro s t pairs sched n hc hb hload hq hag hn hrun hd
  obtain ⟨u, hu, hbatch, -⟩ := hload.run hc hb hq hag (n - 1)
  rw [Nat.sub_add_cancel hn] at hu
  obtain rfl : t = u := Host.Outcome.next.inj (hrun.symm.trans hu)
  exact hbatch.hasResults hd

/-! ### Every batch ends -/

/-- The steps that a lane at `UPC` may still take before it is settled: none from 44 on. -/
def Lane.stepsLeft (l : Lane) : Nat := 44 - l.upc.toNat

/-- The steps that the lanes of `n` pairs may still take. -/
def State.stepsLeft (s : State) (n : Nat) : Nat := ∑ i ∈ Finset.range n, (s.lanes[i]?).elim 0 Lane.stepsLeft

/-- At most 44 for each pair (spec/43_cipher_pipeline.md R161). -/
theorem State.stepsLeft_le (s : State) (n : Nat) : s.stepsLeft n ≤ 44 * n := by
  have hone : ∀ i ∈ Finset.range n, (s.lanes[i]?).elim 0 Lane.stepsLeft ≤ 44 := by
    intro i _
    cases s.lanes[i]? with
    | none => exact Nat.zero_le _
    | some l => exact Nat.sub_le _ _
  have := Finset.sum_le_card_nsmul _ _ _ hone
  rwa [Finset.card_range, smul_eq_mul, Nat.mul_comm] at this

/-- A step that a lane takes from the hardware's control store leaves it fewer (spec/43_cipher_pipeline.md R156). -/
theorem LaneEffect.stepsLeft_lt {l l' : Lane} (ho : l.overrun = none) (hu : l.upc.toNat < 44)
    (h : LaneEffect l l' (romInstr l.upc.toNat)) : l'.stepsLeft < l.stepsLeft := by
  have hupc := (h.romInstr_successor ho hu).2
  unfold Lane.stepsLeft
  split at hupc
  · have : upcFaulted.toNat = 62 := rfl
    rw [hupc]
    omega
  · rw [hupc, upc_succ_toNat hu]
    omega

/-- A lane replaced by one with fewer steps left. -/
theorem State.stepsLeft_putLane_lt {s : State} {i n : Nat} {l l' : Lane} (hi : i < n) (hl : s.lanes[i]? = some l)
    (h : l'.stepsLeft < l.stepsLeft) : (s.putLane i l').stepsLeft n < s.stepsLeft n := by
  have hself : ((s.putLane i l').lanes[i]?).elim 0 Lane.stepsLeft < (s.lanes[i]?).elim 0 Lane.stepsLeft := by
    rw [putLane_getElem?_self hl, hl]
    exact h
  refine Finset.sum_lt_sum (fun j _ => ?_) ⟨i, Finset.mem_range.2 hi, hself⟩
  by_cases hij : j = i
  · rw [hij]
    exact hself.le
  · rw [putLane_getElem?_ne s hij]

/-- The step of a lane that has one leaves fewer. -/
theorem State.Batch.laneStep_stepsLeft_lt {s t : State} {pairs : List (List Byte × List Byte)} (h : s.Batch pairs)
    {i : Nat} {l : Lane} (hl : s.lanes[i]? = some l) (hr : l.running .rom = true) (ht : Machine.laneStep i s = .next t) :
    t.stepsLeft pairs.length < s.stepsLeft pairs.length := by
  obtain ⟨key, pt, hp, -⟩ := h.runs_of_running hl hr
  obtain ⟨m, hm, ⟨hnr, -⟩ | ⟨l', -, he, rfl⟩⟩ := laneStep_rom_next h.store ht
  · obtain rfl : l = m := Option.some.inj (hl.symm.trans hm)
    simp [hr] at hnr
  · obtain rfl : l = m := Option.some.inj (hl.symm.trans hm)
    obtain ⟨ho, hu⟩ := place_of_running_rom hr
    exact State.stepsLeft_putLane_lt (s := { s with cur := i }) (List.getElem?_eq_some_iff.1 hp).1 hl
      ((laneExec_next he).stepsLeft_lt ho hu)

/-- A lane that works on a pair and has no step is `Done` or `Faulted` (spec/43_cipher_pipeline.md R161). -/
theorem Lane.Runs.settled_of_not_running {l : Lane} {key pt : List Byte} (h : l.Runs key pt)
    (hr : l.running .rom = false) : l.settled = true := by
  have ⟨_, ho, _⟩ := h
  rw [running_rom ho, decide_eq_false_iff_not, Nat.not_lt] at hr
  refine l.settled_iff.2 ⟨ho, ?_⟩
  by_cases hg : key.length = 16 ∧ pt.length = 16
  · rw [runs_iff_encrypts hg] at h
    exact .inl (BitVec.eq_of_toNat_eq (Nat.le_antisymm h.place hr))
  · rw [Runs, if_neg hg] at h
    obtain ⟨-, -, -, ⟨h0, -⟩ | ⟨h62, -⟩⟩ := h
    · exact absurd (h0 ▸ hr) (by decide)
    · exact .inr (.inl h62)

/-- A lane of a batch that has no step is settled: it works on a pair, or START left it idle. -/
theorem State.Batch.settled_of_not_running {s : State} {pairs : List (List Byte × List Byte)} (h : s.Batch pairs)
    {l : Lane} (hl : l ∈ s.lanes) (hr : l.running .rom = false) : l.settled = true := by
  obtain ⟨i, hi⟩ := List.mem_iff_getElem?.1 hl
  by_cases hp : i < pairs.length
  · obtain ⟨m, hm, hruns⟩ := h.runs i _ _ (List.getElem?_eq_getElem hp)
    obtain rfl : l = m := Option.some.inj (hi.symm.trans hm)
    exact hruns.settled_of_not_running hr
  · obtain ⟨ho, hu, -⟩ := h.unselected i l (Nat.le_of_not_lt hp) hi
    exact l.settled_iff.2 ⟨ho, .inr (.inr hu)⟩

/-- A batch with nothing on the agenda comes to `DONE`: each step is one of the steps left to its lanes, until none is left
and the completion step is taken (spec/44_batch_driver.md R185, R186). -/
theorem State.Batch.ends {s : State} {pairs : List (List Byte × List Byte)} (h : s.Batch pairs) (hag : s.agenda = []) :
    ∃ (n : Nat) (t : State), n ≤ s.stepsLeft pairs.length + 1 ∧ runFor n s = .next t ∧ t.Batch pairs ∧ t.done = true := by
  induction hk : s.stepsLeft pairs.length using Nat.strong_induction_on generalizing s with
  | _ k ih =>
    obtain ⟨hb, -⟩ | ⟨-, hd, -⟩ := h.flags
    · obtain ⟨i, l, c, hl, hr, he⟩ | ⟨hnone, he⟩ := engineMove_cases s
      · have hc : ({ s with choices := c } : State).Batch pairs := h.congr rfl rfl rfl rfl rfl
        obtain ⟨u, hu, hbatch, hua⟩ := hc.laneStep (List.getElem?_eq_some_iff.1 hl).1
        have hlt : u.stepsLeft pairs.length < k := hk ▸ hc.laneStep_stepsLeft_lt hl (h.store ▸ hr) hu
        obtain ⟨n, t, hn, hrun, ht⟩ := ih _ hlt hbatch (hua.trans hag) rfl
        have hstep : step s = .next u := (step_of_empty_agenda hag).trans (he.trans hu)
        exact ⟨n + 1, t, by omega, (runFor_succ_of hstep n).trans hrun, ht⟩
      · have hcan : s.canComplete = true :=
          s.canComplete_iff.2 ⟨hb, fun l hl => h.settled_of_not_running hl (h.store ▸ hnone l hl)⟩
        have hmove : Machine.engineMove s = .next s.completeBatch := he.trans (completeStep_of_canComplete hcan)
        obtain ⟨u, hu, hbatch, -⟩ := h.engineMove
        obtain rfl : s.completeBatch = u := Host.Outcome.next.inj (hmove.symm.trans hu)
        exact ⟨1, _, by omega, runFor_succ_of ((step_of_empty_agenda hag).trans hmove) 0, hbatch, rfl⟩
    · exact ⟨0, s, Nat.zero_le _, rfl, h, hd⟩

/-- Settles O57: after START and the schedule's events the agenda is empty, and at most 44 steps are left for each
pair. -/
theorem everyBatchEnds : Obligations.EveryBatchEnds := by
  intro s pairs sched hc hb hload hq hag
  have hrun := hload.run hc hb hq hag
  refine ⟨fun n => ?_, ?_⟩
  · cases n with
    | zero => exact ⟨s, rfl⟩
    | succ n =>
      obtain ⟨t, ht, -⟩ := hrun n
      exact ⟨t, ht⟩
  · obtain ⟨u, hu, hbatch, hua⟩ := hrun sched.length
    obtain ⟨n, t, hn, ht, htb, hd⟩ := hbatch.ends (hua.trans List.drop_length)
    have hleft := u.stepsLeft_le pairs.length
    exact ⟨sched.length + 1 + n, t, by omega, (runFor_add_of hu).trans ht, hd, htb.hasResults hd⟩

end Sys2Proof.Machine
end

section
/-! PROOF. Reset as a host action, and what the host may not do to a busy engine (spec/70_reset_and_hazards.md R230, R233,
R235). -/

namespace Sys2Proof.Machine

/-! ### Reset as a host action -/

/-- The step that takes a reset from the agenda, in any engine. -/
theorem step_of_reset {s : State} {rest : List Event} (hag : s.agenda = .host .reset :: rest) :
    step s = .next ({ s with agenda := rest }).resetEngine :=
  step_of_agenda hag

/-- After a reset every lane is as reset leaves it. -/
theorem State.eq_reset_of_mem_resetEngine {s : State} {l : Lane} (hl : l ∈ s.resetEngine.lanes) :
    ∃ p, l = Lane.reset p := by
  rw [resetEngine_lanes] at hl
  obtain ⟨m, -, rfl⟩ := List.mem_map.1 hl
  exact ⟨_, rfl⟩

/-- No byte of a register without a mark holds a value. -/
theorem writtenByte_fill_false (g : Block) (k : Nat) : writtenByte g (.fill false) k = none := by
  simp [writtenByte]

/-- The data of a lane's slots holds no value after reset (spec/10_state.md R43, R44). -/
theorem Lane.memRead_reset {sp : Space} (hsp : sp = .key ∨ sp = .block ∨ sp = .ciphertext) (p k : Nat) :
    (Lane.reset p).memRead sp k = none := by
  obtain rfl | rfl | rfl := hsp
  · exact writtenByte_fill_false _ k
  · exact writtenByte_fill_false _ k
  · exact writtenByte_fill_false _ k

/-- Nor does that of a whole engine, whether or not there is a lane of the index. -/
theorem State.memRead_resetEngine (s : State) {sp : Space} (hsp : sp = .key ∨ sp = .block ∨ sp = .ciphertext)
    (i k : Nat) : memRead s.resetEngine sp i k = none := by
  cases hl : s.resetEngine.lanes[i]? with
  | none => obtain rfl | rfl | rfl := hsp <;> simp only [memRead, hl]
  | some l =>
    obtain ⟨p, rfl⟩ := eq_reset_of_mem_resetEngine (List.mem_of_getElem? hl)
    have hctrl : sp ≠ .ctrl := by rintro rfl; simp at hsp
    rw [memRead_of hl hctrl, Lane.memRead_reset hsp]

/-- A read of a lane while `DONE = 0` answers no value (log 12). -/
theorem laneReply_of_not_done {s : State} (hd : s.done = false) (i : Nat) (l : Lane) :
    laneReply s i l = .laneUnsettled i := by
  rw [laneReply, hd]
  rfl

/-- Settles O37: the lanes after the step are those that reset leaves, and their slots are read with `DONE = 0`. -/
theorem resetRestoresEveryRegister : Obligations.ResetRestoresEveryRegister := by
  intro s rest hag
  refine ⟨_, step_of_reset hag, by simp, rfl, rfl, rfl, rfl, rfl, rfl, rfl, fun l hl => ?_, fun i k => ?_,
    fun i l hl => ?_⟩
  · obtain ⟨p, rfl⟩ := State.eq_reset_of_mem_resetEngine hl
    simp
  · exact ⟨State.memRead_resetEngine _ (.inl rfl) i k, State.memRead_resetEngine _ (.inr (.inl rfl)) i k,
      State.memRead_resetEngine _ (.inr (.inr rfl)) i k⟩
  · rw [hostReadLane_of hl, laneReply_of_not_done (State.resetEngine_done _)]

/-! ### Host writes and START while a batch runs -/

/-- The step that takes a write of a slot from the agenda of a busy engine (log 11). -/
theorem step_of_slotWrite_of_busy {s : State} {a : HostAction} {i : Nat} {rest : List Event} (ha : a.WritesSlot i)
    (hag : s.agenda = .host a :: rest) (hb : s.busy = true) : step s = .refused .hostWriteWhileBusy := by
  rw [step_of_agenda hag]
  exact (ha _).trans (hostWriteLane_of_busy (s := { s with agenda := rest }) hb i _)

/-- Settles O36: five of the writes are writes of a slot; `SetCount` and START are refused as O32 says. -/
theorem busyEngineRefusesTheHost : Obligations.BusyEngineRefusesTheHost := by
  intro s a rest hag hb
  obtain ⟨hcount, hstart⟩ := setCountAndStart s rest
  have hslot (i : Nat) (ha : a.WritesSlot i) : step s = .refused .hostWriteWhileBusy :=
    step_of_slotWrite_of_busy ha hag hb
  refine ⟨?_, fun ha => (hstart (ha ▸ hag)).1 hb⟩
  rintro (⟨i, key, pt, rfl⟩ | ⟨i, n, rfl⟩ | ⟨i, k, v, rfl⟩ | ⟨i, n, rfl⟩ | ⟨i, k, v, rfl⟩ | ⟨m, rfl⟩)
  · exact hslot i fun _ => rfl
  · exact hslot i fun _ => rfl
  · exact hslot i fun _ => rfl
  · exact hslot i fun _ => rfl
  · exact hslot i fun _ => rfl
  · exact (hcount m hag).2 hb

end Sys2Proof.Machine
end
